-- ==== Sys2Proof/Word.lean ====
section
/-! DEFINITION. The word types of DNFP: the 32-bit window word and command word, the u64 significand, a byte of the
digit buffer, a byte offset of the register window, and the number of an `Fp` register. -/

namespace Sys2Proof

/-- A 32-bit word: a window word (R51) or a command word (R80). -/
abbrev Word := BitVec 32

/-- A u64 value: an `Fp` significand, `ARG_SIG`, `CSIG` (R8). -/
abbrev DWord := BitVec 64

/-- One byte of the digit buffer (R33). -/
abbrev Byte := BitVec 8

/-- A byte offset of the 4096-byte register window, 0x000 to 0xFFF (R50). -/
abbrev Offset := BitVec 12

/-- The number of an `Fp` register, F0 to F7: a 3-bit field, every value legal (R82). -/
abbrev FReg := Fin 8

end Sys2Proof
end

