-- ==== Sys2Proof/Config.lean ====
section
/-! DEFINITION. What the spec leaves open: the free value of R241. DNFP has one fixed configuration (R2): the parameters
of R6 are constants, the widths and counts (`SIGW` 64, `EXPW` 32, `NFREG` 8, `NROM` 79, `DCAP` 32) in the types of
Word.lean and Machine/State.lean, the numbers that meanings use in Machine/Params.lean. -/

namespace Sys2Proof.Config

/-- FREE VALUE (log entry 4). The word a host read returns when it is made while `STATUS.BUSY` is 1 of a register the
command in flight may write: "returns any 32-bit value; a model draws it freely, with no constraint" (R241). Applied to
the counter `State.draws`, which each draw advances. It has no body: no proof can see its value. -/
opaque freeRead : Nat → Word

end Sys2Proof.Config
end

