-- ==== Sys2Proof/Syntax.lean ====
section
/-! DEFINITION. The commands of DNFP, one constructor per row of the opcode map (R83). Register operands stand in field
order RD, RA, RB (R87). -/

namespace Sys2Proof

/-- A command of the unit (R83, R87). -/
inductive Instr
  /-- `NOP` (R101). -/
  | nop
  /-- `LDF Fd` (R102). -/
  | ldf (d : FReg)
  /-- `FSUB Fd, Fa, Fb` (R103). -/
  | fsub (d a b : FReg)
  /-- `FMUL Fd, Fa, Fb` (R104). -/
  | fmul (d a b : FReg)
  /-- `FNORM Fd, Fa` (R106). -/
  | fnorm (d a : FReg)
  /-- `FNORMTO Fd, Fa, Fb`; the target exponent is `F[b].exp` (R107). -/
  | fnormto (d a b : FReg)
  /-- `CPOW Fd, Fa`; the binary exponent is `F[a].exp` (R134). -/
  | cpow (d a : FReg)
  /-- `FCLASS.D` (R153). -/
  | fclassD
  /-- `FCLASS.S` (R153). -/
  | fclassS
  /-- `BOUND.D Fv, Fm, Fp` (R158). -/
  | boundD (v m p : FReg)
  /-- `BOUND.S Fv, Fm, Fp` (R158). -/
  | boundS (v m p : FReg)
  /-- `DIGITS Fv, Fm, Fp` (R170). -/
  | digits (v m p : FReg)
  deriving DecidableEq, Repr

end Sys2Proof
end

