-- ==== Sys2Proof/Machine/State.lean ====
section
/-! DEFINITION. The state of DNFP (R20 to R38) and, beside it, the model's own fields for the host agent and the
interleaving; the state after reset (R37); why a step can stop. -/

namespace Sys2Proof.Machine

/-- The cause codes of a DNFP fault (R201). Codes 13 to 15 are "never reported" and have no constructor. -/
inductive Cause
  | none | illegal | uninit | subPrecond | normZero | normtoPrecond | expRange | cpowRange | boundClass
  | digitsPrecond | digitsOverflow | roundUnderflow | overrun
  deriving DecidableEq, Repr

/-- An `Fp` value: the pair `(sig, exp)` of a u64 and an i32, standing for `sig × 2^exp` (R9). -/
structure Fp where
  sig : DWord
  /-- An i32, two's complement. -/
  exp : Word
  deriving DecidableEq, Repr

/-- An `Fp` register: `SIG`, `EXP` and `VALID` (R21). While `valid` is false the register holds no value, and no rule
reads `sig` or `exp` (log entry 5). -/
structure FpReg where
  sig : DWord
  exp : Word
  valid : Bool
  deriving DecidableEq, Repr

/-- An operation of the host agent (R10, R88). `bytes` is the width of the access; the window takes width 4 only. -/
inductive HostOp
  /-- `R off`: `MemRead(off, bytes)`. -/
  | read (off : Offset) (bytes : Nat)
  /-- `W off, v`: `MemWrite(off, bytes, v)`. -/
  | write (off : Offset) (bytes : Nat) (v : Word)
  /-- `WAIT`: read `STATUS` until bit 0 (`BUSY`) is 0. -/
  | wait
  deriving DecidableEq, Repr

/-- An agent whose turn it can be (R63, R200, R230; log entry 1). -/
inductive Turn
  /-- the unit agent: its step `Complete`, where it is enabled -/
  | unit
  /-- the host agent: its next operation -/
  | host
  /-- the platform asserts the reset input -/
  | platformReset
  deriving DecidableEq, Repr

/-- The state of DNFP (R20), field by field, and the model's own fields (log entries 1 to 4). `CTRL` is the field
`refine`, and `STATUS` the fields `pend`, `fault` and `cause`: the 32-bit words are views of them (Machine/Flags.lean). -/
structure State where
  /-- `F[0..7]` (R21). -/
  f : Vector FpReg 8
  /-- `ARG_SIG` (R23). -/
  argSig : DWord
  /-- `ARG_EXP`, an i32 (R23). -/
  argExp : Word
  /-- `CTRL.REFINE` (R25, R26). -/
  refine : Bool
  /-- `STATUS.FAULT` (R27). -/
  fault : Bool
  /-- `STATUS.CAUSE` (R27, R201). -/
  cause : Cause
  /-- `FCMD` (R29). -/
  fcmd : Word
  /-- `CLASS` (R30). -/
  cls : Word
  /-- `CSIG` (R31). -/
  csig : DWord
  /-- `CPK`, an i32 (R32). -/
  cpk : Word
  /-- `DBUF[0..31]` (R33). -/
  dbuf : Vector Byte 32
  /-- `DLEN` (R34). -/
  dlen : Word
  /-- `DEXP`, an i32 (R35). -/
  dexp : Word
  /-- `PEND`, which `STATUS.BUSY` reads (R24). -/
  pend : Bool
  /-- `PCMD` (R24). -/
  pcmd : Word
  /-- `PARG_SIG` (R24). -/
  pargSig : DWord
  /-- `PARG_EXP`, an i32 (R24). -/
  pargExp : Word
  /-- `PREFINE` (R24). -/
  prefine : Bool
  /-- MODEL'S OWN: the host operations still to come, oldest first (log entry 2). -/
  prog : List HostOp
  /-- MODEL'S OWN: whose turn comes next, and next after that (log entry 1). -/
  sched : List Turn
  /-- MODEL'S OWN: the words the host's `R` operations have returned, newest first (log entry 3). -/
  reads : List Word
  /-- MODEL'S OWN: how many free draws have been made (log entry 4). -/
  draws : Nat
  deriving DecidableEq, Repr

/-- The state after reset (R37). The fields that R37 gives no value (the contents of the invalid `Fp` registers and the
copies of the idle issue latch) are 0: DESIGN CHOICE, log entries 5 and 6. -/
def State.reset : State where
  f := Vector.replicate 8 ⟨0, 0, false⟩
  argSig := 0
  argExp := 0
  refine := true
  fault := false
  cause := .none
  fcmd := 0
  cls := 0
  csig := 0
  cpk := 0
  dbuf := Vector.replicate 32 0
  dlen := 0
  dexp := 0
  pend := false
  pcmd := 0
  pargSig := 0
  pargExp := 0
  prefine := false
  prog := []
  sched := []
  reads := []
  draws := 0

/-- Why the model stops. A DNFP fault is none of these: it is a next state with `STATUS.FAULT` set (R203). -/
inductive Fault
  /-- Raised by the host's turn when its next access is not 4 bytes wide or its offset is no multiple of 4: "A model gives
  such an access no step: the host agent is stuck" (R54, parameter HOST_BAD_ACCESS). SAFE (log entry 7). -/
  | hostAccessNotTaken
  deriving DecidableEq, Repr

/-- Why an instruction has no meaning. -/
inductive Refusal
  /-- Raised by an arm of `exec` whose instruction has no meaning yet; no arm raises it in this model. SAFE. -/
  | notModelled (mnemonic : String)
  deriving DecidableEq, Repr

end Sys2Proof.Machine
end

