-- ==== Sys2Proof/Machine/Ops.lean ====
section
/-! DEFINITION. The named operations on the state: reading and writing an `Fp` register, writing the result registers,
how a command ends (commit or fault, R202, R203), issue (R59) and reset (R231). -/

namespace Sys2Proof.Machine

/-! ## The `Fp` registers -/

/-- `F[i]` as a command reads it: "A command that reads a register whose `VALID` bit is 0 raises `Fault(UNINIT)`"
(R10, R21). -/
def State.readF (s : State) (i : FReg) : Except Cause Fp :=
  if s.f[i].valid then .ok ⟨s.f[i].sig, s.f[i].exp⟩ else .error .uninit

/-- `F[i] <- x`: "writes the pair `x` to register `i` and sets `VALID[i]` to 1" (R10). -/
def State.writeF (s : State) (i : FReg) (x : Fp) : State :=
  { s with f := s.f.set i ⟨x.sig, x.exp, true⟩ }

/-! ## How a command ends -/

/-- `commit` (R202): the writes of the command stand, and `PEND` becomes 0. -/
def State.commit (s : State) : State := { s with pend := false }

/-- Fault entry with cause `c` and command word `w`, the one description of it (R203; R207 for `OVERRUN`): `FAULT`,
`CAUSE` and `FCMD` are written, the command in flight is discarded, "Nothing else changes". Its only return is a reset
(R209). -/
def State.takeFault (s : State) (c : Cause) (w : Word) : State :=
  { s with fault := true, cause := c, fcmd := w, pend := false }

/-- How a command that started in `s` ends (R200): with the state of all its writes, which it commits, or with a cause,
which it raises; the fault names the word in flight and discards every write, so it is taken from `s` itself. -/
def finish (s : State) : Except Cause State → Host.Outcome State Fault Refusal
  | .ok s' => .next s'.commit
  | .error c => .next (s.takeFault c s.pcmd)

/-! ## Issue (R59) -/

/-- The latching of a command word with its operands (R24, R59): `PCMD`, `PARG_SIG`, `PARG_EXP` and `PREFINE` are copied
and `PEND` is set. -/
def State.latch (s : State) (w : Word) : State :=
  { s with pcmd := w, pargSig := s.argSig, pargExp := s.argExp, prefine := s.refine, pend := true }

/-- `Issue(v)` (R59): ignored while halted, an `OVERRUN` naming `v` while a command is in flight (R207), else latched. -/
def State.issue (s : State) (v : Word) : State :=
  if s.fault then s
  else if s.pend then s.takeFault .overrun v
  else s.latch v

/-! ## Reset -/

/-- `Reset()` (R231), of either source (R230): the hardware's state becomes the state after reset; the model's own fields
for the host and the interleaving are no part of the block and stay. -/
def State.resetUnit (s : State) : State :=
  { State.reset with prog := s.prog, sched := s.sched, reads := s.reads, draws := s.draws }

/-! ## The model's own fields -/

/-- The state with the host's remaining operations `more` (log entry 2). -/
def State.withProg (s : State) (more : List HostOp) : State := { s with prog := more }

end Sys2Proof.Machine
end

