-- ==== Sys2Proof/Machine/Params.lean ====
section
/-! DEFINITION. The numeric parameters of R6 and the precision descriptors of R150. -/

namespace Sys2Proof.Machine

/-- `ALPHA`, the lower end of the working exponent window (R6). -/
def alpha : Int := -60
/-- `GAMMA`, the upper end of the working exponent window (R6). -/
def gamma : Int := -32
/-- `KMIN`, the decimal exponent of ROM entry 0 (R6). -/
def kmin : Int := -300
/-- `KSTEP`, the decimal-exponent step between ROM entries (R6). -/
def kstep : Int := 8
/-- `LOG2_10_NUM`, the numerator of log10(2) over 2^18 (R6). -/
def log2_10_num : Int := 78913

/-- `NROM`, the number of ROM entries (R6). -/
def nrom : Int := 79
/-- `DCAP`, the digit-buffer capacity in digits (R6). -/
def dcap : Nat := 32

/-- The two precisions, selected by the `P` bit (R82). -/
inductive Prec
  /-- binary64, `P` = 0 -/
  | double
  /-- binary32, `P` = 1 -/
  | single
  deriving DecidableEq, Repr

/-- A precision descriptor (R150). -/
structure Descriptor where
  /-- `W`, the pattern width. -/
  width : Nat
  /-- `FB`, the significand field bits. -/
  fb : Nat
  /-- `EB`, the exponent field bits. -/
  eb : Nat
  /-- `EMAX`, the all-ones exponent field. -/
  emax : Nat
  /-- `HIDDEN`, the hidden-bit value. -/
  hidden : Nat
  /-- `BIAS`, the bias of the significand read as an integer. -/
  bias : Int
  deriving DecidableEq, Repr

/-- The descriptors of R150. -/
def Prec.desc : Prec → Descriptor
  | .double => ⟨64, 52, 11, 2047, 2 ^ 52, 1075⟩
  | .single => ⟨32, 23, 8, 255, 2 ^ 23, 150⟩

/-- The `P` bit of a precision (R82). -/
def Prec.bit : Prec → BitVec 1
  | .double => 0
  | .single => 1

end Sys2Proof.Machine
end

