-- ==== Sys2Proof/Machine/Operands.lean ====
section
/-! DEFINITION. The forms in which a command takes its operands and stores its results: i32 exponents as integers (R8),
`Fp` pairs from exact integers, the latched argument (R23, R102), the fields of a raw float pattern (R151), and the
32-bit halves of a 64-bit register (R55). -/

namespace Sys2Proof.Machine

/-! ## Integers and i32 (R8, R10) -/

/-- `fits_i32(n)`: `-2^31 ≤ n ≤ 2^31-1` (R10). -/
def fitsI32 (n : Int) : Bool := -2 ^ 31 ≤ n && n ≤ 2 ^ 31 - 1

/-- `floor_div(a, b)` for `b > 0` (R10): Lean's integer division by a positive number rounds down. -/
def floorDiv (a b : Int) : Int := a / b

/-- `ceil_div(a, b)` for `b > 0` (R10). -/
def ceilDiv (a b : Int) : Int := -((-a) / b)

/-- The number of leading zero bits of a u64; `clz64(0) = 64` (R10). -/
def clz64 (v : DWord) : Nat := if v = 0 then 64 else 63 - v.toNat.log2

/-- The `Fp` pair with an exact significand below 2^64 and an exact exponent in the i32 range. -/
def Fp.ofExact (sig : Nat) (exp : Int) : Fp := ⟨BitVec.ofNat 64 sig, BitVec.ofInt 32 exp⟩

/-! ## The latched argument -/

/-- The `Fp` operand of LDF: `(PARG_SIG, PARG_EXP)` (R102), never the live registers (R23). -/
def State.latchedArg (s : State) : Fp := ⟨s.pargSig, s.pargExp⟩

/-- The decoded float of DOC §3: the sign, the biased exponent field `E` and the significand field `F` (R151). -/
structure FloatFields where
  sign : Bool
  e : Nat
  f : Nat
  deriving DecidableEq, Repr

/-- The raw pattern: `PARG_SIG` for D, `PARG_SIG[31:0]` for S, whose high word is ignored (R151). -/
def rawPattern (p : Prec) (arg : DWord) : Nat := arg.toNat % 2 ^ p.desc.width

/-- Field extraction (R151): `sign = bits[W-1]`, `E = bits[W-2:FB]`, `F = bits[FB-1:0]`. -/
def fields (p : Prec) (arg : DWord) : FloatFields where
  sign := (rawPattern p arg).testBit (p.desc.width - 1)
  e := rawPattern p arg / 2 ^ p.desc.fb % 2 ^ p.desc.eb
  f := rawPattern p arg % 2 ^ p.desc.fb

/-! ## Halves of a 64-bit register (R55) -/

/-- Bits 31:0, the word at the lower offset. -/
def loWord (x : DWord) : Word := x.extractLsb' 0 32
/-- Bits 63:32, the word at the offset 4 higher. -/
def hiWord (x : DWord) : Word := x.extractLsb' 32 32
/-- `x` with its bits 31:0 replaced. -/
def setLo (x : DWord) (v : Word) : DWord := hiWord x ++ v
/-- `x` with its bits 63:32 replaced. -/
def setHi (x : DWord) (v : Word) : DWord := v ++ loWord x

end Sys2Proof.Machine
end

