-- ==== Sys2Proof/Machine/Flags.lean ====
section
/-! DEFINITION. The status words and the flag computations: the `CTRL` and `STATUS` views (R25, R27), the cause codes
(R201), the predicates of a decoded float (R152) and the `CLASS` word (R153). DNFP has no condition codes (R28). -/

namespace Sys2Proof.Machine

/-- One flag bit. -/
def flag (b : Bool) : BitVec 1 := BitVec.ofBool b

/-- The 4-bit code of a cause (R201). -/
def Cause.code : Cause → BitVec 4
  | .none => 0
  | .illegal => 1
  | .uninit => 2
  | .subPrecond => 3
  | .normZero => 4
  | .normtoPrecond => 5
  | .expRange => 6
  | .cpowRange => 7
  | .boundClass => 8
  | .digitsPrecond => 9
  | .digitsOverflow => 10
  | .roundUnderflow => 11
  | .overrun => 12

/-- `CTRL` as the host reads it: `REFINE` at bit 0, bits 31:1 read 0 (R25). -/
def State.ctrlWord (s : State) : Word := 0#31 ++ flag s.refine

/-- `STATUS` (R27): `BUSY` at bit 0, which reads `PEND` (R24), `FAULT` at bit 1, `CAUSE` at bits 11:8. -/
def State.statusWord (s : State) : Word := 0#20 ++ s.cause.code ++ 0#6 ++ flag s.fault ++ flag s.pend

/-! ## The predicates (R152) -/

/-- `is_zero`. -/
def FloatFields.isZero (x : FloatFields) : Bool := x.e = 0 && x.f = 0
/-- `is_nan`. -/
def FloatFields.isNan (d : Descriptor) (x : FloatFields) : Bool := x.e = d.emax && x.f ≠ 0
/-- `is_inf`. -/
def FloatFields.isInf (d : Descriptor) (x : FloatFields) : Bool := x.e = d.emax && x.f = 0
/-- `is_denormal`: the biased exponent field is 0, true for both zeros too. -/
def FloatFields.isDenormal (x : FloatFields) : Bool := x.e = 0

/-- The `CLASS` word (R30, R153): `BEXP` at 26:16, `PREC` at 8, `DENORMAL`, `INF`, `NAN`, `ZERO`, `NEG` at 4 to 0. -/
def classWord (p : Prec) (x : FloatFields) : Word :=
  0#5 ++ BitVec.ofNat 11 x.e ++ 0#7 ++ p.bit ++ 0#3 ++ flag x.isDenormal ++ flag (x.isInf p.desc) ++
    flag (x.isNan p.desc) ++ flag x.isZero ++ flag x.sign

end Sys2Proof.Machine
end

