-- ==== Sys2Proof/Machine/FpArith.lean ====
section
/-! DEFINITION. The `Fp` arithmetic commands (40_fp_arith.md): the functions FSUB, FMUL, FNORM and FNORMTO on `Fp` pairs,
which BOUND and DIGITS use too, and the meanings of NOP, LDF, FSUB, FMUL, FNORM and FNORMTO. The arithmetic is on
mathematical integers (R100). -/

namespace Sys2Proof.Machine

/-! ## The functions -/

/-- FSUB's function (R103): the exact difference at one exponent. -/
def fsub (x y : Fp) : Except Cause Fp :=
  if x.exp ≠ y.exp ∨ x.sig.toNat < y.sig.toNat then .error .subPrecond
  else .ok ⟨BitVec.ofNat 64 (x.sig.toNat - y.sig.toNat), x.exp⟩

/-- The rounded high half of a product (R104): `floor_div(P + 2^63, 2^64)` of `P = mul128(a, b)`. -/
def mulHigh (a b : DWord) : Nat := (a.toNat * b.toNat + 2 ^ 63) / 2 ^ 64

/-- FMUL's function (R104): the high half of the product, ties rounded up, at exponent `x.exp + y.exp + 64`. -/
def fmul (x y : Fp) : Except Cause Fp :=
  let e := x.exp.toInt + y.exp.toInt + 64
  if fitsI32 e then .ok (Fp.ofExact (mulHigh x.sig y.sig) e) else .error .expRange

/-- The same high half from four 32×32 partial products, for a build without a 64×64 multiplier (R105). -/
def mulHighPartial (a b : DWord) : Nat :=
  let ul := (loWord a).toNat
  let uh := (hiWord a).toNat
  let vl := (loWord b).toNat
  let vh := (hiWord b).toNat
  let p0 := ul * vl
  let p1 := ul * vh
  let p2 := uh * vl
  let p3 := uh * vh
  let q := p0 / 2 ^ 32 + p1 % 2 ^ 32 + p2 % 2 ^ 32 + 2 ^ 31
  p3 + p1 / 2 ^ 32 + p2 / 2 ^ 32 + q / 2 ^ 32

/-- The significand shifted left; 0 stays 0 at every shift, however long (R107). -/
def shiftSig (sig : DWord) (n : Nat) : Nat := if sig = 0 then 0 else sig.toNat * 2 ^ n

/-- FNORM's function (R106): shifted left until the top bit is set, the exponent lowered with it. -/
def fnorm (x : Fp) : Except Cause Fp :=
  if x.sig = 0 then .error .normZero
  else
    let s := clz64 x.sig
    let e := x.exp.toInt - s
    if fitsI32 e then .ok (Fp.ofExact (shiftSig x.sig s) e) else .error .expRange

/-- FNORMTO's function (R107): shifted left to reach the exponent `t` exactly; the target may not exceed `x.exp`
(90_conflicts.md C1). -/
def fnormto (x : Fp) (t : Word) : Except Cause Fp :=
  let delta := x.exp.toInt - t.toInt
  if delta < 0 then .error .normtoPrecond
  else if x.sig ≠ 0 ∧ delta > clz64 x.sig then .error .normtoPrecond
  else .ok ⟨BitVec.ofNat 64 (shiftSig x.sig delta.toNat), t⟩

/-! ## The commands -/

/-- `NOP`: `commit` (R101). -/
def execNop (s : State) : Host.Outcome State Fault Refusal := finish s (.ok s)

/-- `LDF Fd`: `F[d]` takes the latched pair, whatever it is (R102). -/
def execLdf (d : FReg) (s : State) : Host.Outcome State Fault Refusal :=
  finish s (.ok (s.writeF d s.latchedArg))

/-- `FSUB Fd, Fa, Fb` (R103). -/
def execFsub (d a b : FReg) (s : State) : Host.Outcome State Fault Refusal :=
  finish s do
    let x ← s.readF a
    let y ← s.readF b
    let r ← fsub x y
    pure (s.writeF d r)

/-- `FMUL Fd, Fa, Fb` (R104). -/
def execFmul (d a b : FReg) (s : State) : Host.Outcome State Fault Refusal :=
  finish s do
    let x ← s.readF a
    let y ← s.readF b
    let r ← fmul x y
    pure (s.writeF d r)

/-- `FNORM Fd, Fa` (R106). -/
def execFnorm (d a : FReg) (s : State) : Host.Outcome State Fault Refusal :=
  finish s do
    let x ← s.readF a
    let r ← fnorm x
    pure (s.writeF d r)

/-- `FNORMTO Fd, Fa, Fb`: the target is the exponent of `F[b]`, whose significand is not used (R107). -/
def execFnormto (d a b : FReg) (s : State) : Host.Outcome State Fault Refusal :=
  finish s do
    let x ← s.readF a
    let y ← s.readF b
    let r ← fnormto x y.exp
    pure (s.writeF d r)

end Sys2Proof.Machine
end

