-- ==== Sys2Proof/WellFormed.lean ====
section
/-! DEFINITION. Which commands are well formed: the one constraint the types do not carry is that the three register
fields of BOUND name three different registers (R85). -/

namespace Sys2Proof

/-- Three register fields that name three different registers (R85). -/
def pairwiseDistinct (v m p : FReg) : Bool := v ≠ m && v ≠ p && m ≠ p

/-- A well-formed command: "BOUND writes three registers, so its three register fields must name three different
registers" (R85); the fields of every other command may be equal. -/
def Instr.wf : Instr → Bool
  | .nop => true
  | .ldf _ => true
  | .fsub _ _ _ => true
  | .fmul _ _ _ => true
  | .fnorm _ _ => true
  | .fnormto _ _ _ => true
  | .cpow _ _ => true
  | .fclassD => true
  | .fclassS => true
  | .boundD v m p => pairwiseDistinct v m p
  | .boundS v m p => pairwiseDistinct v m p
  | .digits _ _ _ => true

end Sys2Proof
end

