-- ==== Sys2Proof/Machine/Boundary.lean ====
section
/-! DEFINITION. Float decomposition and boundary computation (42_boundary.md): the meanings of FCLASS.D, FCLASS.S (R153),
BOUND.D and BOUND.S (R158). -/

namespace Sys2Proof.Machine

/-! ## FCLASS -/

/-- `CLASS` and `CSIG` take the decomposition of a pattern (R153). -/
def State.writeClass (s : State) (p : Prec) (x : FloatFields) : State :=
  { s with cls := classWord p x, csig := BitVec.ofNat 64 x.f }

/-- FCLASS at a precision, on the latched pattern (R153). -/
def fclass (p : Prec) (s : State) : State := s.writeClass p (fields p s.pargSig)

/-- `FCLASS.D` (R153). -/
def execFclassD (s : State) : Host.Outcome State Fault Refusal := finish s (.ok (fclass .double s))

/-- `FCLASS.S` (R153). -/
def execFclassS (s : State) : Host.Outcome State Fault Refusal := finish s (.ok (fclass .single s))

/-! ## The boundaries -/

/-- The boundary triple of DOC §3: the value and its two boundaries at one binary exponent. -/
structure BoundTriple where
  v : Fp
  minus : Fp
  plus : Fp
  deriving DecidableEq, Repr

/-- The value `v` of the magnitude (R154): a denormal at exponent `1 - BIAS`, a normal with the hidden bit at `E - BIAS`. -/
def floatValue (d : Descriptor) (x : FloatFields) : Fp :=
  if x.e = 0 then Fp.ofExact x.f (1 - d.bias) else Fp.ofExact (x.f + d.hidden) (x.e - d.bias)

/-- The upper boundary (R155): `(2·v.sig + 1, v.exp - 1)`. -/
def upperBoundary (v : Fp) : Fp := Fp.ofExact (2 * v.sig.toNat + 1) (v.exp.toInt - 1)

/-- The lower boundary (R156): half the gap below a power of two whose predecessor lies in a smaller binade. -/
def lowerBoundary (x : FloatFields) (v : Fp) : Fp :=
  if x.f = 0 ∧ x.e > 1 then Fp.ofExact (4 * v.sig.toNat - 1) (v.exp.toInt - 2)
  else Fp.ofExact (2 * v.sig.toNat - 1) (v.exp.toInt - 1)

/-- The boundary triple of a decoded float (R154 to R158): finite and non-zero, else `BOUND_CLASS`; the upper boundary
normalized, the other two brought to its exponent (R157). -/
def boundTriple (d : Descriptor) (x : FloatFields) : Except Cause BoundTriple :=
  if x.isZero ∨ x.isNan d ∨ x.isInf d then .error .boundClass
  else do
    let v := floatValue d x
    let plus ← fnorm (upperBoundary v)
    let minus ← fnormto (lowerBoundary x v) plus.exp
    let v' ← fnormto v plus.exp
    pure ⟨v', minus, plus⟩

/-- The three writes of BOUND (R158). -/
def State.writeTriple (s : State) (v m p : FReg) (t : BoundTriple) : State :=
  ((s.writeF v t.v).writeF m t.minus).writeF p t.plus

/-- BOUND at a precision, on the latched pattern (R158). A command with two equal register fields is illegal (R84, R85);
the decoder gives none (log entry 13). -/
def bound (p : Prec) (v m q : FReg) (s : State) : Except Cause State :=
  if pairwiseDistinct v m q then do
    let t ← boundTriple p.desc (fields p s.pargSig)
    pure (s.writeTriple v m q t)
  else .error .illegal

/-- `BOUND.D Fv, Fm, Fp` (R158). -/
def execBoundD (v m p : FReg) (s : State) : Host.Outcome State Fault Refusal := finish s (bound .double v m p s)

/-- `BOUND.S Fv, Fm, Fp` (R158). -/
def execBoundS (v m p : FReg) (s : State) : Host.Outcome State Fault Refusal := finish s (bound .single v m p s)

end Sys2Proof.Machine
end

