-- ==== Sys2Proof/Machine/CachedPower.lean ====
section
/-! DEFINITION. The power-of-ten lookup (41_cached_power.md): the selector (R133) and the meaning of CPOW (R134). -/

namespace Sys2Proof.Machine

/-- The ROM index of an exponent (R133): `kmin = ceil_div((ALPHA - e - 1) × 78913, 2^18)` and
`j = floor_div(-KMIN + kmin + KSTEP - 1, KSTEP)`. -/
def selectIndex (e : Int) : Int :=
  floorDiv (-kmin + ceilDiv ((alpha - e - 1) * log2_10_num) (2 ^ 18) + kstep - 1) kstep

/-- `select(e)` (R133): the ROM entry at the index, if there is one and the combined exponent lies in `[ALPHA, GAMMA]`. -/
def select (e : Int) : Except Cause RomEntry :=
  let j := selectIndex e
  if j < 0 ∨ j > nrom - 1 then .error .cpowRange
  else match rom[j.toNat]? with
    | none => .error .cpowRange
    | some r => if alpha ≤ r.bexp + e + 64 ∧ r.bexp + e + 64 ≤ gamma then .ok r else .error .cpowRange

/-- The `Fp` value of a ROM entry: `(sig, bexp)` (R134, R170). -/
def RomEntry.fp (r : RomEntry) : Fp := Fp.ofExact r.sig.toNat r.bexp

/-- `CPK <- dexp` (R134). -/
def State.writeCpk (s : State) (dexp : Int) : State := { s with cpk := BitVec.ofInt 32 dexp }

/-- `CPOW Fd, Fa`: only the exponent of `F[a]` is used (R134). -/
def execCpow (d a : FReg) (s : State) : Host.Outcome State Fault Refusal :=
  finish s do
    let x ← s.readF a
    let r ← select x.exp.toInt
    pure ((s.writeF d r.fp).writeCpk r.dexp)

end Sys2Proof.Machine
end

