-- ==== Sys2Proof/Machine/DigitGen.lean ====
section
/-! DEFINITION. The digit generator (43_digit_gen.md): each stage of R170 as a function on mathematical integers (R181
says u64 arithmetic gives the same), and the meaning of DIGITS. -/

namespace Sys2Proof.Machine

/-! ## Scaling and narrowing (R171 to R175) -/

/-- The working interval of R173 and R174 in units of `2^e`, and the unit `one = 2^-e` of R175. -/
structure Working where
  mMinus : Nat
  mPlus : Nat
  w : Nat
  one : Nat
  deriving DecidableEq, Repr

/-- `delta`, the width of the narrowed interval (R174). -/
def Working.delta (k : Working) : Nat := k.mPlus - k.mMinus
/-- `dist`, the distance from the upper bound to the scaled value (R174). -/
def Working.dist (k : Working) : Nat := k.mPlus - k.w
/-- `p1`, the integral part of `M_plus` (R175). -/
def Working.p1 (k : Working) : Nat := k.mPlus / k.one
/-- `p2`, the fraction of `M_plus` (R175). -/
def Working.p2 (k : Working) : Nat := k.mPlus % k.one

/-- Narrowing and split (R173, R175): the lower bound inflated and the upper deflated by one unit; `DIGITS_PRECOND` where
that leaves the u64 range, where the scaled value is not inside, or where `p1` is 0. -/
def narrow (w wMinus wPlus : Fp) : Except Cause Working :=
  if wMinus.sig.toNat = 2 ^ 64 - 1 ∨ wPlus.sig.toNat = 0 then .error .digitsPrecond
  else
    let k : Working := ⟨wMinus.sig.toNat + 1, wPlus.sig.toNat - 1, w.sig.toNat, 2 ^ (-wPlus.exp.toInt).toNat⟩
    if ¬(k.mMinus ≤ k.w ∧ k.w ≤ k.mPlus) then .error .digitsPrecond
    else if k.p1 = 0 then .error .digitsPrecond
    else .ok k

/-- Operand check, power selection, scaling and narrowing (R171 to R175), with the entry's decimal exponent `cdexp`. -/
def scale (v mm mp : Fp) : Except Cause (Working × Int) :=
  if ¬(v.exp = mm.exp ∧ mm.exp = mp.exp) then .error .digitsPrecond
  else do
    let c ← select mp.exp.toInt
    let w ← fmul v c.fp
    let wMinus ← fmul mm c.fp
    let wPlus ← fmul mp c.fp
    let k ← narrow w wMinus wPlus
    pure (k, c.dexp)

/-! ## The phases (R176 to R178) -/

/-- `largest_pow10(p1)` (R176): the number `kk` of decimal digits of `p1` and `10^(kk-1)`, by comparison with nine
constants. -/
def largestPow10 (p1 : Nat) : Nat × Nat :=
  if p1 < 10 then (1, 1)
  else if p1 < 100 then (2, 10)
  else if p1 < 1000 then (3, 100)
  else if p1 < 10000 then (4, 1000)
  else if p1 < 100000 then (5, 10000)
  else if p1 < 1000000 then (6, 100000)
  else if p1 < 10000000 then (7, 1000000)
  else if p1 < 100000000 then (8, 10000000)
  else if p1 < 1000000000 then (9, 100000000)
  else (10, 1000000000)

/-- What a phase hands to the refinement: the digits emitted, LAST ONE FIRST; what the decimal exponent gains; and `rest`,
`ten`, `delta` and `dist` in the unit the phase ended in (R177, R178). -/
structure Emitted where
  buf : List Nat
  gain : Int
  rest : Nat
  ten : Nat
  delta : Nat
  dist : Nat
  deriving DecidableEq, Repr

/-- The integral phase (R177): `n` digits of `p1` remain. It stops at the first prefix with `rest ≤ delta`, or hands the
digits of all of `p1` on. -/
def integralPhase (k : Working) : (n p1 pow10 : Nat) → (buf : List Nat) → Emitted ⊕ List Nat
  | 0, _, _, buf => .inr buf
  | n + 1, p1, pow10, buf =>
    let rest := p1 % pow10 * k.one + k.p2
    if rest ≤ k.delta then .inl ⟨p1 / pow10 :: buf, n, rest, pow10 * k.one, k.delta, k.dist⟩
    else integralPhase k n (p1 % pow10) (pow10 / 10) (p1 / pow10 :: buf)

/-- The fractional phase (R178): one digit per step, `p2`, `delta` and `dist` rescaled by 10. `room` is how many digits
the buffer still takes, `m` how many fractional digits stand in it; a digit due with no room is `DIGITS_OVERFLOW`. -/
def fractionalPhase (one : Nat) : (room p2 delta dist m : Nat) → (buf : List Nat) → Except Cause Emitted
  | 0, _, _, _, _, _ => .error .digitsOverflow
  | room + 1, p2, delta, dist, m, buf =>
    let d := 10 * p2 / one
    let r := 10 * p2 % one
    if r ≤ 10 * delta then .ok ⟨d :: buf, -(m + 1 : Nat), r, one, 10 * delta, 10 * dist⟩
    else fractionalPhase one room r (10 * delta) (10 * dist) (m + 1) (d :: buf)

/-- Both phases (R176 to R178). -/
def emit (k : Working) : Except Cause Emitted :=
  let (kk, pow10) := largestPow10 k.p1
  match integralPhase k kk k.p1 pow10 [] with
  | .inl r => .ok r
  | .inr buf => fractionalPhase k.one (dcap - buf.length) k.p2 k.delta k.dist 0 buf

/-! ## The refinement (R179) -/

/-- The loop condition of R179: the digits lie above `w`, a decrement stays inside, and it brings them strictly closer. -/
def closer (delta dist ten rest : Nat) : Bool :=
  rest < dist && delta - rest ≥ ten && (rest + ten < dist || dist - rest > rest + ten - dist)

/-- The refinement loop on the last digit (R179): decremented while `closer` holds; `ROUND_UNDERFLOW` if it is 0 then. -/
def refineDigit (delta dist ten : Nat) : (d rest : Nat) → Except Cause Nat
  | 0, rest => if closer delta dist ten rest then .error .roundUnderflow else .ok 0
  | d + 1, rest => if closer delta dist ten rest then refineDigit delta dist ten d (rest + ten) else .ok (d + 1)

/-- The refinement, where it is on (R26, R179), applied to the digits of a phase, last one first. -/
def refineDigits (on : Bool) (r : Emitted) : Except Cause (List Nat) :=
  if on then
    match r.buf with
    | [] => .ok []
    | d :: more => do
      let d' ← refineDigit r.delta r.dist r.ten d r.rest
      pure (d' :: more)
  else .ok r.buf

/-! ## The command -/

/-- A DIGITS result: the digits, most significant first, and the decimal exponent (R180). -/
structure Decimal where
  digits : List Nat
  dexp : Int
  deriving DecidableEq, Repr

/-- The digit generator (R170): the digits of the value `v` from its boundaries `mm` and `mp`. -/
def digitGen (on : Bool) (v mm mp : Fp) : Except Cause Decimal := do
  let (k, cdexp) ← scale v mm mp
  let r ← emit k
  let buf ← refineDigits on r
  pure ⟨buf.reverse, -cdexp + r.gain⟩

/-- `DBUF` for some digits (R33, R180): byte `i` is `0x30 + d` for the digit `i`, and 0x00 past the last. -/
def digitBytes (ds : List Nat) : Vector Byte 32 :=
  ⟨⟨(List.range 32).map fun i => match ds[i]? with
    | some d => BitVec.ofNat 8 (0x30 + d)
    | none => 0⟩, by simp⟩

/-- The writes of DIGITS (R180). -/
def State.writeDigits (s : State) (r : Decimal) : State :=
  { s with dbuf := digitBytes r.digits, dlen := BitVec.ofNat 32 r.digits.length, dexp := BitVec.ofInt 32 r.dexp }

/-- `DIGITS Fv, Fm, Fp` (R170): the three sources are read in this order; no `Fp` register and not `CPK` is written. -/
def execDigits (v m p : FReg) (s : State) : Host.Outcome State Fault Refusal :=
  finish s do
    let x ← s.readF v
    let mm ← s.readF m
    let mp ← s.readF p
    let r ← digitGen s.prefine x mm mp
    pure (s.writeDigits r)

end Sys2Proof.Machine
end

