-- ==== Sys2Proof/Machine/Dispatch.lean ====
section
/-! DEFINITION. The meaning of each command: one arm per constructor of Instr, each a direct call. -/

namespace Sys2Proof.Machine

/-- The rule of a decoded command, run on the state: it ends in `commit` or in a fault entry (R200). -/
def exec (i : Instr) (s : State) : Host.Outcome State Fault Refusal :=
  match i with
  | .nop => Sys2Proof.Machine.execNop s
  | .ldf d => Sys2Proof.Machine.execLdf d s
  | .fsub d a b => Sys2Proof.Machine.execFsub d a b s
  | .fmul d a b => Sys2Proof.Machine.execFmul d a b s
  | .fnorm d a => Sys2Proof.Machine.execFnorm d a s
  | .fnormto d a b => Sys2Proof.Machine.execFnormto d a b s
  | .cpow d a => Sys2Proof.Machine.execCpow d a s
  | .fclassD => Sys2Proof.Machine.execFclassD s
  | .fclassS => Sys2Proof.Machine.execFclassS s
  | .boundD v m p => Sys2Proof.Machine.execBoundD v m p s
  | .boundS v m p => Sys2Proof.Machine.execBoundS v m p s
  | .digits v m p => Sys2Proof.Machine.execDigits v m p s

end Sys2Proof.Machine
end

