-- ==== Sys2Proof/Decode.lean ====
section
/-! DEFINITION. Decoding and encoding of the 32-bit command word (30_encoding.md): the fields (R81, R82), the opcode map
as a list of rows (R83), the total decoder that rejects by name (R84 to R86), and the encoder. -/

namespace Sys2Proof

/-! ## The fields of a command word (R81) -/

/-- `OPC`, bits 7:0. -/
def opcField (w : Word) : BitVec 8 := w.extractLsb' 0 8
/-- `RD`, bits 10:8, a register number (R82). -/
def rdField (w : Word) : FReg := (w.extractLsb' 8 3).toFin
/-- `RA`, bits 14:12. -/
def raField (w : Word) : FReg := (w.extractLsb' 12 3).toFin
/-- `RB`, bits 18:16. -/
def rbField (w : Word) : FReg := (w.extractLsb' 16 3).toFin

/-! ## The opcode map (R83) -/

/-- One row of the opcode map: the words `w` with `w AND mask = pattern`, and the command such a word is. -/
structure OpRow where
  mask : Word
  pattern : Word
  command : Word → Instr

/-- A word is a word of the row: "(w AND mask) = match" (R83). -/
def OpRow.fits (r : OpRow) (w : Word) : Bool := w &&& r.mask == r.pattern

/-- The table of R83, in its order. -/
def opRows : List OpRow := [
  ⟨0xFFFFFFFF, 0x00000000, fun _ => .nop⟩,
  ⟨0xFFFFF8FF, 0x00000001, fun w => .ldf (rdField w)⟩,
  ⟨0xFFF888FF, 0x00000002, fun w => .fsub (rdField w) (raField w) (rbField w)⟩,
  ⟨0xFFF888FF, 0x00000003, fun w => .fmul (rdField w) (raField w) (rbField w)⟩,
  ⟨0xFFFF88FF, 0x00000004, fun w => .fnorm (rdField w) (raField w)⟩,
  ⟨0xFFF888FF, 0x00000005, fun w => .fnormto (rdField w) (raField w) (rbField w)⟩,
  ⟨0xFFFF88FF, 0x00000006, fun w => .cpow (rdField w) (raField w)⟩,
  ⟨0xFFFFFFFF, 0x00000007, fun _ => .fclassD⟩,
  ⟨0xFFFFFFFF, 0x01000007, fun _ => .fclassS⟩,
  ⟨0xFFF888FF, 0x00000008, fun w => .boundD (rdField w) (raField w) (rbField w)⟩,
  ⟨0xFFF888FF, 0x01000008, fun w => .boundS (rdField w) (raField w) (rbField w)⟩,
  ⟨0xFFF888FF, 0x00000009, fun w => .digits (rdField w) (raField w) (rbField w)⟩]

/-- Why a word is illegal, in the order a decoder checks (R84, R86). The unit reports all three as `ILLEGAL`. -/
inductive DecodeError
  /-- `OPC` is 0x0A to 0xFF (R84.1). -/
  | reservedOpcode
  /-- a bit the row's mask covers differs from the row's match (R84.2). -/
  | maskMismatch
  /-- BOUND with two equal register fields (R84.3, R85). -/
  | equalRegisters
  deriving DecidableEq, Repr

/-- The decoder, total on 32-bit words: "every 32-bit word is either exactly one row of rule R83 or illegal" (R86). -/
def decode (w : Word) : Except DecodeError Instr :=
  match opRows.find? (·.fits w) with
  | some r => if (r.command w).wf then .ok (r.command w) else .error .equalRegisters
  | none => if opcField w ≤ 0x09 then .error .maskMismatch else .error .reservedOpcode

/-! ## The encoder -/

/-- The command word with the given fields, every must-be-zero bit 0: `0000000p 00000bbb 0aaa0ddd oooooooo` (R81). -/
def commandWord (opc : BitVec 8) (rd ra rb : FReg) (p : BitVec 1) : Word :=
  0#7 ++ p ++ 0#5 ++ BitVec.ofFin (w := 3) rb ++ 0#1 ++ BitVec.ofFin (w := 3) ra ++ 0#1 ++ BitVec.ofFin (w := 3) rd ++ opc

/-- The word of a command (R81, R83): an unused register field and an unused `P` are 0. -/
def encode : Instr → Word
  | .nop => commandWord 0x00 0 0 0 0
  | .ldf d => commandWord 0x01 d 0 0 0
  | .fsub d a b => commandWord 0x02 d a b 0
  | .fmul d a b => commandWord 0x03 d a b 0
  | .fnorm d a => commandWord 0x04 d a 0 0
  | .fnormto d a b => commandWord 0x05 d a b 0
  | .cpow d a => commandWord 0x06 d a 0 0
  | .fclassD => commandWord 0x07 0 0 0 0
  | .fclassS => commandWord 0x07 0 0 0 1
  | .boundD v m p => commandWord 0x08 v m p 0
  | .boundS v m p => commandWord 0x08 v m p 1
  | .digits v m p => commandWord 0x09 v m p 0

/-! ## The table's numbering of bits -/

/-- The instruction the decoder reads from an instruction of `nbits` bits with the value `w`, bits above `nbits` 0. A
command is one 32-bit word (R80), so the table's bit numbers are the word's own. -/
def decodeTableWord (nbits w : Nat) : Option Instr :=
  (decode (BitVec.ofNat 32 (w % 2 ^ nbits))).toOption

end Sys2Proof
end

