-- ==== Sys2Proof/Machine/Window.lean ====
section
/-! DEFINITION. The host register window (20_memory.md): the map of offsets (R52), what a read returns (R52 to R57, R241)
and what a write does (R58, R59). -/

namespace Sys2Proof.Machine

/-! ## The map (R52) -/

/-- The words of the window that R52 lists. -/
inductive WinReg
  | ctrl | status | fcmd | cmd | argSigLo | argSigHi | argExp | cls | csigLo | csigHi | cpk | dlen | dexp
  | fSigLo (i : FReg) | fSigHi (i : FReg) | fExp (i : FReg) | fValid (i : FReg)
  | dbuf (j : Fin 8)
  | romSigLo (n : Fin 79) | romSigHi (n : Fin 79) | romBexp (n : Fin 79)
  | romDexp (n : Fin 79)
  deriving DecidableEq, Repr

/-- The word at an aligned byte offset (R52); `none` where the map lists nothing (R53). -/
def windowMap (off : Offset) : Option WinReg :=
  let a := off.toNat
  if a = 0x000 then some .ctrl
  else if a = 0x004 then some .status
  else if a = 0x008 then some .fcmd
  else if a = 0x00C then some .cmd
  else if a = 0x010 then some .argSigLo
  else if a = 0x014 then some .argSigHi
  else if a = 0x018 then some .argExp
  else if a = 0x020 then some .cls
  else if a = 0x024 then some .csigLo
  else if a = 0x028 then some .csigHi
  else if a = 0x030 then some .cpk
  else if a = 0x040 then some .dlen
  else if a = 0x044 then some .dexp
  else if 0x100 ≤ a ∧ a < 0x180 then
    let i : FReg := Fin.ofNat 8 ((a - 0x100) / 16)
    if a % 16 = 0 then some (.fSigLo i)
    else if a % 16 = 4 then some (.fSigHi i)
    else if a % 16 = 8 then some (.fExp i)
    else if a % 16 = 12 then some (.fValid i)
    else none
  else if 0x200 ≤ a ∧ a < 0x220 then
    if a % 4 = 0 then some (.dbuf (Fin.ofNat 8 ((a - 0x200) / 4))) else none
  else if 0x400 ≤ a ∧ a < 0x8F0 then
    let n : Fin 79 := Fin.ofNat 79 ((a - 0x400) / 16)
    if a % 16 = 0 then some (.romSigLo n)
    else if a % 16 = 4 then some (.romSigHi n)
    else if a % 16 = 8 then some (.romBexp n)
    else if a % 16 = 12 then some (.romDexp n)
    else none
  else none

/-- The byte offset of a listed word (R52). -/
def WinReg.offset : WinReg → Offset
  | .ctrl => 0x000
  | .status => 0x004
  | .fcmd => 0x008
  | .cmd => 0x00C
  | .argSigLo => 0x010
  | .argSigHi => 0x014
  | .argExp => 0x018
  | .cls => 0x020
  | .csigLo => 0x024
  | .csigHi => 0x028
  | .cpk => 0x030
  | .dlen => 0x040
  | .dexp => 0x044
  | .fSigLo i => BitVec.ofNat 12 (0x100 + 16 * i)
  | .fSigHi i => BitVec.ofNat 12 (0x104 + 16 * i)
  | .fExp i => BitVec.ofNat 12 (0x108 + 16 * i)
  | .fValid i => BitVec.ofNat 12 (0x10C + 16 * i)
  | .dbuf j => BitVec.ofNat 12 (0x200 + 4 * j)
  | .romSigLo n => BitVec.ofNat 12 (0x400 + 16 * n)
  | .romSigHi n => BitVec.ofNat 12 (0x404 + 16 * n)
  | .romBexp n => BitVec.ofNat 12 (0x408 + 16 * n)
  | .romDexp n => BitVec.ofNat 12 (0x40C + 16 * n)

/-! ## Reads -/

/-- The `Fp` register as the host sees it: its bits while valid, 0 while not (R56). -/
def State.shownF (s : State) (i : FReg) : Fp := if s.f[i].valid then ⟨s.f[i].sig, s.f[i].exp⟩ else ⟨0, 0⟩

/-- Word `j` of the digit buffer, `{DBUF[4j+3], DBUF[4j+2], DBUF[4j+1], DBUF[4j]}` (R52, R55). -/
def State.dbufWord (s : State) (j : Fin 8) : Word :=
  s.dbuf[4 * j.val + 3] ++ s.dbuf[4 * j.val + 2] ++ s.dbuf[4 * j.val + 1] ++ s.dbuf[4 * j.val]

/-- ROM entry `n`; the list has an entry for every index (R130). -/
def romEntry (n : Fin 79) : RomEntry := rom[n.val]?.getD ⟨0, 0, 0⟩

/-- The contents of a listed word (R52, R53 for `CMD`, R55 to R57). -/
def State.readReg (s : State) : WinReg → Word
  | .ctrl => s.ctrlWord
  | .status => s.statusWord
  | .fcmd => s.fcmd
  | .cmd => 0
  | .argSigLo => loWord s.argSig
  | .argSigHi => hiWord s.argSig
  | .argExp => s.argExp
  | .cls => s.cls
  | .csigLo => loWord s.csig
  | .csigHi => hiWord s.csig
  | .cpk => s.cpk
  | .dlen => s.dlen
  | .dexp => s.dexp
  | .fSigLo i => loWord (s.shownF i).sig
  | .fSigHi i => hiWord (s.shownF i).sig
  | .fExp i => (s.shownF i).exp
  | .fValid i => 0#31 ++ flag s.f[i].valid
  | .dbuf j => s.dbufWord j
  | .romSigLo n => loWord (romEntry n).sig
  | .romSigHi n => hiWord (romEntry n).sig
  | .romBexp n => BitVec.ofInt 32 (romEntry n).bexp
  | .romDexp n => BitVec.ofInt 32 (romEntry n).dexp

/-- The word at an aligned offset: its contents, or 0 where the map lists nothing (R53). -/
def State.readWord (s : State) (off : Offset) : Word :=
  match windowMap off with
  | some r => s.readReg r
  | none => 0

/-! ## Reads while a command is in flight (R64, R241) -/

/-- The `Fp` destinations of a command (R22). -/
def fDests : Instr → List FReg
  | .nop => []
  | .ldf d => [d]
  | .fsub d _ _ => [d]
  | .fmul d _ _ => [d]
  | .fnorm d _ => [d]
  | .fnormto d _ _ => [d]
  | .cpow d _ => [d]
  | .fclassD => []
  | .fclassS => []
  | .boundD v m p => [v, m, p]
  | .boundS v m p => [v, m, p]
  | .digits _ _ _ => []

/-- FCLASS writes `CLASS` and `CSIG` (R153). -/
def writesClass : Instr → Bool
  | .fclassD => true
  | .fclassS => true
  | .nop | .ldf _ | .fsub _ _ _ | .fmul _ _ _ | .fnorm _ _ | .fnormto _ _ _ | .cpow _ _ | .boundD _ _ _
  | .boundS _ _ _ | .digits _ _ _ => false

/-- CPOW writes `CPK` (R134). -/
def writesCpk : Instr → Bool
  | .cpow _ _ => true
  | .nop | .ldf _ | .fsub _ _ _ | .fmul _ _ _ | .fnorm _ _ | .fnormto _ _ _ | .fclassD | .fclassS | .boundD _ _ _
  | .boundS _ _ _ | .digits _ _ _ => false

/-- DIGITS writes `DBUF`, `DLEN` and `DEXP` (R170). -/
def writesDigits : Instr → Bool
  | .digits _ _ _ => true
  | .nop | .ldf _ | .fsub _ _ _ | .fmul _ _ _ | .fnorm _ _ | .fnormto _ _ _ | .cpow _ _ | .fclassD | .fclassS
  | .boundD _ _ _ | .boundS _ _ _ => false

/-- The window words a command may write: "its `Fp` destinations and their `VALID` words, `CLASS`, `CSIG`, `CPK`, `DBUF`,
`DLEN`, `DEXP`" (R64, R241). -/
def mayWrite (i : Instr) : WinReg → Bool
  | .fSigLo j | .fSigHi j | .fExp j | .fValid j => j ∈ fDests i
  | .cls | .csigLo | .csigHi => writesClass i
  | .cpk => writesCpk i
  | .dbuf _ | .dlen | .dexp => writesDigits i
  | .ctrl | .status | .fcmd | .cmd | .argSigLo | .argSigHi | .argExp
  | .romSigLo _ | .romSigHi _ | .romBexp _ | .romDexp _ => false

/-- The read of a word races the command in flight (R241; log entry 15): a command is in flight and may write it. An
illegal word writes nothing (R84). -/
def State.racing (s : State) (r : WinReg) : Bool :=
  s.pend && match decode s.pcmd with
    | .ok i => mayWrite i r
    | .error _ => false

/-- An offset at which a read races the command in flight. -/
def State.racingAt (s : State) (off : Offset) : Bool :=
  match windowMap off with
  | some r => s.racing r
  | none => false

/-- `MemRead(off, 4)` by the host: exact, or a free draw where the read races the command in flight (R63, R64, R241). -/
def State.hostRead (s : State) (off : Offset) : State :=
  if s.racingAt off then { s with reads := Config.freeRead s.draws :: s.reads, draws := s.draws + 1 }
  else { s with reads := s.readWord off :: s.reads }

/-! ## Writes (R58) -/

/-- A write to `CTRL`: bit 31 (`SRST`) resets the unit, the other bits then ignored; else `REFINE` takes bit 0 (R25, R58). -/
def State.writeCtrl (s : State) (v : Word) : State :=
  if v.getLsbD 31 then s.resetUnit else { s with refine := v.getLsbD 0 }

/-- `MemWrite(off, 4, v)` by the host: "The writes that do something" (R58); every other write is ignored (R53). -/
def State.hostWrite (s : State) (off : Offset) (v : Word) : State :=
  match windowMap off with
  | some .ctrl => s.writeCtrl v
  | some .cmd => s.issue v
  | some .argSigLo => { s with argSig := setLo s.argSig v }
  | some .argSigHi => { s with argSig := setHi s.argSig v }
  | some .argExp => { s with argExp := v }
  | _ => s

/-- The window takes an access that is 4 bytes wide at an offset that is a multiple of 4 (R51, R54). -/
def accessTaken (off : Offset) (bytes : Nat) : Bool := bytes = 4 && off.toNat % 4 = 0

end Sys2Proof.Machine
end

