-- ==== Sys2Proof/Machine/Agents.lean ====
section
/-! DEFINITION. The agents' steps: `Complete` of the unit (R200), the next operation of the host (R88), the platform's
reset (R230), and whose turn it is (R63, R208, R246; log entry 1). -/

namespace Sys2Proof.Machine

/-- `Complete` (R200): the latched word is decoded; an illegal word raises `ILLEGAL`, else the row's rule runs. -/
def complete (s : State) : Host.Outcome State Fault Refusal :=
  match decode s.pcmd with
  | .ok i => exec i s
  | .error _ => .next (s.takeFault .illegal s.pcmd)

/-- The unit's turn: `Complete` where it is enabled (`PEND` = 1, R200), else nothing. -/
def unitTurn (s : State) : Host.Outcome State Fault Refusal := if s.pend then complete s else .next s

/-- The host's turn: its next operation takes effect (R63). An access the window does not take has no step (R54); `WAIT`
reads `STATUS` and goes on once `BUSY` is 0 (R88); a host with nothing left to do leaves the state as it is. -/
def hostTurn (s : State) : Host.Outcome State Fault Refusal :=
  match s.prog with
  | [] => .next s
  | .read off bytes :: more =>
    if accessTaken off bytes then .next ((s.withProg more).hostRead off) else .fault .hostAccessNotTaken
  | .write off bytes v :: more =>
    if accessTaken off bytes then .next ((s.withProg more).hostWrite off v) else .fault .hostAccessNotTaken
  | .wait :: more => if s.statusWord.getLsbD 0 then .next s else .next (s.withProg more)

/-- One turn of an agent. -/
def agentTurn : Turn → State → Host.Outcome State Fault Refusal
  | .unit, s => unitTurn s
  | .host, s => hostTurn s
  | .platformReset, s => .next s.resetUnit

/-- The agent whose turn it is: the head of `sched`; with none left the unit while a command is in flight, so that
completion is fair (R246), and the host otherwise (log entry 1). -/
def State.turn (s : State) : Turn :=
  match s.sched with
  | t :: _ => t
  | [] => if s.pend then .unit else .host

/-- The state in which the agent moves: its entry of `sched` is used up. -/
def State.nextTurn (s : State) : State := { s with sched := s.sched.tail }

/-- One step of the whole machine: the agent whose turn it is moves. -/
def machineStep (s : State) : Host.Outcome State Fault Refusal := agentTurn s.turn s.nextTurn

/-- The state with the command word `w` in flight and the unit to move next: the host's `Issue(w)` of an idle unit (R59). -/
def State.inFlight (s : State) (w : Word) : State := { s.latch w with sched := .unit :: s.sched }

end Sys2Proof.Machine
end

