-- ==== Sys2Proof/Machine/Step.lean ====
section
/-! DEFINITION. The step of the machine, and how a command word is placed to be run by the very next step. -/

namespace Sys2Proof.Machine

/-- One step: the agent whose turn it is moves (Machine/Agents.lean). -/
def step (s : State) : Host.Outcome State Fault Refusal := machineStep s

/-- The state with the command whose bits are `w` where the unit takes its next command from, the issue latch (R24, R59),
and the unit to move next (log entry 10). DNFP fetches nothing (R66, R232): a host's `CMD` write puts a word there. -/
def State.withFetchWord (s : State) (nbits w : Nat) : State := s.inFlight (BitVec.ofNat 32 (w % 2 ^ nbits))

end Sys2Proof.Machine
end

