-- ==== Sys2Proof/Machine/Assembler.lean ====
section
/-! DEFINITION. The assembler syntax of a command (R87), on lists of characters: a command as text, and text as a command.
"Mnemonics and register names are case-insensitive." -/

namespace Sys2Proof.Machine

/-! ## A command as text -/

/-- The mnemonic, with the precision as its suffix (R87). -/
def mnemonic : Instr → List Char
  | .nop => ['N', 'O', 'P']
  | .ldf _ => ['L', 'D', 'F']
  | .fsub _ _ _ => ['F', 'S', 'U', 'B']
  | .fmul _ _ _ => ['F', 'M', 'U', 'L']
  | .fnorm _ _ => ['F', 'N', 'O', 'R', 'M']
  | .fnormto _ _ _ => ['F', 'N', 'O', 'R', 'M', 'T', 'O']
  | .cpow _ _ => ['C', 'P', 'O', 'W']
  | .fclassD => ['F', 'C', 'L', 'A', 'S', 'S', '.', 'D']
  | .fclassS => ['F', 'C', 'L', 'A', 'S', 'S', '.', 'S']
  | .boundD _ _ _ => ['B', 'O', 'U', 'N', 'D', '.', 'D']
  | .boundS _ _ _ => ['B', 'O', 'U', 'N', 'D', '.', 'S']
  | .digits _ _ _ => ['D', 'I', 'G', 'I', 'T', 'S']

/-- The register operands in field order RD, RA, RB (R87). -/
def operands : Instr → List FReg
  | .nop => []
  | .ldf d => [d]
  | .fsub d a b => [d, a, b]
  | .fmul d a b => [d, a, b]
  | .fnorm d a => [d, a]
  | .fnormto d a b => [d, a, b]
  | .cpow d a => [d, a]
  | .fclassD => []
  | .fclassS => []
  | .boundD v m p => [v, m, p]
  | .boundS v m p => [v, m, p]
  | .digits v m p => [v, m, p]

/-- A register as text, `F0` to `F7`. -/
def regText (r : FReg) : List Char := ['F', Char.ofNat (0x30 + r)]

/-- Operands as text, separated by commas. -/
def operandText : List FReg → List Char
  | [] => []
  | [r] => regText r
  | r :: more => regText r ++ [',', ' '] ++ operandText more

/-- A command as text: its mnemonic followed by its operands (R87). -/
def asmText (i : Instr) : List Char :=
  match operands i with
  | [] => mnemonic i
  | rs => mnemonic i ++ [' '] ++ operandText rs

/-! ## Text as a command -/

/-- The text at the first character `sep`: what stands before it and what after it, where there is one. -/
def cutAt (sep : Char) : List Char → List Char × Option (List Char)
  | [] => ([], none)
  | c :: more =>
    if c = sep then ([], some more)
    else
      let (front, back) := cutAt sep more
      (c :: front, back)

/-- A register name, in either case. -/
def parseReg : List Char → Option FReg
  | [f, n] => if f.toUpper = 'F' ∧ 0x30 ≤ n.toNat ∧ n.toNat ≤ 0x37 then some (Fin.ofNat 8 (n.toNat - 0x30)) else none
  | _ => none

/-- Register operands separated by commas, spaces ignored (log entry 19); at most `fuel` of them. -/
def parseOperands : (fuel : Nat) → List Char → Option (List FReg)
  | 0, _ => none
  | fuel + 1, text =>
    match cutAt ',' text with
    | (one, none) => (parseReg (one.filter (· ≠ ' '))).map ([·])
    | (one, some more) => do
      let r ← parseReg (one.filter (· ≠ ' '))
      let rs ← parseOperands fuel more
      pure (r :: rs)

/-- The command with a mnemonic (in capitals) and register operands; every command takes exactly its own (R87). -/
def assemble (m : List Char) (rs : List FReg) : Option Instr :=
  let commands : List Instr := match rs with
    | [] => [.nop, .fclassD, .fclassS]
    | [d] => [.ldf d]
    | [d, a] => [.fnorm d a, .cpow d a]
    | [d, a, b] => [.fsub d a b, .fmul d a b, .fnormto d a b, .boundD d a b, .boundS d a b, .digits d a b]
    | _ => []
  commands.find? (mnemonic · = m)

/-- The command a line of text is, if it is one: leading spaces, a mnemonic, and its operands after a space. -/
def parseAsm (text : List Char) : Option Instr :=
  match cutAt ' ' (text.dropWhile (· = ' ')) with
  | (m, none) => assemble (m.map Char.toUpper) []
  | (m, some more) =>
    if more.all (· = ' ') then assemble (m.map Char.toUpper) []
    else do
      let rs ← parseOperands 3 more
      assemble (m.map Char.toUpper) rs

end Sys2Proof.Machine
end

