-- ==== Sys2Proof/Machine/HostProgram.lean ====
section
/-! DEFINITION. The host program notation of R88 as lists of host operations: the `W`, `R`, `C` and `WAIT` lines and the
pseudo-operations with their expansions. -/

namespace Sys2Proof.Machine

/-- `W off, v`: `MemWrite(off, 4, v)`. -/
def lineW (off : Offset) (v : Word) : HostOp := .write off 4 v
/-- `R off`: `MemRead(off, 4)`. -/
def lineR (off : Offset) : HostOp := .read off 4
/-- `C <command>`: `MemWrite(0x00C, 4, enc)`, where `enc` is the command's word. -/
def lineC (i : Instr) : HostOp := .write 0x00C 4 (encode i)

/-- `SETARG sig, exp`. -/
def setArg (sig : DWord) (exp : Word) : List HostOp :=
  [lineW 0x010 (loWord sig), lineW 0x014 (hiWord sig), lineW 0x018 exp]
/-- `SETRAW bits`. -/
def setRaw (bits : DWord) : List HostOp := [lineW 0x010 (loWord bits), lineW 0x014 (hiWord bits)]
/-- `LDFI Fd, sig, exp`. -/
def ldfi (d : FReg) (sig : DWord) (exp : Word) : List HostOp := setArg sig exp ++ [lineC (.ldf d), .wait]
/-- `CONV.D bits`. -/
def convD (bits : DWord) : List HostOp :=
  setRaw bits ++ [lineC (.boundD 0 1 2), .wait, lineC (.digits 0 1 2), .wait]
/-- `CONV.S bits`, with `zext_64(bits)`. -/
def convS (bits : Word) : List HostOp :=
  setRaw (bits.setWidth 64) ++ [lineC (.boundS 0 1 2), .wait, lineC (.digits 0 1 2), .wait]

end Sys2Proof.Machine
end

