-- ==== Sys2Proof/Safety.lean ====
section
/-! DEFINITION. The terms in which claims are stated: the rational an `Fp` pair stands for (R9), what it is for a register
to hold a pair and for a command to fault, the fault causes of each command (R201), the illegal words (R84), and the
invariants that count as a safe state. -/

namespace Sys2Proof.Machine

/-! ## Values and outcomes -/

/-- `val(x) = x.sig × 2^x.exp` (R9). -/
def Fp.val (x : Fp) : ℚ := (x.sig.toNat : ℚ) * 2 ^ x.exp.toInt

/-- The integer that decimal digits spell, most significant first (R35). -/
def decimalValue (ds : List Nat) : Nat := ds.foldl (fun n d => 10 * n + d) 0

/-- Register `i` is valid and holds the pair `x` (R21). -/
def State.Holds (s : State) (i : FReg) (x : Fp) : Prop := s.f[i] = ⟨x.sig, x.exp, true⟩

/-- The state after fault entry with cause `c` in a command whose word is `PCMD`, written out from R203. -/
def State.faulted (s : State) (c : Cause) : State :=
  { s with fault := true, cause := c, fcmd := s.pcmd, pend := false }

/-- The command `i`, run in `s`, faults with cause `c`: it takes the fault entry of R203 and changes nothing else. -/
def Faults (i : Instr) (s : State) (c : Cause) : Prop := exec i s = .next (s.faulted c)

/-- The outcome with its state mapped. -/
def mapNext (g : State → State) : Host.Outcome State Fault Refusal → Host.Outcome State Fault Refusal
  | .next s => .next (g s)
  | .fault r => .fault r
  | .refused r => .refused r

/-! ## The tables of the rules -/

/-- The `Fp` registers a command reads, in the order its rule reads them (R206). -/
def sources : Instr → List FReg
  | .nop => []
  | .ldf _ => []
  | .fsub _ a b => [a, b]
  | .fmul _ a b => [a, b]
  | .fnorm _ a => [a]
  | .fnormto _ a b => [a, b]
  | .cpow _ a => [a]
  | .fclassD => []
  | .fclassS => []
  | .boundD _ _ _ => []
  | .boundS _ _ _ => []
  | .digits v m p => [v, m, p]

/-- The causes a command can raise (R201). `ROUND_UNDERFLOW` is "never raised" and stands in no list; `ILLEGAL` is here
only for BOUND with two equal register fields (R85). -/
def raisable : Instr → List Cause
  | .nop => []
  | .ldf _ => []
  | .fsub _ _ _ => [.uninit, .subPrecond]
  | .fmul _ _ _ => [.uninit, .expRange]
  | .fnorm _ _ => [.uninit, .normZero, .expRange]
  | .fnormto _ _ _ => [.uninit, .normtoPrecond]
  | .cpow _ _ => [.uninit, .cpowRange]
  | .fclassD => []
  | .fclassS => []
  | .boundD v m p => if pairwiseDistinct v m p then [.boundClass] else [.illegal]
  | .boundS v m p => if pairwiseDistinct v m p then [.boundClass] else [.illegal]
  | .digits _ _ _ => [.uninit, .digitsPrecond, .cpowRange, .digitsOverflow]

/-- The illegal words, in R84's own words: a reserved opcode; a must-be-zero bit 1, an unused register field not 0 or `P`
set on a command other than FCLASS and BOUND; a BOUND word with two equal register fields. -/
def IllegalWord (w : Word) : Prop :=
  let opc := w.toNat % 256
  0x0A ≤ opc ∨
  (opc ≤ 0x09 ∧
    (w.getLsbD 11 = true ∨ w.getLsbD 15 = true ∨ w.extractLsb' 19 5 ≠ 0 ∨ w.extractLsb' 25 7 ≠ 0 ∨
      (opc ∈ [0x00, 0x07] ∧ rdField w ≠ 0) ∨
      (opc ∈ [0x00, 0x01, 0x07] ∧ raField w ≠ 0) ∨
      (opc ∈ [0x00, 0x01, 0x04, 0x06, 0x07] ∧ rbField w ≠ 0) ∨
      (opc ≠ 0x07 ∧ opc ≠ 0x08 ∧ w.getLsbD 24 = true))) ∨
  (opc = 0x08 ∧ (rdField w = raField w ∨ rdField w = rbField w ∨ raField w = rbField w))

/-! ## Invariants -/

/-- The status invariant (R27, R29, R201): `BUSY` and `FAULT` are never both 1; `CAUSE` and `FCMD` are 0 while `FAULT`
is 0; a fault has a cause, and it is never `ROUND_UNDERFLOW`. -/
def State.StatusOk (s : State) : Prop :=
  ¬(s.pend = true ∧ s.fault = true) ∧ (s.fault = false → s.cause = .none ∧ s.fcmd = 0) ∧
  (s.fault = true → s.cause ≠ .none) ∧ s.cause ≠ .roundUnderflow

/-- The digit-buffer invariant (R33, R34, R182, R183, R185): `DLEN` is at most 32; the bytes below it are ASCII digits,
the first and the last of them not `0`; the bytes from it on are 0x00; `DEXP` is in [-355, 309]. -/
def State.DigitsOk (s : State) : Prop :=
  s.dlen.toNat ≤ 32 ∧
  (∀ i : Fin 32, i.val < s.dlen.toNat → 0x30 ≤ s.dbuf[i].toNat ∧ s.dbuf[i].toNat ≤ 0x39) ∧
  (∀ i : Fin 32, s.dlen.toNat ≤ i.val → s.dbuf[i] = 0) ∧
  (∀ i : Fin 32, i.val < s.dlen.toNat → (i.val = 0 ∨ i.val + 1 = s.dlen.toNat) → s.dbuf[i] ≠ 0x30) ∧
  -355 ≤ s.dexp.toInt ∧ s.dexp.toInt ≤ 309

/-- The invariant of the other result registers: the reserved bits 31:27, 15:9 and 7:5 of `CLASS` are 0 (R30); `CSIG`
holds at most 52 bits (R31); `CPK` is its reset value or the decimal exponent of a ROM entry (R32). -/
def State.ClassOk (s : State) : Prop :=
  s.cls &&& 0xF800FEE0 = 0 ∧ s.csig.toNat < 2 ^ 52 ∧ (s.cpk = 0 ∨ ∃ r ∈ rom, s.cpk = BitVec.ofInt 32 r.dexp)

/-- A safe state: all the invariants. -/
def State.Inv (s : State) : Prop := s.StatusOk ∧ s.DigitsOk ∧ s.ClassOk

/-! ## What no rule reads -/

/-- The state with everything blanked that R37 gives no value: the contents of every invalid `Fp` register, and the copies
of the issue latch while nothing is in flight (log entries 5 and 6). -/
def State.blanked (s : State) : State :=
  { s with
    f := s.f.map fun r => if r.valid then r else ⟨0, 0, false⟩
    pcmd := if s.pend then s.pcmd else 0
    pargSig := if s.pend then s.pargSig else 0
    pargExp := if s.pend then s.pargExp else 0
    prefine := s.pend && s.prefine }

end Sys2Proof.Machine
end

