-- ==== Sys2Proof/Certificates/Slice0/Obligations.lean ====
section
/-! DEFINITION. The statements for the provers. Each docstring names the rule of spec/ it formalises; a clause that rests
on a choice of the model names the log entry. Where a statement writes a next state out as `{ s with … }`, that IS its
frame: every field not named there is unchanged. -/

open Sys2Proof Sys2Proof.Machine

/-! ## Encoding (30_encoding.md) -/

/-- Decoding the word of a command gives the command back, with every register at every value; the word of a BOUND with
two equal register fields is rejected by that name (R81 to R83, R85). -/
def Obligations.DecodeInvertsEncode : Prop :=
  ∀ i : Instr, decode (encode i) = if i.wf then .ok i else .error .equalRegisters

/-- Encoding a decoded command gives the word back: no bit of a legal word is dropped, and what the decoder gives is well
formed (R81 to R86). -/
def Obligations.EncodeInvertsDecode : Prop :=
  ∀ (w : Word) (i : Instr), decode w = .ok i → encode i = w ∧ i.wf = true

/-- R84: the decoder rejects exactly the words that R84's three cases list, and an illegal word in flight, when the unit
executes it, raises `ILLEGAL` and writes no register. -/
def Obligations.IllegalWordsAreRejectedAndFault : Prop :=
  (∀ w : Word, (∃ e, decode w = .error e) ↔ IllegalWord w) ∧
  (∀ s : State, s.pend = true → IllegalWord s.pcmd → unitTurn s = .next (s.faulted .illegal))

/-- R83, R86: no word fits two rows of the opcode map, and a word is the command of a row exactly when it fits the row
and, for BOUND, its register fields are distinct. -/
def Obligations.OpcodeRowsDoNotOverlap : Prop :=
  opRows.Pairwise (fun r q => ∀ w : Word, ¬(r.fits w = true ∧ q.fits w = true)) ∧
  (∀ r ∈ opRows, ∀ w : Word, r.fits w = true →
    decode w = if (r.command w).wf then .ok (r.command w) else .error .equalRegisters)

/-- R89: the encoding examples. -/
def Obligations.EncodingExamples : Prop :=
  encode (.fmul 3 1 2) = 0x00021303 ∧ decode 0x00021303 = .ok (.fmul 3 1 2) ∧
  encode (.boundD 0 1 2) = 0x00021008 ∧ decode 0x00021008 = .ok (.boundD 0 1 2) ∧
  encode (.boundS 0 1 2) = 0x01021008 ∧ decode 0x01021008 = .ok (.boundS 0 1 2) ∧
  encode (.digits 0 1 2) = 0x00021009 ∧ decode 0x00021009 = .ok (.digits 0 1 2) ∧
  encode (.ldf 5) = 0x00000501 ∧ decode 0x00000501 = .ok (.ldf 5) ∧
  encode (.cpow 4 2) = 0x00002406 ∧ decode 0x00002406 = .ok (.cpow 4 2) ∧
  encode (.fnormto 1 1 2) = 0x00021105 ∧ decode 0x00021105 = .ok (.fnormto 1 1 2) ∧
  encode (.boundD 0 0 2) = 0x00020008 ∧ decode 0x00020008 = .error .equalRegisters

/-- R87: the text of a command parses to the command, in capitals and in small letters. Where the text has spaces is the
model's choice (log entry 19). -/
def Obligations.AssemblerTextRoundTrip : Prop :=
  ∀ i : Instr, parseAsm (asmText i) = some i ∧ parseAsm ((asmText i).map Char.toLower) = some i

/-! ## The agents and how a command ends (60_exceptions.md, 70_reset_and_hazards.md) -/

/-- R200: on the unit's turn with a command in flight whose word decodes to `i`, the step is the rule of `i` run on the
state (with its entry of `sched` used up, log entry 1). The unit has the turn where `sched` names it, and where `sched`
is empty. A command's word placed by `withFetchWord` (log entry 10) is the state in which the host has just issued it,
and the very next step runs that command on the operands latched then. -/
def Obligations.StepRunsTheDecodedCommand : Prop :=
  (∀ (s : State) (i : Instr), s.pend = true → decode s.pcmd = .ok i →
    (∀ more, s.sched = .unit :: more → step s = exec i { s with sched := more }) ∧
    (s.sched = [] → step s = exec i s)) ∧
  (∀ (s : State) (i : Instr), i.wf = true →
    step (s.withFetchWord 32 (encode i).toNat) =
      exec i { s with pcmd := encode i, pargSig := s.argSig, pargExp := s.argExp, prefine := s.refine, pend := true })

/-- R200 to R203, R205: every command, in every state, ends in a next state in exactly one of two ways: it commits, with
`FAULT`, `CAUSE` and `FCMD` unchanged and `PEND` 0; or it takes the fault entry of R203 with a cause that R201's table
gives the command, and nothing else changes. A word in flight that is no command takes the fault entry with `ILLEGAL`. -/
def Obligations.EveryCommandCommitsOrFaults : Prop :=
  (∀ (i : Instr) (s : State),
    (∃ t, exec i s = .next t ∧ t.pend = false ∧ t.fault = s.fault ∧ t.cause = s.cause ∧ t.fcmd = s.fcmd) ∨
    (∃ c ∈ raisable i, Faults i s c)) ∧
  (∀ (s : State) (e : DecodeError), decode s.pcmd = .error e → complete s = .next (s.faulted .illegal))

/-- R21, R206: a command one of whose source registers is invalid faults `UNINIT`, before any check of its own. -/
def Obligations.InvalidSourceFaultsUninit : Prop :=
  ∀ (i : Instr) (s : State), (∃ r ∈ sources i, s.f[r].valid = false) → Faults i s .uninit

/-- R20, R22, R202, R203: the frame of every command, through the window: a word the command may not write reads after it
as before, but for `STATUS` and `FCMD`; the registers and copies the window does not show, and the model's own fields,
are unchanged but for `PEND`. -/
def Obligations.CommandFrame : Prop :=
  ∀ (i : Instr) (s t : State), exec i s = .next t →
    (∀ r : WinReg, mayWrite i r = false → r ≠ .status → r ≠ .fcmd → t.readReg r = s.readReg r) ∧
    (∀ j : FReg, j ∉ fDests i → t.f[j] = s.f[j]) ∧
    t.pcmd = s.pcmd ∧ t.pargSig = s.pargSig ∧ t.pargExp = s.pargExp ∧ t.prefine = s.prefine ∧
    t.argSig = s.argSig ∧ t.argExp = s.argExp ∧ t.refine = s.refine ∧
    t.prog = s.prog ∧ t.sched = s.sched ∧ t.reads = s.reads ∧ t.draws = s.draws

/-- R204: a step from the halted state keeps `FAULT`, `CAUSE` and `FCMD`, latches no command and changes no `Fp` or
result register, unless it is a reset: the platform's, or a host write to `CTRL` with bit 31 set. A `CMD` write to a
halted unit takes the host's turn and changes nothing. Turns and host operations are the model's (log entries 1 and 2). -/
def Obligations.HaltedUntilReset : Prop :=
  (∀ s t : State, s.fault = true → s.pend = false → step s = .next t →
    (t.fault = true ∧ t.cause = s.cause ∧ t.fcmd = s.fcmd ∧ t.pend = false ∧ t.f = s.f ∧ t.cls = s.cls ∧
      t.csig = s.csig ∧ t.cpk = s.cpk ∧ t.dbuf = s.dbuf ∧ t.dlen = s.dlen ∧ t.dexp = s.dexp) ∨
    s.turn = .platformReset ∨
    (s.turn = .host ∧ ∃ v more, s.prog = .write 0x000 4 v :: more ∧ v.getLsbD 31 = true)) ∧
  (∀ (s : State) (v : Word) (more : List HostOp), s.fault = true → s.turn = .host →
    s.prog = .write 0x00C 4 v :: more → step s = .next { s with prog := more, sched := s.sched.tail })

/-- R207: a host write of `v` to `CMD` while a command is in flight and the unit is not halted discards that command,
which never commits, and takes the fault `OVERRUN` that names `v` (turns and host operations: log entries 1 and 2). -/
def Obligations.OverrunDiscardsTheCommandInFlight : Prop :=
  ∀ (s : State) (v : Word) (more : List HostOp), s.pend = true → s.fault = false → s.turn = .host →
    s.prog = .write 0x00C 4 v :: more →
    step s = .next { s with prog := more, sched := s.sched.tail, fault := true, cause := .overrun, fcmd := v,
                            pend := false }

/-- R208: both orders of a `CMD` write and a completion are admitted. With the unit first the command in flight ends, and
the write then issues if it committed; with the host first the write is an `OVERRUN`.
Schedules are the model's (log entry 1). -/
def Obligations.BothOrdersOfWriteAndCompletion : Prop :=
  ∀ (s t : State) (v : Word) (more : List HostOp), s.pend = true → s.fault = false →
    s.prog = .write 0x00C 4 v :: more → complete { s with sched := [.host] } = .next t → t.fault = false →
    core.run 2 { s with sched := [.unit, .host] } =
      .next { t with prog := more, sched := [], pcmd := v, pargSig := t.argSig, pargExp := t.argExp,
                     prefine := t.refine, pend := true } ∧
    core.run 1 { s with sched := [.host] } =
      .next { s with prog := more, sched := [], fault := true, cause := .overrun, fcmd := v, pend := false }

/-- R59: the three cases of a host write to `CMD`: nothing while halted; `OVERRUN` while a command is in flight; else the
word and the operands are latched, `STATUS.BUSY` reads 1, and the unit's next turn runs the command. -/
def Obligations.IssueCases : Prop :=
  ∀ (s : State) (v : Word),
    (s.fault = true → s.hostWrite 0x00C v = s) ∧
    (s.fault = false → s.pend = true →
      s.hostWrite 0x00C v = { s with fault := true, cause := .overrun, fcmd := v, pend := false }) ∧
    (s.fault = false → s.pend = false →
      s.hostWrite 0x00C v = { s with pcmd := v, pargSig := s.argSig, pargExp := s.argExp, prefine := s.refine,
                                     pend := true } ∧
      (s.hostWrite 0x00C v).statusWord.getLsbD 0 = true ∧
      (∀ i : Instr, decode v = .ok i → unitTurn (s.hostWrite 0x00C v) = exec i (s.hostWrite 0x00C v)))

/-- R23, R242: a `CMD` write that issues copies the operands; later host writes to `ARG_SIG`, `ARG_EXP` and
`CTRL.REFINE` change only those registers, and a command's run does not depend on them: with other values there it ends
the same, with those values standing. -/
def Obligations.CommandsRunOnTheLatchedCopies : Prop :=
  (∀ (s : State) (v : Word), s.fault = false → s.pend = false →
    (s.hostWrite 0x00C v).pargSig = s.argSig ∧ (s.hostWrite 0x00C v).pargExp = s.argExp ∧
    (s.hostWrite 0x00C v).prefine = s.refine) ∧
  (∀ (i : Instr) (s : State) (a : DWord) (e : Word) (r : Bool),
    exec i { s with argSig := a, argExp := e, refine := r } =
      mapNext (fun t => { t with argSig := a, argExp := e, refine := r }) (exec i s)) ∧
  (∀ (s : State) (off : Offset) (v : Word),
    off = 0x010 ∨ off = 0x014 ∨ off = 0x018 ∨ (off = 0x000 ∧ v.getLsbD 31 = false) →
    ∃ a e r, s.hostWrite off v = { s with argSig := a, argExp := e, refine := r })

/-- R26: `REFINE` affects DIGITS alone. Every other command ends the same with `PREFINE` changed; and with `PREFINE` 0
DIGITS emits the digits of its phases unchanged. -/
def Obligations.RefineAffectsDigitsAlone : Prop :=
  (∀ (i : Instr) (s : State) (b : Bool), (∀ v m p, i ≠ .digits v m p) →
    exec i { s with prefine := b } = mapNext (fun t => { t with prefine := b }) (exec i s)) ∧
  (∀ (v mm mp : Fp) (k : Working) (cdexp : Int) (r : Emitted), scale v mm mp = .ok (k, cdexp) → emit k = .ok r →
    digitGen false v mm mp = .ok ⟨r.buf.reverse, -cdexp + r.gain⟩)

/-- R37, R231: after a reset, the machine's first or any later one, every register reads as R37's table says: an `Fp`
register reads 0 in the window and is invalid, so that every command with a source faults; the ROM mirror reads as
before. -/
def Obligations.ResetStateTable : Prop :=
  ∀ s t : State, t = State.reset ∨ t = s.resetUnit →
    (∀ i : FReg, t.f[i].valid = false ∧ t.readReg (.fSigLo i) = 0 ∧ t.readReg (.fSigHi i) = 0 ∧
      t.readReg (.fExp i) = 0 ∧ t.readReg (.fValid i) = 0) ∧
    (∀ i : Instr, sources i ≠ [] → Faults i t .uninit) ∧ t.argSig = 0 ∧ t.argExp = 0 ∧ t.ctrlWord = 0x00000001 ∧
    t.statusWord = 0x00000000 ∧ t.fcmd = 0x00000000 ∧ t.cls = 0 ∧ t.csig = 0 ∧ t.cpk = 0 ∧
    (∀ i : Fin 32, t.dbuf[i] = 0x00) ∧ t.dlen = 0 ∧ t.dexp = 0 ∧ t.pend = false ∧
    (∀ n : Fin 79, t.readReg (.romSigLo n) = s.readReg (.romSigLo n) ∧ t.readReg (.romSigHi n) = s.readReg (.romSigHi n) ∧
      t.readReg (.romBexp n) = s.readReg (.romBexp n) ∧ t.readReg (.romDexp n) = s.readReg (.romDexp n))

/-- R230: the two reset sources have the same effect, whether a command is in flight, the unit halted or neither; the
other bits of a software reset's write are ignored (R25). Turns, and what of the
model's own fields stays, are the model's (log entries 1, 2 and 17). -/
def Obligations.ResetSourcesAgree : Prop :=
  ∀ s : State,
    (s.turn = .platformReset → step s = .next { s.resetUnit with sched := s.sched.tail }) ∧
    (∀ (v : Word) (more : List HostOp), s.turn = .host → s.prog = .write 0x000 4 v :: more → v.getLsbD 31 = true →
      step s = .next { s.resetUnit with prog := more, sched := s.sched.tail })

/-- R218, R232: after reset the unit is idle, and the state stays as it is while no agent has anything to do (log entry
14); the next `CMD` write is taken as a command. -/
def Obligations.IdleAfterReset : Prop :=
  step State.reset = .next State.reset ∧
  (∀ (s : State) (v : Word),
    s.resetUnit.hostWrite 0x00C v =
      { s.resetUnit with pcmd := v, pargSig := 0, pargExp := 0, prefine := true, pend := true })

/-- R246, over the model's finite schedules (log entry 1): from every state with a command in flight and a host whose
accesses the window takes, some state at most one step past the schedule has nothing in flight: the command completed,
faulted, was overrun or was discarded by a reset. -/
def Obligations.CompletionIsFair : Prop :=
  ∀ s : State, s.pend = true →
    (∀ op ∈ s.prog, match op with
      | .read off bytes => accessTaken off bytes = true
      | .write off bytes _ => accessTaken off bytes = true
      | .wait => True) →
    ∃ k ≤ s.sched.length + 1, ∃ t : State, core.run k s = .next t ∧ t.pend = false

/-- R243: a `WAIT` always ends, and when it does `BUSY` is 0. The bound is that of the model's finite schedule (log entries
1 and 2). -/
def Obligations.WaitAlwaysEnds : Prop :=
  ∀ (s : State) (more : List HostOp), s.prog = .wait :: more →
    ∃ k ≤ s.sched.length + 2, ∃ t : State, core.run k s = .next t ∧ t.prog = more ∧ t.statusWord.getLsbD 0 = false

/-- R54: a step stops in one case only, the host's turn with an access that is not 4 bytes wide or whose offset is not a
multiple of 4 (log entry 7); no step is refused. -/
def Obligations.OnlyAccessesNotTakenStop : Prop :=
  ∀ s : State,
    ((∃ t, step s = .next t) ∨ step s = .fault .hostAccessNotTaken) ∧
    (step s = .fault .hostAccessNotTaken ↔
      s.turn = .host ∧ ∃ off bytes more, (bytes ≠ 4 ∨ off.toNat % 4 ≠ 0) ∧
        (s.prog = .read off bytes :: more ∨ ∃ v, s.prog = .write off bytes v :: more))

/-- R58, R63, R88: a step on the host's turn makes the host's next operation, in program order. An access the window takes
is the read or the write of the state with that operation and that turn used up; a `WAIT` goes on exactly when `BUSY` is
0; a host with nothing left to do changes nothing. Turns, the host's list and the record of reads are the model's (log
entries 1 to 3 and 14). -/
def Obligations.HostTurnMakesTheNextOperation : Prop :=
  ∀ s : State, s.turn = .host →
    (∀ (off : Offset) (more : List HostOp), off.toNat % 4 = 0 → s.prog = .read off 4 :: more →
      step s = .next (State.hostRead { s with prog := more, sched := s.sched.tail } off)) ∧
    (∀ (off : Offset) (v : Word) (more : List HostOp), off.toNat % 4 = 0 → s.prog = .write off 4 v :: more →
      step s = .next (State.hostWrite { s with prog := more, sched := s.sched.tail } off v)) ∧
    (∀ more : List HostOp, s.prog = .wait :: more →
      step s = .next { s with prog := if s.pend then s.prog else more, sched := s.sched.tail }) ∧
    (s.prog = [] → step s = .next { s with sched := s.sched.tail })

/-! ## Invariants -/

/-- R27, R29, R201, R204: every step keeps the status invariant. -/
def Obligations.StepKeepsStatusInvariant : Prop :=
  ∀ s t : State, s.StatusOk → step s = .next t → t.StatusOk

/-- R30 to R35, R182, R183, R185: every step keeps the invariants of the digit buffer and of the other result
registers. -/
def Obligations.StepKeepsResultInvariants : Prop :=
  ∀ s t : State, s.DigitsOk → s.ClassOk → step s = .next t → t.DigitsOk ∧ t.ClassOk

/-- The state after reset meets the invariants. -/
def Obligations.ResetMeetsInvariants : Prop := State.reset.Inv

/-- R21, R37: what R37 gives no value is unobservable. Blanking the contents of the invalid registers and of the idle
latch (log entries 5 and 6) before a step or after it makes no difference, so no run's window, digits or faults depend on
them. -/
def Obligations.InvalidContentsAreUnobservable : Prop :=
  ∀ s : State, mapNext State.blanked (step s.blanked) = mapNext State.blanked (step s)

/-! ## The window (20_memory.md) -/

/-- R52: the map's offsets. Every listed word stands at its own offset, a multiple of 4, and nothing else is listed. -/
def Obligations.WindowMapIsOneToOne : Prop :=
  (∀ r : WinReg, windowMap r.offset = some r ∧ r.offset.toNat % 4 = 0) ∧
  (∀ (off : Offset) (r : WinReg), windowMap off = some r → r.offset = off)

/-- R25, R27, R201: the `CTRL` and `STATUS` words, bit by bit, and the cause codes. -/
def Obligations.StatusAndControlWords : Prop :=
  (∀ s : State,
    s.readWord 0x000 = s.ctrlWord ∧ s.ctrlWord.getLsbD 0 = s.refine ∧ s.ctrlWord.extractLsb' 1 31 = 0 ∧
    s.readWord 0x004 = s.statusWord ∧ s.statusWord.getLsbD 0 = s.pend ∧ s.statusWord.getLsbD 1 = s.fault ∧
    s.statusWord.extractLsb' 2 6 = 0 ∧ s.statusWord.extractLsb' 8 4 = s.cause.code ∧
    s.statusWord.extractLsb' 12 20 = 0) ∧
  [Cause.none, .illegal, .uninit, .subPrecond, .normZero, .normtoPrecond, .expRange, .cpowRange, .boundClass,
    .digitsPrecond, .digitsOverflow, .roundUnderflow, .overrun].map (fun c => c.code.toNat) = List.range 13

/-- R52, R55 to R57: the registers as the window shows them, at R52's offsets: a 64-bit register is its high word, 4
bytes up, joined to its low word; an `Fp` register reads as its bits while valid and 0 while not; digit-buffer word `j`
holds `DBUF[4j]` in bits 7:0 up to `DBUF[4j+3]` in bits 31:24; the ROM mirror reads the ROM's entries. -/
def Obligations.WindowShowsTheRegisters : Prop :=
  ∀ s : State,
    s.readWord 0x008 = s.fcmd ∧ s.readWord 0x00C = 0 ∧ s.readWord 0x014 ++ s.readWord 0x010 = s.argSig ∧
    s.readWord 0x018 = s.argExp ∧ s.readWord 0x020 = s.cls ∧ s.readWord 0x028 ++ s.readWord 0x024 = s.csig ∧
    s.readWord 0x030 = s.cpk ∧ s.readWord 0x040 = s.dlen ∧ s.readWord 0x044 = s.dexp ∧
    (∀ i : FReg,
      s.readWord (BitVec.ofNat 12 (0x104 + 16 * i)) ++ s.readWord (BitVec.ofNat 12 (0x100 + 16 * i)) =
        (if s.f[i].valid then s.f[i].sig else 0) ∧
      s.readWord (BitVec.ofNat 12 (0x108 + 16 * i)) = (if s.f[i].valid then s.f[i].exp else 0) ∧
      s.readWord (BitVec.ofNat 12 (0x10C + 16 * i)) = (if s.f[i].valid then 1 else 0)) ∧
    (∀ (j : Fin 8) (b : Fin 4), ∀ n : Fin 32, n.val = 4 * j.val + b.val →
      (s.readWord (BitVec.ofNat 12 (0x200 + 4 * j))).extractLsb' (8 * b.val) 8 = s.dbuf[n]) ∧
    (∀ n : Fin 79, ∃ r : RomEntry, rom[n.val]? = some r ∧
      s.readWord (BitVec.ofNat 12 (0x404 + 16 * n)) ++ s.readWord (BitVec.ofNat 12 (0x400 + 16 * n)) = r.sig ∧
      (s.readWord (BitVec.ofNat 12 (0x408 + 16 * n))).toInt = r.bexp ∧
      (s.readWord (BitVec.ofNat 12 (0x40C + 16 * n))).toInt = r.dexp)

/-- R53: an offset the map does not list reads 0 and ignores writes; a write to a read-only register is ignored; `CMD`
reads 0. -/
def Obligations.UnlistedAndReadOnlyWords : Prop :=
  ∀ (s : State) (off : Offset) (v : Word),
    ((∀ r : WinReg, r.offset ≠ off) → s.readWord off = 0 ∧ s.hostWrite off v = s) ∧ s.readWord 0x00C = 0 ∧
    (off ≠ 0x000 → off ≠ 0x00C → off ≠ 0x010 → off ≠ 0x014 → off ≠ 0x018 → s.hostWrite off v = s)

/-- R58: the writes that do something; every other write is ignored. -/
def Obligations.WritesThatDoSomething : Prop :=
  ∀ (s : State) (v : Word),
    (v.getLsbD 31 = true → s.hostWrite 0x000 v = s.resetUnit) ∧
    (v.getLsbD 31 = false → s.hostWrite 0x000 v = { s with refine := v.getLsbD 0 }) ∧
    s.hostWrite 0x00C v = s.issue v ∧
    (∃ a : DWord, s.hostWrite 0x010 v = { s with argSig := a } ∧ a.extractLsb' 0 32 = v ∧
      a.extractLsb' 32 32 = s.argSig.extractLsb' 32 32) ∧
    (∃ a : DWord, s.hostWrite 0x014 v = { s with argSig := a } ∧ a.extractLsb' 32 32 = v ∧
      a.extractLsb' 0 32 = s.argSig.extractLsb' 0 32) ∧
    s.hostWrite 0x018 v = { s with argExp := v } ∧
    (∀ off : Offset, off ∉ [0x000, 0x00C, 0x010, 0x014, 0x018] → s.hostWrite off v = s)

/-- R60, R63: a host read changes nothing but the model's own record of it; a write to an argument register or to `CTRL`
without `SRST` is idempotent and is what the next read of that word returns. -/
def Obligations.ReadsAndArgumentWrites : Prop :=
  ∀ (s : State) (off : Offset) (v : Word),
    (∃ w n, s.hostRead off = { s with reads := w :: s.reads, draws := n }) ∧
    (off = 0x010 ∨ off = 0x014 ∨ off = 0x018 → (s.hostWrite off v).readWord off = v) ∧
    (off = 0x010 ∨ off = 0x014 ∨ off = 0x018 ∨ (off = 0x000 ∧ v.getLsbD 31 = false) →
      (s.hostWrite off v).hostWrite off v = s.hostWrite off v)

/-- R64, R241: what a host read of a listed word returns. It is the exact word unless a command is in flight that may
write it, in which case it is the free value (log entry 4), whatever that is; `STATUS`, `FCMD`, `CTRL`, the argument
registers and the ROM mirror are always exact, and every read is exact while nothing is in flight. -/
def Obligations.ReadsAreExactUnlessRacing : Prop :=
  ∀ (s : State) (r : WinReg),
    (∀ i : Instr, s.pend = true → decode s.pcmd = .ok i → mayWrite i r = true →
      s.hostRead r.offset = { s with reads := Config.freeRead s.draws :: s.reads, draws := s.draws + 1 }) ∧
    (s.pend = false ∨ (∀ i : Instr, decode s.pcmd = .ok i → mayWrite i r = false) →
      s.hostRead r.offset = { s with reads := s.readReg r :: s.reads }) ∧
    (r ∈ [WinReg.ctrl, .status, .fcmd, .cmd, .argSigLo, .argSigHi, .argExp] ∨
        (∃ n, r ∈ [WinReg.romSigLo n, .romSigHi n, .romBexp n, .romDexp n]) →
      s.hostRead r.offset = { s with reads := s.readReg r :: s.reads })

/-- R64, R241, with R22: which words a command may write: the four words of each of its `Fp` destinations, and the result
registers its rule names, and no other. -/
def Obligations.WordsACommandMayWrite : Prop :=
  (∀ (d a b j : FReg), ∀ i ∈ [Instr.ldf d, .fsub d a b, .fmul d a b, .fnorm d a, .fnormto d a b, .cpow d a],
    ∀ r ∈ [WinReg.fSigLo j, .fSigHi j, .fExp j, .fValid j], (mayWrite i r = true ↔ j = d)) ∧
  (∀ (v m p j : FReg), ∀ i ∈ [Instr.boundD v m p, .boundS v m p],
    ∀ r ∈ [WinReg.fSigLo j, .fSigHi j, .fExp j, .fValid j], (mayWrite i r = true ↔ j = v ∨ j = m ∨ j = p)) ∧
  (∀ (v m p j : FReg), ∀ i ∈ [Instr.nop, .fclassD, .fclassS, .digits v m p],
    ∀ r ∈ [WinReg.fSigLo j, .fSigHi j, .fExp j, .fValid j], mayWrite i r = false) ∧
  (∀ (i : Instr), (∀ r ∈ [WinReg.cls, .csigLo, .csigHi], (mayWrite i r = true ↔ i = .fclassD ∨ i = .fclassS)) ∧
    (mayWrite i .cpk = true ↔ ∃ d a, i = .cpow d a) ∧
    (∀ j, ∀ r ∈ [WinReg.dbuf j, .dlen, .dexp], (mayWrite i r = true ↔ ∃ v m p, i = .digits v m p)))

/-! ## Fp arithmetic (40_fp_arith.md) -/

/-- R101: NOP commits and changes nothing but `PEND`, which `STATUS.BUSY` shows from its issue on; its word is 0, and no
other word is a NOP. -/
def Obligations.NopOnlyCommits : Prop :=
  (∀ s : State, exec .nop s = .next { s with pend := false }) ∧ encode .nop = 0x00000000 ∧
  (∀ w : Word, decode w = .ok .nop ↔ w = 0x00000000) ∧
  (∀ s : State, s.fault = false → s.pend = false →
    (s.hostWrite 0x00C 0x00000000).statusWord.getLsbD 0 = true)

/-- R102: LDF copies the latched pair, whatever it is, into its destination, which becomes valid. -/
def Obligations.LdfLoadsTheLatchedPair : Prop :=
  ∀ (s : State) (d : FReg),
    encode (.ldf d) &&& 0xFFFFF8FF = 0x00000001 ∧
    exec (.ldf d) s = .next { s with f := s.f.set d ⟨s.pargSig, s.pargExp, true⟩, pend := false }

/-- R103: FSUB is the exact difference at one exponent, and faults rather than borrow. -/
def Obligations.FsubIsExactOrFaults : Prop :=
  ∀ (s : State) (d a b : FReg),
    encode (.fsub d a b) &&& 0xFFF888FF = 0x00000002 ∧
    (∀ x y : Fp, s.Holds a x → s.Holds b y →
      (x.exp = y.exp → y.sig.toNat ≤ x.sig.toNat → ∃ r : Fp,
        r.sig.toNat = x.sig.toNat - y.sig.toNat ∧ r.exp = x.exp ∧ r.val = x.val - y.val ∧
        exec (.fsub d a b) s = .next { s with f := s.f.set d ⟨r.sig, r.exp, true⟩, pend := false }) ∧
      (x.exp ≠ y.exp ∨ x.sig.toNat < y.sig.toNat → Faults (.fsub d a b) s .subPrecond)) ∧
    (s.f[a].valid = false ∨ s.f[b].valid = false → Faults (.fsub d a b) s .uninit)

/-- R104: FMUL keeps the upper 64 bits of the product, rounded by the top discarded bit, at exponent
`x.exp + y.exp + 64`, within half a unit of the exact product; it faults when that exponent is outside the i32 range. -/
def Obligations.FmulRoundsTheProduct : Prop :=
  ∀ (s : State) (d a b : FReg),
    encode (.fmul d a b) &&& 0xFFF888FF = 0x00000003 ∧
    (∀ x y : Fp, s.Holds a x → s.Holds b y →
      let P := x.sig.toNat * y.sig.toNat
      let e := x.exp.toInt + y.exp.toInt + 64
      (-2 ^ 31 ≤ e → e ≤ 2 ^ 31 - 1 → ∃ r : Fp,
        r.sig.toNat = P / 2 ^ 64 + P / 2 ^ 63 % 2 ∧ r.exp.toInt = e ∧ |r.val - x.val * y.val| ≤ 2 ^ (e - 1) ∧
        (2 ^ 63 ≤ x.sig.toNat → 2 ^ 63 ≤ y.sig.toNat → 2 ^ 62 ≤ r.sig.toNat) ∧
        exec (.fmul d a b) s = .next { s with f := s.f.set d ⟨r.sig, r.exp, true⟩, pend := false }) ∧
      (e < -2 ^ 31 ∨ 2 ^ 31 - 1 < e → Faults (.fmul d a b) s .expRange)) ∧
    (s.f[a].valid = false ∨ s.f[b].valid = false → Faults (.fmul d a b) s .uninit)

/-- R105: the four 32×32 partial products give exactly the rounded high half of R104, and nothing overflows on the way:
each product is below 2^64, the middle sum below 2^34, the result below 2^64. -/
def Obligations.PartialProductsGiveTheSameHalf : Prop :=
  ∀ x y : DWord,
    let ul := (x.extractLsb' 0 32).toNat
    let uh := (x.extractLsb' 32 32).toNat
    let vl := (y.extractLsb' 0 32).toNat
    let vh := (y.extractLsb' 32 32).toNat
    mulHighPartial x y = (x.toNat * y.toNat + 2 ^ 63) / 2 ^ 64 ∧ mulHighPartial x y < 2 ^ 64 ∧
    ul * vl < 2 ^ 64 ∧ ul * vh < 2 ^ 64 ∧ uh * vl < 2 ^ 64 ∧ uh * vh < 2 ^ 64 ∧
    ul * vl / 2 ^ 32 + ul * vh % 2 ^ 32 + uh * vl % 2 ^ 32 + 2 ^ 31 < 2 ^ 34

/-- R106: FNORM shifts left until the top bit is set, by the leading zero count, and keeps the value exactly; it faults
on a zero significand, then on an exponent below the i32 range. -/
def Obligations.FnormNormalizesExactly : Prop :=
  ∀ (s : State) (d a : FReg),
    encode (.fnorm d a) &&& 0xFFFF88FF = 0x00000004 ∧
    (∀ x : Fp, s.Holds a x →
      (x.sig ≠ 0 → -2 ^ 31 ≤ x.exp.toInt - clz64 x.sig → ∃ r : Fp,
        r.sig.toNat = x.sig.toNat * 2 ^ clz64 x.sig ∧ 2 ^ 63 ≤ r.sig.toNat ∧
        r.exp.toInt = x.exp.toInt - clz64 x.sig ∧ r.val = x.val ∧
        exec (.fnorm d a) s = .next { s with f := s.f.set d ⟨r.sig, r.exp, true⟩, pend := false }) ∧
      (x.sig ≠ 0 → x.exp.toInt - clz64 x.sig < -2 ^ 31 → Faults (.fnorm d a) s .expRange) ∧
      (x.sig = 0 → Faults (.fnorm d a) s .normZero)) ∧
    (s.f[a].valid = false → Faults (.fnorm d a) s .uninit)

/-- R107 (with 90_conflicts.md C1): FNORMTO shifts left to reach the exponent of `F[b]` exactly and keeps the value; it
faults when the target is above the exponent or a set bit would be lost. -/
def Obligations.FnormtoReachesTheExponent : Prop :=
  ∀ (s : State) (d a b : FReg),
    encode (.fnormto d a b) &&& 0xFFF888FF = 0x00000005 ∧
    (∀ x y : Fp, s.Holds a x → s.Holds b y →
      let delta := x.exp.toInt - y.exp.toInt
      (0 ≤ delta → x.sig.toNat * 2 ^ delta.toNat < 2 ^ 64 → ∃ r : Fp,
        r.sig.toNat = x.sig.toNat * 2 ^ delta.toNat ∧ r.exp = y.exp ∧ r.val = x.val ∧
        exec (.fnormto d a b) s = .next { s with f := s.f.set d ⟨r.sig, r.exp, true⟩, pend := false }) ∧
      (delta < 0 ∨ 2 ^ 64 ≤ x.sig.toNat * 2 ^ delta.toNat → Faults (.fnormto d a b) s .normtoPrecond)) ∧
    (s.f[a].valid = false ∨ s.f[b].valid = false → Faults (.fnormto d a b) s .uninit)

/-! ## The power-of-ten ROM and CPOW (41_cached_power.md) -/

/-- R130, R131: the ROM has 79 entries; entry `j` is the normalized `Fp` nearest to `10^(-300 + 8j)`, no entry being a
tie; the entries for 10^4, 10^12 and 10^20 are exact. -/
def Obligations.RomHoldsTheNearestPowers : Prop :=
  rom.length = 79 ∧
  ∀ (j : Nat) (r : RomEntry), rom[j]? = some r →
    r.dexp = -300 + 8 * j ∧
    (2 ^ 63 : ℚ) ≤ 10 ^ r.dexp / 2 ^ r.bexp ∧ (10 ^ r.dexp / 2 ^ r.bexp : ℚ) < 2 ^ 64 ∧
    2 ^ 63 ≤ r.sig.toNat ∧ |(r.sig.toNat : ℚ) - 10 ^ r.dexp / 2 ^ r.bexp| < 1 / 2 ∧
    (r.dexp ∈ [4, 12, 20] → (r.sig.toNat : ℚ) * 2 ^ r.bexp = 10 ^ r.dexp)

/-- R135: the selector succeeds exactly for exponents -1137 to 962, and the combined exponent then lies in the working
window [-60, -32], at -1137 on -60 and at 960 on -36. R135's remark on binary32 is not stated: R132 and R133 contradict it
(log entry 20). -/
def Obligations.SelectorRange : Prop :=
  ∀ e : Int,
    ((∃ r, select e = .ok r) ↔ -1137 ≤ e ∧ e ≤ 962) ∧
    (∀ r, select e = .ok r → r ∈ rom ∧ -60 ≤ r.bexp + e + 64 ∧ r.bexp + e + 64 ≤ -32) ∧
    (∀ r, select e = .ok r → e = -1137 → r.bexp + e + 64 = -60) ∧
    (∀ r, select e = .ok r → e = 960 → r.bexp + e + 64 = -36) ∧
    (∀ c, select e = .error c → c = .cpowRange)

/-- R134 (with R133, R135): CPOW writes the ROM entry its source's exponent selects, and its decimal exponent to `CPK`;
the entry is the first whose decimal exponent reaches the fixed-point estimate `(ALPHA - e - 1) × 78913 / 2^18`. The
significand is ignored; the combined exponent lies in [-60, -32]; an exponent outside [-1137, 962] faults. -/
def Obligations.CpowLooksUpTheSelectedEntry : Prop :=
  ∀ (s : State) (d a : FReg),
    encode (.cpow d a) &&& 0xFFFF88FF = 0x00000006 ∧
    (∀ x : Fp, s.Holds a x →
      let e := x.exp.toInt
      (-1137 ≤ e → e ≤ 962 → ∃ (j : Nat) (r : RomEntry), rom[j]? = some r ∧
        (-60 - e - 1) * 78913 ≤ (-300 + 8 * (j : Int)) * 2 ^ 18 ∧
        (-300 + 8 * ((j : Int) - 1)) * 2 ^ 18 < (-60 - e - 1) * 78913 ∧
        2 ^ 63 ≤ r.sig.toNat ∧ -60 ≤ e + r.bexp + 64 ∧ e + r.bexp + 64 ≤ -32 ∧
        exec (.cpow d a) s = .next { s with f := s.f.set d ⟨r.sig, BitVec.ofInt 32 r.bexp, true⟩,
                                            cpk := BitVec.ofInt 32 r.dexp, pend := false }) ∧
      (e < -1137 ∨ 962 < e → Faults (.cpow d a) s .cpowRange)) ∧
    (s.f[a].valid = false → Faults (.cpow d a) s .uninit)

/-! ## Decomposition and boundaries (42_boundary.md) -/

/-- R30, R31, R151 to R153: FCLASS.D writes the decomposition of the latched binary64 pattern, FCLASS.S that of its low
32 bits: every field of `CLASS`, its reserved bits 0, and `CSIG`. -/
def Obligations.FclassReportsTheFields : Prop :=
  (∀ s : State,
    let E := s.pargSig.extractLsb' 52 11
    let F := s.pargSig.extractLsb' 0 52
    ∃ c : Word, exec .fclassD s = .next { s with cls := c, csig := F.setWidth 64, pend := false } ∧
      c.extractLsb' 27 5 = 0 ∧ c.extractLsb' 16 11 = E ∧ c.extractLsb' 9 7 = 0 ∧ c.getLsbD 8 = false ∧
      c.extractLsb' 5 3 = 0 ∧ c.getLsbD 4 = decide (E = 0) ∧ c.getLsbD 3 = decide (E = 2047 ∧ F = 0) ∧
      c.getLsbD 2 = decide (E = 2047 ∧ F ≠ 0) ∧ c.getLsbD 1 = decide (E = 0 ∧ F = 0) ∧
      c.getLsbD 0 = s.pargSig.getLsbD 63) ∧
  (∀ s : State,
    let E := s.pargSig.extractLsb' 23 8
    let F := s.pargSig.extractLsb' 0 23
    ∃ c : Word, exec .fclassS s = .next { s with cls := c, csig := F.setWidth 64, pend := false } ∧
      c.extractLsb' 27 5 = 0 ∧ c.extractLsb' 16 11 = E.setWidth 11 ∧ c.extractLsb' 9 7 = 0 ∧ c.getLsbD 8 = true ∧
      c.extractLsb' 5 3 = 0 ∧ c.getLsbD 4 = decide (E = 0) ∧ c.getLsbD 3 = decide (E = 255 ∧ F = 0) ∧
      c.getLsbD 2 = decide (E = 255 ∧ F ≠ 0) ∧ c.getLsbD 1 = decide (E = 0 ∧ F = 0) ∧
      c.getLsbD 0 = s.pargSig.getLsbD 31) ∧
  encode .fclassD = 0x00000007 ∧ encode .fclassS = 0x01000007

/-- R154 to R158 for binary64: BOUND.D writes the boundary triple of the latched pattern's magnitude: three pairs at one
exponent, the upper normalized, that stand exactly for the value, its lower and its upper boundary; a zero, an infinity
or a NaN faults, and so does a command with two equal register fields (R85). The sign is not used. -/
def Obligations.BoundDoubleWritesTheTriple : Prop :=
  ∀ (s : State) (v m p : FReg),
    encode (.boundD v m p) &&& 0xFFF888FF = 0x00000008 ∧
    (v ≠ m → v ≠ p → m ≠ p →
      let E := (s.pargSig.extractLsb' 52 11).toNat
      let F := (s.pargSig.extractLsb' 0 52).toNat
      let sig : ℚ := if E = 0 then F else F + 2 ^ 52
      let ex : Int := if E = 0 then 1 - 1075 else E - 1075
      (¬(E = 0 ∧ F = 0) → E ≠ 2047 → ∃ wv wm wp : Fp,
        wm.exp = wv.exp ∧ wp.exp = wv.exp ∧ 2 ^ 63 ≤ wp.sig.toNat ∧
        wv.val = sig * 2 ^ ex ∧ wp.val = (2 * sig + 1) * 2 ^ (ex - 1) ∧
        wm.val = (if F = 0 ∧ E > 1 then (4 * sig - 1) * 2 ^ (ex - 2) else (2 * sig - 1) * 2 ^ (ex - 1)) ∧
        exec (.boundD v m p) s = .next { s with
          f := ((s.f.set v ⟨wv.sig, wv.exp, true⟩).set m ⟨wm.sig, wm.exp, true⟩).set p ⟨wp.sig, wp.exp, true⟩,
          pend := false }) ∧
      ((E = 0 ∧ F = 0) ∨ E = 2047 → Faults (.boundD v m p) s .boundClass)) ∧
    (v = m ∨ v = p ∨ m = p → Faults (.boundD v m p) s .illegal)

/-- R154 to R158 for binary32: the same of the low 32 bits of the latched pattern; the high word is ignored. -/
def Obligations.BoundSingleWritesTheTriple : Prop :=
  ∀ (s : State) (v m p : FReg),
    encode (.boundS v m p) &&& 0xFFF888FF = 0x01000008 ∧
    (v ≠ m → v ≠ p → m ≠ p →
      let E := (s.pargSig.extractLsb' 23 8).toNat
      let F := (s.pargSig.extractLsb' 0 23).toNat
      let sig : ℚ := if E = 0 then F else F + 2 ^ 23
      let ex : Int := if E = 0 then 1 - 150 else E - 150
      (¬(E = 0 ∧ F = 0) → E ≠ 255 → ∃ wv wm wp : Fp,
        wm.exp = wv.exp ∧ wp.exp = wv.exp ∧ 2 ^ 63 ≤ wp.sig.toNat ∧
        wv.val = sig * 2 ^ ex ∧ wp.val = (2 * sig + 1) * 2 ^ (ex - 1) ∧
        wm.val = (if F = 0 ∧ E > 1 then (4 * sig - 1) * 2 ^ (ex - 2) else (2 * sig - 1) * 2 ^ (ex - 1)) ∧
        exec (.boundS v m p) s = .next { s with
          f := ((s.f.set v ⟨wv.sig, wv.exp, true⟩).set m ⟨wm.sig, wm.exp, true⟩).set p ⟨wp.sig, wp.exp, true⟩,
          pend := false }) ∧
      ((E = 0 ∧ F = 0) ∨ E = 255 → Faults (.boundS v m p) s .boundClass)) ∧
    (v = m ∨ v = p ∨ m = p → Faults (.boundS v m p) s .illegal)

/-- R159: properties of the boundary triple of every finite non-zero pattern of either precision, with `L` the bit length
of `v.sig`: the upper exponent is `v.exp - 64 + L`; value and upper are normalized and the three strictly ordered; the
three stand exactly for the value and its two boundaries; the exponent lies in [-1137, 960] or [-212, 64], and is
`E - 1086` or `E - 190` for a normal; `select` accepts it. -/
def Obligations.BoundTripleProperties : Prop :=
  ∀ (p : Prec) (arg : DWord), let x := fields p arg
    ¬(x.e = 0 ∧ x.f = 0) → x.e ≠ p.desc.emax →
    ∃ t : BoundTriple, boundTriple p.desc x = .ok t ∧
      t.plus.exp.toInt = (floatValue p.desc x).exp.toInt - 64 + Nat.size (floatValue p.desc x).sig.toNat ∧
      2 ^ 63 ≤ t.v.sig.toNat ∧ 2 ^ 63 ≤ t.plus.sig.toNat ∧
      t.minus.sig.toNat < t.v.sig.toNat ∧ t.v.sig.toNat < t.plus.sig.toNat ∧
      t.v.val = (floatValue p.desc x).val ∧ t.minus.val = (lowerBoundary x (floatValue p.desc x)).val ∧
      t.plus.val = (upperBoundary (floatValue p.desc x)).val ∧ t.v.exp = t.plus.exp ∧ t.minus.exp = t.plus.exp ∧
      (match p with
        | .double => -1137 ≤ t.plus.exp.toInt ∧ t.plus.exp.toInt ≤ 960 ∧ (x.e ≠ 0 → t.plus.exp.toInt = x.e - 1086)
        | .single => -212 ≤ t.plus.exp.toInt ∧ t.plus.exp.toInt ≤ 64 ∧ (x.e ≠ 0 → t.plus.exp.toInt = x.e - 190)) ∧
      ∃ r, select t.plus.exp.toInt = .ok r

/-! ## Digit generation (43_digit_gen.md) -/

/-- R176: `largest_pow10` counts the decimal digits of `p1`, one to ten of them. -/
def Obligations.LargestPowerOfTen : Prop :=
  ∀ p1 : Nat, 1 ≤ p1 → p1 < 2 ^ 32 →
    1 ≤ (largestPow10 p1).1 ∧ (largestPow10 p1).1 ≤ 10 ∧ (largestPow10 p1).2 = 10 ^ ((largestPow10 p1).1 - 1) ∧
    (largestPow10 p1).2 ≤ p1 ∧ p1 < 10 ^ (largestPow10 p1).1

/-- R136, R171 to R175, R181: what scaling and narrowing compute, and that it fits the datapath. They answer only at one
common exponent with a ROM entry `c`; the bounds, the scaled value and the unit are then those of the three rounded
products with `c`, narrowed by one unit, at exponent `mp.exp + c.bexp + 64`, and `cdexp` is `c`'s decimal exponent. The
unit is `2^32` to `2^60`, `p1` fits 32 bits and is not 0, ten times the fraction fits 64 bits, and the scaled value lies
in the narrowed interval. -/
def Obligations.ScalingFitsTheDatapath : Prop :=
  ∀ (v mm mp : Fp) (k : Working) (cdexp : Int), scale v mm mp = .ok (k, cdexp) →
    v.exp = mm.exp ∧ mm.exp = mp.exp ∧
    (∃ c ∈ rom, select mp.exp.toInt = .ok c ∧
      k.mMinus = (mm.sig.toNat * c.sig.toNat + 2 ^ 63) / 2 ^ 64 + 1 ∧
      k.mPlus + 1 = (mp.sig.toNat * c.sig.toNat + 2 ^ 63) / 2 ^ 64 ∧
      k.w = (v.sig.toNat * c.sig.toNat + 2 ^ 63) / 2 ^ 64 ∧
      (k.one : ℚ) = 2 ^ (-(mp.exp.toInt + c.bexp + 64)) ∧ cdexp = c.dexp) ∧
    (∃ n, 32 ≤ n ∧ n ≤ 60 ∧ k.one = 2 ^ n) ∧ 1 ≤ k.mMinus ∧ k.mMinus ≤ k.w ∧ k.w ≤ k.mPlus ∧ k.mPlus < 2 ^ 64 ∧
    k.delta = k.mPlus - k.mMinus ∧ k.dist = k.mPlus - k.w ∧ k.dist ≤ k.delta ∧
    1 ≤ k.p1 ∧ k.p1 < 2 ^ 32 ∧ k.p2 < k.one ∧ 10 * k.p2 < 2 ^ 64 ∧ k.p1 * k.one + k.p2 = k.mPlus

/-- R177, R178, R184: without the refinement, the digits are the shortest prefix of the decimal digits of `M_plus × 2^e`
that meets `rest ≤ delta`: with `n` the decimal weight of the last digit, the digits spell the floor of
`M_plus × 2^e / 10^n`, what they leave of `M_plus` is within `delta`, and no shorter prefix (no larger `n`) is. -/
def Obligations.DigitsAreTheShortestPrefix : Prop :=
  ∀ (v mm mp : Fp) (k : Working) (cdexp : Int) (r : Decimal),
    scale v mm mp = .ok (k, cdexp) → digitGen false v mm mp = .ok r →
    let X : ℚ := k.mPlus / k.one
    let n : Int := r.dexp + cdexp
    (decimalValue r.digits : Int) = ⌊X / 10 ^ n⌋ ∧ X - decimalValue r.digits * 10 ^ n ≤ k.delta / k.one ∧
    ∀ n' : Int, n < n' → (k.delta : ℚ) / k.one < X - ⌊X / 10 ^ n'⌋ * 10 ^ n'

/-- R184: the result lies in the narrowed interval, with or without the refinement. -/
def Obligations.ResultLiesInTheNarrowedInterval : Prop :=
  ∀ (on : Bool) (v mm mp : Fp) (k : Working) (cdexp : Int) (r : Decimal),
    scale v mm mp = .ok (k, cdexp) → digitGen on v mm mp = .ok r →
    (k.mMinus : ℚ) / k.one ≤ decimalValue r.digits * 10 ^ (r.dexp + cdexp) ∧
    decimalValue r.digits * 10 ^ (r.dexp + cdexp) ≤ (k.mPlus : ℚ) / k.one

/-- R182, R183, R185: every result has 1 to 32 digits, each 0 to 9, the first and the last at least 1, and a decimal
exponent in [-355, 309]. -/
def Obligations.DigitsAreDecimalAndInRange : Prop :=
  ∀ (on : Bool) (v mm mp : Fp) (r : Decimal), digitGen on v mm mp = .ok r →
    1 ≤ r.digits.length ∧ r.digits.length ≤ 32 ∧ (∀ d ∈ r.digits, d ≤ 9) ∧
    (∃ d, r.digits.head? = some d ∧ 1 ≤ d) ∧ (∃ d, r.digits.getLast? = some d ∧ 1 ≤ d) ∧
    -355 ≤ r.dexp ∧ r.dexp ≤ 309

/-- R183: `ROUND_UNDERFLOW` is never raised, on any operands. -/
def Obligations.RoundUnderflowIsNeverRaised : Prop :=
  ∀ (on : Bool) (v mm mp : Fp), digitGen on v mm mp ≠ .error .roundUnderflow

/-- R179: what the refinement loop does to a last digit `d` with remainder `rest ≤ delta`. Each of its `j` decrements adds
`ten` to the remainder, which stays within `delta`; the result is as close to `dist` as any number of decrements that
stays within `delta` gets, and strictly closer than any smaller number of decrements (a tie keeps the larger digit).
So of a whole result: with the refinement only the last digit differs, by some `j`, and of all values so many units lower
that stay at or above `M_minus` the result is the closest to the scaled value, strictly closer than with fewer. -/
def Obligations.RefinementPicksTheClosest : Prop :=
  (∀ (delta dist ten d rest d' : Nat), rest ≤ delta → refineDigit delta dist ten d rest = .ok d' →
    d' ≤ d ∧ rest + (d - d') * ten ≤ delta ∧
    (∀ j : Nat, rest + j * ten ≤ delta →
      |((rest + (d - d') * ten : Nat) : Int) - dist| ≤ |((rest + j * ten : Nat) : Int) - dist|) ∧
    (∀ j : Nat, j < d - d' →
      |((rest + (d - d') * ten : Nat) : Int) - dist| < |((rest + j * ten : Nat) : Int) - dist|)) ∧
  (∀ (v mm mp : Fp) (k : Working) (cdexp : Int) (r₀ r : Decimal), scale v mm mp = .ok (k, cdexp) →
    digitGen false v mm mp = .ok r₀ → digitGen true v mm mp = .ok r →
    let w : ℚ := k.w / k.one
    let lowered (i : Nat) : ℚ := ((decimalValue r₀.digits : ℚ) - i) * 10 ^ (r₀.dexp + cdexp)
    r.dexp = r₀.dexp ∧ r.digits.length = r₀.digits.length ∧ r.digits.dropLast = r₀.digits.dropLast ∧
    ∃ j : Nat, decimalValue r.digits + j = decimalValue r₀.digits ∧ (k.mMinus : ℚ) / k.one ≤ lowered j ∧
      (∀ i : Nat, (k.mMinus : ℚ) / k.one ≤ lowered i → |lowered j - w| ≤ |lowered i - w|) ∧
      (∀ i : Nat, i < j → |lowered j - w| < |lowered i - w|))

/-- R170 to R175, R178: DIGITS on three valid registers: it commits the digits, or it faults, with the first cause its
checks reach. Unequal exponents are `DIGITS_PRECOND`, then an exponent with no ROM entry is `CPOW_RANGE`. With an entry
`c`, narrowing out of the u64 range, a scaled value outside `[M_minus, M_plus]` and `p1 = 0` are `DIGITS_PRECOND`. Then,
with `X = M_plus × 2^e` of `kk` integral digits, DIGITS completes exactly when some prefix of at most 32 digits of `X`
leaves at most `delta`, and is `DIGITS_OVERFLOW` when none does. A result is written as ASCII digits and zeros, its count
and its decimal exponent; no `Fp` register and not `CPK`. -/
def Obligations.DigitsWritesItsResultOrFaults : Prop :=
  ∀ (s : State) (v m p : FReg) (x mm mp : Fp),
    encode (.digits v m p) &&& 0xFFF888FF = 0x00000009 ∧
    (s.Holds v x → s.Holds m mm → s.Holds p mp →
      (∀ r : Decimal, digitGen s.prefine x mm mp = .ok r → ∃ bytes : Vector Byte 32,
        (∀ i : Fin 32, bytes[i] = match r.digits[i.val]? with
          | some d => BitVec.ofNat 8 (0x30 + d)
          | none => 0x00) ∧
        exec (.digits v m p) s = .next { s with
          dbuf := bytes, dlen := BitVec.ofNat 32 r.digits.length, dexp := BitVec.ofInt 32 r.dexp, pend := false }) ∧
      (∀ c, digitGen s.prefine x mm mp = .error c → Faults (.digits v m p) s c) ∧
      (¬(x.exp = mm.exp ∧ mm.exp = mp.exp) → Faults (.digits v m p) s .digitsPrecond) ∧
      (x.exp = mm.exp → mm.exp = mp.exp → mp.exp.toInt < -1137 ∨ 962 < mp.exp.toInt →
        Faults (.digits v m p) s .cpowRange) ∧
      (∀ c : RomEntry, x.exp = mm.exp → mm.exp = mp.exp → select mp.exp.toInt = .ok c →
        let high (a : Fp) : Nat := (a.sig.toNat * c.sig.toNat + 2 ^ 63) / 2 ^ 64
        let one : Nat := 2 ^ (-(mp.exp.toInt + c.bexp + 64)).toNat
        let mMinus : Nat := high mm + 1
        let mPlus : Nat := high mp - 1
        (high mm = 2 ^ 64 - 1 ∨ high mp = 0 ∨ high x < mMinus ∨ mPlus < high x ∨ mPlus / one = 0 →
          Faults (.digits v m p) s .digitsPrecond) ∧
        (¬(high mm = 2 ^ 64 - 1 ∨ high mp = 0 ∨ high x < mMinus ∨ mPlus < high x ∨ mPlus / one = 0) →
          let X : ℚ := mPlus / one
          let fits (n : Int) : Prop := X - ⌊X / 10 ^ n⌋ * 10 ^ n ≤ ((mPlus - mMinus : Nat) : ℚ) / one
          ∀ kk : Int, (10 : ℚ) ^ (kk - 1) ≤ X → X < 10 ^ kk →
            ((∃ n : Int, kk - 32 ≤ n ∧ n < kk ∧ fits n) → ∃ r : Decimal, digitGen s.prefine x mm mp = .ok r) ∧
            ((∀ n : Int, kk - 32 ≤ n → n < kk → ¬fits n) → Faults (.digits v m p) s .digitsOverflow))))

/-- R189: DIGITS with two equal register fields always faults: `DIGITS_PRECOND`, unless an earlier check faults first: an
invalid register, or one common exponent the selector takes no entry for. -/
def Obligations.AliasedDigitsFault : Prop :=
  ∀ (s : State) (v m p : FReg), v = m ∨ v = p ∨ m = p →
    (s.f[v].valid = false ∨ s.f[m].valid = false ∨ s.f[p].valid = false → Faults (.digits v m p) s .uninit) ∧
    (∀ x mm mp : Fp, s.Holds v x → s.Holds m mm → s.Holds p mp →
      (x.exp = mm.exp → mm.exp = mp.exp → mp.exp.toInt < -1137 ∨ 962 < mp.exp.toInt →
        Faults (.digits v m p) s .cpowRange) ∧
      (¬(x.exp = mm.exp ∧ mm.exp = mp.exp ∧ (mp.exp.toInt < -1137 ∨ 962 < mp.exp.toInt)) →
        Faults (.digits v m p) s .digitsPrecond))

/-- R186, the headline: DIGITS never faults on operands that BOUND produced. For every finite non-zero pattern of either
precision, in every state whose three registers hold its boundary triple, DIGITS commits a result, with at most 17 digits
for binary64 and 9 for binary32 (DOC §4.5 Output). -/
def Obligations.BoundThenDigitsNeverFaults : Prop :=
  ∀ (p : Prec) (arg : DWord) (t : BoundTriple), boundTriple p.desc (fields p arg) = .ok t →
    ∀ (s : State) (rv rm rp : FReg), s.Holds rv t.v → s.Holds rm t.minus → s.Holds rp t.plus →
    ∃ r : Decimal, digitGen s.prefine t.v t.minus t.plus = .ok r ∧
      1 ≤ r.digits.length ∧ r.digits.length ≤ (match p with | .double => 17 | .single => 9) ∧
      exec (.digits rv rm rp) s = .next { s with
        dbuf := digitBytes r.digits, dlen := BitVec.ofNat 32 r.digits.length, dexp := BitVec.ofInt 32 r.dexp,
        pend := false }

/-- R170's example: the boundary triple of 1.0 gives `DBUF` = "1" and 31 zero bytes, `DLEN` = 1 and `DEXP` = 0, with
`PREFINE` either way. -/
def Obligations.DigitsOfOne : Prop :=
  ∀ s : State, s.Holds 0 ⟨0x8000000000000000, BitVec.ofInt 32 (-63)⟩ →
    s.Holds 1 ⟨0x7FFFFFFFFFFFFE00, BitVec.ofInt 32 (-63)⟩ → s.Holds 2 ⟨0x8000000000000400, BitVec.ofInt 32 (-63)⟩ →
    exec (.digits 0 1 2) s = .next { s with
      dbuf := (Vector.replicate 32 0x00).set 0 0x31, dlen := 1, dexp := 0, pend := false }
end

