-- ==== Sys2Proof/Laws/State.lean ====
section
/-! SUPPORT. What each update of the state leaves in each field: one lemma per field and update, true by unfolding, so
that no later proof unfolds a record update. -/

namespace Sys2Proof.Machine

variable (s : State)

/-! ## `F[i] <- x` -/

@[simp] theorem State.writeF_f (i : FReg) (x : Fp) : (s.writeF i x).f = s.f.set i ⟨x.sig, x.exp, true⟩ := rfl
@[simp] theorem State.writeF_argSig (i : FReg) (x : Fp) : (s.writeF i x).argSig = s.argSig := rfl
@[simp] theorem State.writeF_argExp (i : FReg) (x : Fp) : (s.writeF i x).argExp = s.argExp := rfl
@[simp] theorem State.writeF_refine (i : FReg) (x : Fp) : (s.writeF i x).refine = s.refine := rfl
@[simp] theorem State.writeF_fault (i : FReg) (x : Fp) : (s.writeF i x).fault = s.fault := rfl
@[simp] theorem State.writeF_cause (i : FReg) (x : Fp) : (s.writeF i x).cause = s.cause := rfl
@[simp] theorem State.writeF_fcmd (i : FReg) (x : Fp) : (s.writeF i x).fcmd = s.fcmd := rfl
@[simp] theorem State.writeF_cls (i : FReg) (x : Fp) : (s.writeF i x).cls = s.cls := rfl
@[simp] theorem State.writeF_csig (i : FReg) (x : Fp) : (s.writeF i x).csig = s.csig := rfl
@[simp] theorem State.writeF_cpk (i : FReg) (x : Fp) : (s.writeF i x).cpk = s.cpk := rfl
@[simp] theorem State.writeF_dbuf (i : FReg) (x : Fp) : (s.writeF i x).dbuf = s.dbuf := rfl
@[simp] theorem State.writeF_dlen (i : FReg) (x : Fp) : (s.writeF i x).dlen = s.dlen := rfl
@[simp] theorem State.writeF_dexp (i : FReg) (x : Fp) : (s.writeF i x).dexp = s.dexp := rfl
@[simp] theorem State.writeF_pend (i : FReg) (x : Fp) : (s.writeF i x).pend = s.pend := rfl
@[simp] theorem State.writeF_pcmd (i : FReg) (x : Fp) : (s.writeF i x).pcmd = s.pcmd := rfl
@[simp] theorem State.writeF_pargSig (i : FReg) (x : Fp) : (s.writeF i x).pargSig = s.pargSig := rfl
@[simp] theorem State.writeF_pargExp (i : FReg) (x : Fp) : (s.writeF i x).pargExp = s.pargExp := rfl
@[simp] theorem State.writeF_prefine (i : FReg) (x : Fp) : (s.writeF i x).prefine = s.prefine := rfl
@[simp] theorem State.writeF_prog (i : FReg) (x : Fp) : (s.writeF i x).prog = s.prog := rfl
@[simp] theorem State.writeF_sched (i : FReg) (x : Fp) : (s.writeF i x).sched = s.sched := rfl
@[simp] theorem State.writeF_reads (i : FReg) (x : Fp) : (s.writeF i x).reads = s.reads := rfl
@[simp] theorem State.writeF_draws (i : FReg) (x : Fp) : (s.writeF i x).draws = s.draws := rfl

/-! ## `commit` -/

@[simp] theorem State.commit_f : s.commit.f = s.f := rfl
@[simp] theorem State.commit_argSig : s.commit.argSig = s.argSig := rfl
@[simp] theorem State.commit_argExp : s.commit.argExp = s.argExp := rfl
@[simp] theorem State.commit_refine : s.commit.refine = s.refine := rfl
@[simp] theorem State.commit_fault : s.commit.fault = s.fault := rfl
@[simp] theorem State.commit_cause : s.commit.cause = s.cause := rfl
@[simp] theorem State.commit_fcmd : s.commit.fcmd = s.fcmd := rfl
@[simp] theorem State.commit_cls : s.commit.cls = s.cls := rfl
@[simp] theorem State.commit_csig : s.commit.csig = s.csig := rfl
@[simp] theorem State.commit_cpk : s.commit.cpk = s.cpk := rfl
@[simp] theorem State.commit_dbuf : s.commit.dbuf = s.dbuf := rfl
@[simp] theorem State.commit_dlen : s.commit.dlen = s.dlen := rfl
@[simp] theorem State.commit_dexp : s.commit.dexp = s.dexp := rfl
@[simp] theorem State.commit_pend : s.commit.pend = false := rfl
@[simp] theorem State.commit_pcmd : s.commit.pcmd = s.pcmd := rfl
@[simp] theorem State.commit_pargSig : s.commit.pargSig = s.pargSig := rfl
@[simp] theorem State.commit_pargExp : s.commit.pargExp = s.pargExp := rfl
@[simp] theorem State.commit_prefine : s.commit.prefine = s.prefine := rfl
@[simp] theorem State.commit_prog : s.commit.prog = s.prog := rfl
@[simp] theorem State.commit_sched : s.commit.sched = s.sched := rfl
@[simp] theorem State.commit_reads : s.commit.reads = s.reads := rfl
@[simp] theorem State.commit_draws : s.commit.draws = s.draws := rfl

/-! ## fault entry -/

@[simp] theorem State.takeFault_f (c : Cause) (w : Word) : (s.takeFault c w).f = s.f := rfl
@[simp] theorem State.takeFault_argSig (c : Cause) (w : Word) : (s.takeFault c w).argSig = s.argSig := rfl
@[simp] theorem State.takeFault_argExp (c : Cause) (w : Word) : (s.takeFault c w).argExp = s.argExp := rfl
@[simp] theorem State.takeFault_refine (c : Cause) (w : Word) : (s.takeFault c w).refine = s.refine := rfl
@[simp] theorem State.takeFault_fault (c : Cause) (w : Word) : (s.takeFault c w).fault = true := rfl
@[simp] theorem State.takeFault_cause (c : Cause) (w : Word) : (s.takeFault c w).cause = c := rfl
@[simp] theorem State.takeFault_fcmd (c : Cause) (w : Word) : (s.takeFault c w).fcmd = w := rfl
@[simp] theorem State.takeFault_cls (c : Cause) (w : Word) : (s.takeFault c w).cls = s.cls := rfl
@[simp] theorem State.takeFault_csig (c : Cause) (w : Word) : (s.takeFault c w).csig = s.csig := rfl
@[simp] theorem State.takeFault_cpk (c : Cause) (w : Word) : (s.takeFault c w).cpk = s.cpk := rfl
@[simp] theorem State.takeFault_dbuf (c : Cause) (w : Word) : (s.takeFault c w).dbuf = s.dbuf := rfl
@[simp] theorem State.takeFault_dlen (c : Cause) (w : Word) : (s.takeFault c w).dlen = s.dlen := rfl
@[simp] theorem State.takeFault_dexp (c : Cause) (w : Word) : (s.takeFault c w).dexp = s.dexp := rfl
@[simp] theorem State.takeFault_pend (c : Cause) (w : Word) : (s.takeFault c w).pend = false := rfl
@[simp] theorem State.takeFault_pcmd (c : Cause) (w : Word) : (s.takeFault c w).pcmd = s.pcmd := rfl
@[simp] theorem State.takeFault_pargSig (c : Cause) (w : Word) : (s.takeFault c w).pargSig = s.pargSig := rfl
@[simp] theorem State.takeFault_pargExp (c : Cause) (w : Word) : (s.takeFault c w).pargExp = s.pargExp := rfl
@[simp] theorem State.takeFault_prefine (c : Cause) (w : Word) : (s.takeFault c w).prefine = s.prefine := rfl
@[simp] theorem State.takeFault_prog (c : Cause) (w : Word) : (s.takeFault c w).prog = s.prog := rfl
@[simp] theorem State.takeFault_sched (c : Cause) (w : Word) : (s.takeFault c w).sched = s.sched := rfl
@[simp] theorem State.takeFault_reads (c : Cause) (w : Word) : (s.takeFault c w).reads = s.reads := rfl
@[simp] theorem State.takeFault_draws (c : Cause) (w : Word) : (s.takeFault c w).draws = s.draws := rfl

/-! ## fault entry as claims write it -/

@[simp] theorem State.faulted_f (c : Cause) : (s.faulted c).f = s.f := rfl
@[simp] theorem State.faulted_argSig (c : Cause) : (s.faulted c).argSig = s.argSig := rfl
@[simp] theorem State.faulted_argExp (c : Cause) : (s.faulted c).argExp = s.argExp := rfl
@[simp] theorem State.faulted_refine (c : Cause) : (s.faulted c).refine = s.refine := rfl
@[simp] theorem State.faulted_fault (c : Cause) : (s.faulted c).fault = true := rfl
@[simp] theorem State.faulted_cause (c : Cause) : (s.faulted c).cause = c := rfl
@[simp] theorem State.faulted_fcmd (c : Cause) : (s.faulted c).fcmd = s.pcmd := rfl
@[simp] theorem State.faulted_cls (c : Cause) : (s.faulted c).cls = s.cls := rfl
@[simp] theorem State.faulted_csig (c : Cause) : (s.faulted c).csig = s.csig := rfl
@[simp] theorem State.faulted_cpk (c : Cause) : (s.faulted c).cpk = s.cpk := rfl
@[simp] theorem State.faulted_dbuf (c : Cause) : (s.faulted c).dbuf = s.dbuf := rfl
@[simp] theorem State.faulted_dlen (c : Cause) : (s.faulted c).dlen = s.dlen := rfl
@[simp] theorem State.faulted_dexp (c : Cause) : (s.faulted c).dexp = s.dexp := rfl
@[simp] theorem State.faulted_pend (c : Cause) : (s.faulted c).pend = false := rfl
@[simp] theorem State.faulted_pcmd (c : Cause) : (s.faulted c).pcmd = s.pcmd := rfl
@[simp] theorem State.faulted_pargSig (c : Cause) : (s.faulted c).pargSig = s.pargSig := rfl
@[simp] theorem State.faulted_pargExp (c : Cause) : (s.faulted c).pargExp = s.pargExp := rfl
@[simp] theorem State.faulted_prefine (c : Cause) : (s.faulted c).prefine = s.prefine := rfl
@[simp] theorem State.faulted_prog (c : Cause) : (s.faulted c).prog = s.prog := rfl
@[simp] theorem State.faulted_sched (c : Cause) : (s.faulted c).sched = s.sched := rfl
@[simp] theorem State.faulted_reads (c : Cause) : (s.faulted c).reads = s.reads := rfl
@[simp] theorem State.faulted_draws (c : Cause) : (s.faulted c).draws = s.draws := rfl

/-! ## the latching of a command -/

@[simp] theorem State.latch_f (w : Word) : (s.latch w).f = s.f := rfl
@[simp] theorem State.latch_argSig (w : Word) : (s.latch w).argSig = s.argSig := rfl
@[simp] theorem State.latch_argExp (w : Word) : (s.latch w).argExp = s.argExp := rfl
@[simp] theorem State.latch_refine (w : Word) : (s.latch w).refine = s.refine := rfl
@[simp] theorem State.latch_fault (w : Word) : (s.latch w).fault = s.fault := rfl
@[simp] theorem State.latch_cause (w : Word) : (s.latch w).cause = s.cause := rfl
@[simp] theorem State.latch_fcmd (w : Word) : (s.latch w).fcmd = s.fcmd := rfl
@[simp] theorem State.latch_cls (w : Word) : (s.latch w).cls = s.cls := rfl
@[simp] theorem State.latch_csig (w : Word) : (s.latch w).csig = s.csig := rfl
@[simp] theorem State.latch_cpk (w : Word) : (s.latch w).cpk = s.cpk := rfl
@[simp] theorem State.latch_dbuf (w : Word) : (s.latch w).dbuf = s.dbuf := rfl
@[simp] theorem State.latch_dlen (w : Word) : (s.latch w).dlen = s.dlen := rfl
@[simp] theorem State.latch_dexp (w : Word) : (s.latch w).dexp = s.dexp := rfl
@[simp] theorem State.latch_pend (w : Word) : (s.latch w).pend = true := rfl
@[simp] theorem State.latch_pcmd (w : Word) : (s.latch w).pcmd = w := rfl
@[simp] theorem State.latch_pargSig (w : Word) : (s.latch w).pargSig = s.argSig := rfl
@[simp] theorem State.latch_pargExp (w : Word) : (s.latch w).pargExp = s.argExp := rfl
@[simp] theorem State.latch_prefine (w : Word) : (s.latch w).prefine = s.refine := rfl
@[simp] theorem State.latch_prog (w : Word) : (s.latch w).prog = s.prog := rfl
@[simp] theorem State.latch_sched (w : Word) : (s.latch w).sched = s.sched := rfl
@[simp] theorem State.latch_reads (w : Word) : (s.latch w).reads = s.reads := rfl
@[simp] theorem State.latch_draws (w : Word) : (s.latch w).draws = s.draws := rfl

/-! ## the writes of FCLASS -/

@[simp] theorem State.writeClass_f (p : Prec) (x : FloatFields) : (s.writeClass p x).f = s.f := rfl
@[simp] theorem State.writeClass_argSig (p : Prec) (x : FloatFields) : (s.writeClass p x).argSig = s.argSig := rfl
@[simp] theorem State.writeClass_argExp (p : Prec) (x : FloatFields) : (s.writeClass p x).argExp = s.argExp := rfl
@[simp] theorem State.writeClass_refine (p : Prec) (x : FloatFields) : (s.writeClass p x).refine = s.refine := rfl
@[simp] theorem State.writeClass_fault (p : Prec) (x : FloatFields) : (s.writeClass p x).fault = s.fault := rfl
@[simp] theorem State.writeClass_cause (p : Prec) (x : FloatFields) : (s.writeClass p x).cause = s.cause := rfl
@[simp] theorem State.writeClass_fcmd (p : Prec) (x : FloatFields) : (s.writeClass p x).fcmd = s.fcmd := rfl
@[simp] theorem State.writeClass_cls (p : Prec) (x : FloatFields) : (s.writeClass p x).cls = classWord p x := rfl
@[simp] theorem State.writeClass_csig (p : Prec) (x : FloatFields) : (s.writeClass p x).csig = BitVec.ofNat 64 x.f := rfl
@[simp] theorem State.writeClass_cpk (p : Prec) (x : FloatFields) : (s.writeClass p x).cpk = s.cpk := rfl
@[simp] theorem State.writeClass_dbuf (p : Prec) (x : FloatFields) : (s.writeClass p x).dbuf = s.dbuf := rfl
@[simp] theorem State.writeClass_dlen (p : Prec) (x : FloatFields) : (s.writeClass p x).dlen = s.dlen := rfl
@[simp] theorem State.writeClass_dexp (p : Prec) (x : FloatFields) : (s.writeClass p x).dexp = s.dexp := rfl
@[simp] theorem State.writeClass_pend (p : Prec) (x : FloatFields) : (s.writeClass p x).pend = s.pend := rfl
@[simp] theorem State.writeClass_pcmd (p : Prec) (x : FloatFields) : (s.writeClass p x).pcmd = s.pcmd := rfl
@[simp] theorem State.writeClass_pargSig (p : Prec) (x : FloatFields) : (s.writeClass p x).pargSig = s.pargSig := rfl
@[simp] theorem State.writeClass_pargExp (p : Prec) (x : FloatFields) : (s.writeClass p x).pargExp = s.pargExp := rfl
@[simp] theorem State.writeClass_prefine (p : Prec) (x : FloatFields) : (s.writeClass p x).prefine = s.prefine := rfl
@[simp] theorem State.writeClass_prog (p : Prec) (x : FloatFields) : (s.writeClass p x).prog = s.prog := rfl
@[simp] theorem State.writeClass_sched (p : Prec) (x : FloatFields) : (s.writeClass p x).sched = s.sched := rfl
@[simp] theorem State.writeClass_reads (p : Prec) (x : FloatFields) : (s.writeClass p x).reads = s.reads := rfl
@[simp] theorem State.writeClass_draws (p : Prec) (x : FloatFields) : (s.writeClass p x).draws = s.draws := rfl

/-! ## the write of `CPK` -/

@[simp] theorem State.writeCpk_f (dexp : Int) : (s.writeCpk dexp).f = s.f := rfl
@[simp] theorem State.writeCpk_argSig (dexp : Int) : (s.writeCpk dexp).argSig = s.argSig := rfl
@[simp] theorem State.writeCpk_argExp (dexp : Int) : (s.writeCpk dexp).argExp = s.argExp := rfl
@[simp] theorem State.writeCpk_refine (dexp : Int) : (s.writeCpk dexp).refine = s.refine := rfl
@[simp] theorem State.writeCpk_fault (dexp : Int) : (s.writeCpk dexp).fault = s.fault := rfl
@[simp] theorem State.writeCpk_cause (dexp : Int) : (s.writeCpk dexp).cause = s.cause := rfl
@[simp] theorem State.writeCpk_fcmd (dexp : Int) : (s.writeCpk dexp).fcmd = s.fcmd := rfl
@[simp] theorem State.writeCpk_cls (dexp : Int) : (s.writeCpk dexp).cls = s.cls := rfl
@[simp] theorem State.writeCpk_csig (dexp : Int) : (s.writeCpk dexp).csig = s.csig := rfl
@[simp] theorem State.writeCpk_cpk (dexp : Int) : (s.writeCpk dexp).cpk = BitVec.ofInt 32 dexp := rfl
@[simp] theorem State.writeCpk_dbuf (dexp : Int) : (s.writeCpk dexp).dbuf = s.dbuf := rfl
@[simp] theorem State.writeCpk_dlen (dexp : Int) : (s.writeCpk dexp).dlen = s.dlen := rfl
@[simp] theorem State.writeCpk_dexp (dexp : Int) : (s.writeCpk dexp).dexp = s.dexp := rfl
@[simp] theorem State.writeCpk_pend (dexp : Int) : (s.writeCpk dexp).pend = s.pend := rfl
@[simp] theorem State.writeCpk_pcmd (dexp : Int) : (s.writeCpk dexp).pcmd = s.pcmd := rfl
@[simp] theorem State.writeCpk_pargSig (dexp : Int) : (s.writeCpk dexp).pargSig = s.pargSig := rfl
@[simp] theorem State.writeCpk_pargExp (dexp : Int) : (s.writeCpk dexp).pargExp = s.pargExp := rfl
@[simp] theorem State.writeCpk_prefine (dexp : Int) : (s.writeCpk dexp).prefine = s.prefine := rfl
@[simp] theorem State.writeCpk_prog (dexp : Int) : (s.writeCpk dexp).prog = s.prog := rfl
@[simp] theorem State.writeCpk_sched (dexp : Int) : (s.writeCpk dexp).sched = s.sched := rfl
@[simp] theorem State.writeCpk_reads (dexp : Int) : (s.writeCpk dexp).reads = s.reads := rfl
@[simp] theorem State.writeCpk_draws (dexp : Int) : (s.writeCpk dexp).draws = s.draws := rfl

/-! ## the writes of DIGITS -/

@[simp] theorem State.writeDigits_f (r : Decimal) : (s.writeDigits r).f = s.f := rfl
@[simp] theorem State.writeDigits_argSig (r : Decimal) : (s.writeDigits r).argSig = s.argSig := rfl
@[simp] theorem State.writeDigits_argExp (r : Decimal) : (s.writeDigits r).argExp = s.argExp := rfl
@[simp] theorem State.writeDigits_refine (r : Decimal) : (s.writeDigits r).refine = s.refine := rfl
@[simp] theorem State.writeDigits_fault (r : Decimal) : (s.writeDigits r).fault = s.fault := rfl
@[simp] theorem State.writeDigits_cause (r : Decimal) : (s.writeDigits r).cause = s.cause := rfl
@[simp] theorem State.writeDigits_fcmd (r : Decimal) : (s.writeDigits r).fcmd = s.fcmd := rfl
@[simp] theorem State.writeDigits_cls (r : Decimal) : (s.writeDigits r).cls = s.cls := rfl
@[simp] theorem State.writeDigits_csig (r : Decimal) : (s.writeDigits r).csig = s.csig := rfl
@[simp] theorem State.writeDigits_cpk (r : Decimal) : (s.writeDigits r).cpk = s.cpk := rfl
@[simp] theorem State.writeDigits_dbuf (r : Decimal) : (s.writeDigits r).dbuf = digitBytes r.digits := rfl
@[simp] theorem State.writeDigits_dlen (r : Decimal) : (s.writeDigits r).dlen = BitVec.ofNat 32 r.digits.length := rfl
@[simp] theorem State.writeDigits_dexp (r : Decimal) : (s.writeDigits r).dexp = BitVec.ofInt 32 r.dexp := rfl
@[simp] theorem State.writeDigits_pend (r : Decimal) : (s.writeDigits r).pend = s.pend := rfl
@[simp] theorem State.writeDigits_pcmd (r : Decimal) : (s.writeDigits r).pcmd = s.pcmd := rfl
@[simp] theorem State.writeDigits_pargSig (r : Decimal) : (s.writeDigits r).pargSig = s.pargSig := rfl
@[simp] theorem State.writeDigits_pargExp (r : Decimal) : (s.writeDigits r).pargExp = s.pargExp := rfl
@[simp] theorem State.writeDigits_prefine (r : Decimal) : (s.writeDigits r).prefine = s.prefine := rfl
@[simp] theorem State.writeDigits_prog (r : Decimal) : (s.writeDigits r).prog = s.prog := rfl
@[simp] theorem State.writeDigits_sched (r : Decimal) : (s.writeDigits r).sched = s.sched := rfl
@[simp] theorem State.writeDigits_reads (r : Decimal) : (s.writeDigits r).reads = s.reads := rfl
@[simp] theorem State.writeDigits_draws (r : Decimal) : (s.writeDigits r).draws = s.draws := rfl

/-! ## a turn's use of the schedule -/

@[simp] theorem State.nextTurn_f : s.nextTurn.f = s.f := rfl
@[simp] theorem State.nextTurn_argSig : s.nextTurn.argSig = s.argSig := rfl
@[simp] theorem State.nextTurn_argExp : s.nextTurn.argExp = s.argExp := rfl
@[simp] theorem State.nextTurn_refine : s.nextTurn.refine = s.refine := rfl
@[simp] theorem State.nextTurn_fault : s.nextTurn.fault = s.fault := rfl
@[simp] theorem State.nextTurn_cause : s.nextTurn.cause = s.cause := rfl
@[simp] theorem State.nextTurn_fcmd : s.nextTurn.fcmd = s.fcmd := rfl
@[simp] theorem State.nextTurn_cls : s.nextTurn.cls = s.cls := rfl
@[simp] theorem State.nextTurn_csig : s.nextTurn.csig = s.csig := rfl
@[simp] theorem State.nextTurn_cpk : s.nextTurn.cpk = s.cpk := rfl
@[simp] theorem State.nextTurn_dbuf : s.nextTurn.dbuf = s.dbuf := rfl
@[simp] theorem State.nextTurn_dlen : s.nextTurn.dlen = s.dlen := rfl
@[simp] theorem State.nextTurn_dexp : s.nextTurn.dexp = s.dexp := rfl
@[simp] theorem State.nextTurn_pend : s.nextTurn.pend = s.pend := rfl
@[simp] theorem State.nextTurn_pcmd : s.nextTurn.pcmd = s.pcmd := rfl
@[simp] theorem State.nextTurn_pargSig : s.nextTurn.pargSig = s.pargSig := rfl
@[simp] theorem State.nextTurn_pargExp : s.nextTurn.pargExp = s.pargExp := rfl
@[simp] theorem State.nextTurn_prefine : s.nextTurn.prefine = s.prefine := rfl
@[simp] theorem State.nextTurn_prog : s.nextTurn.prog = s.prog := rfl
@[simp] theorem State.nextTurn_sched : s.nextTurn.sched = s.sched.tail := rfl
@[simp] theorem State.nextTurn_reads : s.nextTurn.reads = s.reads := rfl
@[simp] theorem State.nextTurn_draws : s.nextTurn.draws = s.draws := rfl

/-! ## a reset -/

@[simp] theorem State.resetUnit_f : s.resetUnit.f = State.reset.f := rfl
@[simp] theorem State.resetUnit_argSig : s.resetUnit.argSig = State.reset.argSig := rfl
@[simp] theorem State.resetUnit_argExp : s.resetUnit.argExp = State.reset.argExp := rfl
@[simp] theorem State.resetUnit_refine : s.resetUnit.refine = State.reset.refine := rfl
@[simp] theorem State.resetUnit_fault : s.resetUnit.fault = State.reset.fault := rfl
@[simp] theorem State.resetUnit_cause : s.resetUnit.cause = State.reset.cause := rfl
@[simp] theorem State.resetUnit_fcmd : s.resetUnit.fcmd = State.reset.fcmd := rfl
@[simp] theorem State.resetUnit_cls : s.resetUnit.cls = State.reset.cls := rfl
@[simp] theorem State.resetUnit_csig : s.resetUnit.csig = State.reset.csig := rfl
@[simp] theorem State.resetUnit_cpk : s.resetUnit.cpk = State.reset.cpk := rfl
@[simp] theorem State.resetUnit_dbuf : s.resetUnit.dbuf = State.reset.dbuf := rfl
@[simp] theorem State.resetUnit_dlen : s.resetUnit.dlen = State.reset.dlen := rfl
@[simp] theorem State.resetUnit_dexp : s.resetUnit.dexp = State.reset.dexp := rfl
@[simp] theorem State.resetUnit_pend : s.resetUnit.pend = State.reset.pend := rfl
@[simp] theorem State.resetUnit_pcmd : s.resetUnit.pcmd = State.reset.pcmd := rfl
@[simp] theorem State.resetUnit_pargSig : s.resetUnit.pargSig = State.reset.pargSig := rfl
@[simp] theorem State.resetUnit_pargExp : s.resetUnit.pargExp = State.reset.pargExp := rfl
@[simp] theorem State.resetUnit_prefine : s.resetUnit.prefine = State.reset.prefine := rfl
@[simp] theorem State.resetUnit_prog : s.resetUnit.prog = s.prog := rfl
@[simp] theorem State.resetUnit_sched : s.resetUnit.sched = s.sched := rfl
@[simp] theorem State.resetUnit_reads : s.resetUnit.reads = s.reads := rfl
@[simp] theorem State.resetUnit_draws : s.resetUnit.draws = s.draws := rfl

/-! ## the host's remaining operations -/

@[simp] theorem State.withProg_f (more : List HostOp) : (s.withProg more).f = s.f := rfl
@[simp] theorem State.withProg_argSig (more : List HostOp) : (s.withProg more).argSig = s.argSig := rfl
@[simp] theorem State.withProg_argExp (more : List HostOp) : (s.withProg more).argExp = s.argExp := rfl
@[simp] theorem State.withProg_refine (more : List HostOp) : (s.withProg more).refine = s.refine := rfl
@[simp] theorem State.withProg_fault (more : List HostOp) : (s.withProg more).fault = s.fault := rfl
@[simp] theorem State.withProg_cause (more : List HostOp) : (s.withProg more).cause = s.cause := rfl
@[simp] theorem State.withProg_fcmd (more : List HostOp) : (s.withProg more).fcmd = s.fcmd := rfl
@[simp] theorem State.withProg_cls (more : List HostOp) : (s.withProg more).cls = s.cls := rfl
@[simp] theorem State.withProg_csig (more : List HostOp) : (s.withProg more).csig = s.csig := rfl
@[simp] theorem State.withProg_cpk (more : List HostOp) : (s.withProg more).cpk = s.cpk := rfl
@[simp] theorem State.withProg_dbuf (more : List HostOp) : (s.withProg more).dbuf = s.dbuf := rfl
@[simp] theorem State.withProg_dlen (more : List HostOp) : (s.withProg more).dlen = s.dlen := rfl
@[simp] theorem State.withProg_dexp (more : List HostOp) : (s.withProg more).dexp = s.dexp := rfl
@[simp] theorem State.withProg_pend (more : List HostOp) : (s.withProg more).pend = s.pend := rfl
@[simp] theorem State.withProg_pcmd (more : List HostOp) : (s.withProg more).pcmd = s.pcmd := rfl
@[simp] theorem State.withProg_pargSig (more : List HostOp) : (s.withProg more).pargSig = s.pargSig := rfl
@[simp] theorem State.withProg_pargExp (more : List HostOp) : (s.withProg more).pargExp = s.pargExp := rfl
@[simp] theorem State.withProg_prefine (more : List HostOp) : (s.withProg more).prefine = s.prefine := rfl
@[simp] theorem State.withProg_prog (more : List HostOp) : (s.withProg more).prog = more := rfl
@[simp] theorem State.withProg_sched (more : List HostOp) : (s.withProg more).sched = s.sched := rfl
@[simp] theorem State.withProg_reads (more : List HostOp) : (s.withProg more).reads = s.reads := rfl
@[simp] theorem State.withProg_draws (more : List HostOp) : (s.withProg more).draws = s.draws := rfl

/-! ## The state after reset -/

@[simp] theorem State.reset_argSig : State.reset.argSig = 0 := rfl
@[simp] theorem State.reset_argExp : State.reset.argExp = 0 := rfl
@[simp] theorem State.reset_refine : State.reset.refine = true := rfl
@[simp] theorem State.reset_fault : State.reset.fault = false := rfl
@[simp] theorem State.reset_cause : State.reset.cause = .none := rfl
@[simp] theorem State.reset_fcmd : State.reset.fcmd = 0 := rfl
@[simp] theorem State.reset_cls : State.reset.cls = 0 := rfl
@[simp] theorem State.reset_csig : State.reset.csig = 0 := rfl
@[simp] theorem State.reset_cpk : State.reset.cpk = 0 := rfl
@[simp] theorem State.reset_dlen : State.reset.dlen = 0 := rfl
@[simp] theorem State.reset_dexp : State.reset.dexp = 0 := rfl
@[simp] theorem State.reset_pend : State.reset.pend = false := rfl
@[simp] theorem State.reset_prog : State.reset.prog = [] := rfl
@[simp] theorem State.reset_sched : State.reset.sched = [] := rfl
@[simp] theorem State.reset_reads : State.reset.reads = [] := rfl
@[simp] theorem State.reset_draws : State.reset.draws = 0 := rfl

theorem State.reset_valid (i : FReg) : State.reset.f[i].valid = false := by
  simp [State.reset]

theorem State.takeFault_pcmd_eq_faulted (c : Cause) : s.takeFault c s.pcmd = s.faulted c := rfl

end Sys2Proof.Machine
end

