-- ==== Sys2Proof/Laws/Ops.lean ====
section
/-! SUPPORT. One lemma per shared operation that says everything it can do: reading and writing an `Fp` register, how a
command ends, issue, reset, and the writes of BOUND. -/

namespace Sys2Proof.Machine

/-! ## Reading a register -/

theorem readF_of_holds {s : State} {i : FReg} {x : Fp} (h : s.Holds i x) : s.readF i = .ok x := by
  have h' : s.f[i] = ⟨x.sig, x.exp, true⟩ := h
  rw [State.readF, h', if_pos rfl]

theorem readF_of_invalid {s : State} {i : FReg} (h : s.f[i].valid = false) : s.readF i = .error .uninit := by
  rw [State.readF, if_neg (by rw [h]; decide)]

/-- Everything a register read can do: give the pair a valid register holds, or `UNINIT` for an invalid one. -/
theorem readF_cases (s : State) (i : FReg) :
    (∃ x, s.Holds i x ∧ s.readF i = .ok x) ∨ (s.f[i].valid = false ∧ s.readF i = .error .uninit) := by
  cases h : s.f[i].valid with
  | true =>
    have hh : s.Holds i ⟨s.f[i].sig, s.f[i].exp⟩ := by
      show s.f[i] = ⟨s.f[i].sig, s.f[i].exp, true⟩
      rw [← h]
    exact .inl ⟨_, hh, readF_of_holds hh⟩
  | false => exact .inr ⟨rfl, readF_of_invalid h⟩

theorem holds_unique {s : State} {i : FReg} {x y : Fp} (hx : s.Holds i x) (hy : s.Holds i y) : x = y := by
  have h : (⟨x.sig, x.exp, true⟩ : FpReg) = ⟨y.sig, y.exp, true⟩ := by
    rw [← show s.f[i] = _ from hx, ← show s.f[i] = _ from hy]
  cases x; cases y; simp_all

/-! ## Writing a register -/

@[simp] theorem writeF_get_self (s : State) (i : FReg) (x : Fp) : (s.writeF i x).f[i] = ⟨x.sig, x.exp, true⟩ := by
  simp

theorem writeF_get_of_ne (s : State) {i j : FReg} (x : Fp) (h : j ≠ i) : (s.writeF i x).f[j] = s.f[j] := by
  have : i.val ≠ j.val := fun e => h (Fin.ext e.symm)
  simp [this]

theorem writeF_holds (s : State) (i : FReg) (x : Fp) : (s.writeF i x).Holds i x := writeF_get_self s i x

/-- The writes of BOUND leave every other register. -/
theorem writeTriple_get_of_ne (s : State) {v m p j : FReg} (t : BoundTriple) (hv : j ≠ v) (hm : j ≠ m) (hp : j ≠ p) :
    (s.writeTriple v m p t).f[j] = s.f[j] := by
  rw [State.writeTriple, writeF_get_of_ne _ _ hp, writeF_get_of_ne _ _ hm, writeF_get_of_ne _ _ hv]

/-! ## How a command ends -/

/-- Everything `finish` can do: commit the writes, or take the fault entry from the state before them. -/
theorem finish_cases {s t : State} {r : Except Cause State} (h : finish s r = .next t) :
    (∃ s', r = .ok s' ∧ t = s'.commit) ∨ (∃ c, r = .error c ∧ t = s.faulted c) := by
  cases r with
  | ok s' => exact .inl ⟨s', rfl, by simpa [finish] using h.symm⟩
  | error c => exact .inr ⟨c, rfl, by simpa [finish, State.takeFault_pcmd_eq_faulted] using h.symm⟩

@[simp] theorem finish_ok (s s' : State) : finish s (.ok s') = .next s'.commit := rfl

@[simp] theorem finish_error (s : State) (c : Cause) : finish s (.error c) = .next (s.faulted c) := rfl

/-! ## Issue -/

theorem issue_of_halted {s : State} (v : Word) (h : s.fault = true) : s.issue v = s := by simp [State.issue, h]

theorem issue_of_busy {s : State} (v : Word) (hf : s.fault = false) (hp : s.pend = true) :
    s.issue v = s.takeFault .overrun v := by simp [State.issue, hf, hp]

theorem issue_of_idle {s : State} (v : Word) (hf : s.fault = false) (hp : s.pend = false) :
    s.issue v = s.latch v := by simp [State.issue, hf, hp]

/-- Everything `issue` can do (R59). -/
theorem issue_cases (s : State) (v : Word) :
    (s.fault = true ∧ s.issue v = s) ∨ (s.fault = false ∧ s.pend = true ∧ s.issue v = s.takeFault .overrun v) ∨
    (s.fault = false ∧ s.pend = false ∧ s.issue v = s.latch v) := by
  cases hf : s.fault with
  | true => exact .inl ⟨rfl, issue_of_halted v hf⟩
  | false =>
    cases hp : s.pend with
    | true => exact .inr (.inl ⟨rfl, rfl, issue_of_busy v hf hp⟩)
    | false => exact .inr (.inr ⟨rfl, rfl, issue_of_idle v hf hp⟩)

end Sys2Proof.Machine
end

