-- ==== Sys2Proof/Laws/Arith.lean ====
section
/-! SUPPORT. The arithmetic functions of 40_fp_arith.md, one lemma each that says everything it answers. -/

namespace Sys2Proof.Machine

/-! ## Integers and i32 -/

theorem fitsI32_iff (n : Int) : fitsI32 n = true ↔ -2 ^ 31 ≤ n ∧ n ≤ 2 ^ 31 - 1 := by simp [fitsI32]

theorem toInt_ofInt_of_fits {n : Int} (lo : -2 ^ 31 ≤ n) (hi : n ≤ 2 ^ 31 - 1) : (BitVec.ofInt 32 n).toInt = n := by
  rw [BitVec.toInt_ofInt]
  exact Int.bmod_eq_of_le (by omega) (by omega)

theorem exp_fits (x : Word) : -2 ^ 31 ≤ x.toInt ∧ x.toInt ≤ 2 ^ 31 - 1 := by
  have h1 := BitVec.le_toInt x
  have h2 := BitVec.toInt_lt (x := x)
  norm_num at h1 h2 ⊢
  omega

/-- The leading zero count is the shift that sets the top bit and loses none (R10). -/
theorem clz64_spec {v : DWord} (h : v ≠ 0) :
    clz64 v ≤ 63 ∧ 2 ^ 63 ≤ v.toNat * 2 ^ clz64 v ∧ v.toNat * 2 ^ clz64 v < 2 ^ 64 := by
  have h0 : v.toNat ≠ 0 := fun e => h (by simpa using BitVec.eq_of_toNat_eq (y := 0) (by simpa using e))
  have hl : v.toNat.log2 < 64 := (Nat.log2_lt h0).2 v.isLt
  have lo : 2 ^ v.toNat.log2 ≤ v.toNat := Nat.log2_self_le h0
  have hi : v.toNat < 2 ^ (v.toNat.log2 + 1) := Nat.lt_log2_self
  have hc : clz64 v = 63 - v.toNat.log2 := by rw [clz64, if_neg h]
  have e1 : v.toNat.log2 + clz64 v = 63 := by omega
  refine ⟨by omega, ?_, ?_⟩
  · calc 2 ^ 63 = 2 ^ v.toNat.log2 * 2 ^ clz64 v := by rw [← pow_add, e1]
      _ ≤ _ := Nat.mul_le_mul_right _ lo
  · calc v.toNat * 2 ^ clz64 v < 2 ^ (v.toNat.log2 + 1) * 2 ^ clz64 v := Nat.mul_lt_mul_of_pos_right hi (by positivity)
      _ = 2 ^ 64 := by rw [← pow_add, show v.toNat.log2 + 1 + clz64 v = 64 by omega]

theorem shiftSig_eq (v : DWord) (n : Nat) : shiftSig v n = v.toNat * 2 ^ n := by
  unfold shiftSig
  split
  · next h => simp [h]
  · rfl

/-! ## FSUB, FMUL, FNORM, FNORMTO -/

theorem fsub_of_pre {x y : Fp} (he : x.exp = y.exp) (hs : y.sig.toNat ≤ x.sig.toNat) :
    fsub x y = .ok ⟨BitVec.ofNat 64 (x.sig.toNat - y.sig.toNat), x.exp⟩ := by
  rw [fsub, if_neg (by rintro (h | h); exacts [h he, by omega])]

theorem fsub_of_not_pre {x y : Fp} (h : x.exp ≠ y.exp ∨ x.sig.toNat < y.sig.toNat) : fsub x y = .error .subPrecond := by
  rw [fsub, if_pos h]

/-- The rounded high half never carries out of 64 bits (R104). -/
theorem mulHigh_lt (a b : DWord) : mulHigh a b < 2 ^ 64 - 1 := by
  have h : a.toNat * b.toNat ≤ (2 ^ 64 - 1) * (2 ^ 64 - 1) := Nat.mul_le_mul (by omega) (by omega)
  unfold mulHigh
  omega

theorem fmul_of_fits {x y : Fp} (lo : -2 ^ 31 ≤ x.exp.toInt + y.exp.toInt + 64)
    (hi : x.exp.toInt + y.exp.toInt + 64 ≤ 2 ^ 31 - 1) :
    fmul x y = .ok (Fp.ofExact (mulHigh x.sig y.sig) (x.exp.toInt + y.exp.toInt + 64)) := by
  rw [fmul, if_pos ((fitsI32_iff _).2 ⟨lo, hi⟩)]

theorem fmul_of_not_fits {x y : Fp}
    (h : x.exp.toInt + y.exp.toInt + 64 < -2 ^ 31 ∨ 2 ^ 31 - 1 < x.exp.toInt + y.exp.toInt + 64) :
    fmul x y = .error .expRange := by
  rw [fmul, if_neg (by rw [fitsI32_iff]; omega)]

theorem fnorm_of_zero {x : Fp} (h : x.sig = 0) : fnorm x = .error .normZero := by rw [fnorm, if_pos h]

theorem fnorm_of_fits {x : Fp} (h : x.sig ≠ 0) (lo : -2 ^ 31 ≤ x.exp.toInt - clz64 x.sig) :
    fnorm x = .ok (Fp.ofExact (x.sig.toNat * 2 ^ clz64 x.sig) (x.exp.toInt - clz64 x.sig)) := by
  have := exp_fits x.exp
  rw [fnorm, if_neg h, if_pos ((fitsI32_iff _).2 ⟨lo, by omega⟩), shiftSig_eq]

theorem fnorm_of_not_fits {x : Fp} (h : x.sig ≠ 0) (lo : x.exp.toInt - clz64 x.sig < -2 ^ 31) :
    fnorm x = .error .expRange := by
  rw [fnorm, if_neg h, if_neg (by rw [fitsI32_iff]; omega)]

/-- A left shift by `n` loses a set bit exactly when it passes the leading zeros. -/
theorem clz64_lt_iff {v : DWord} (h : v ≠ 0) (n : Nat) : clz64 v < n ↔ 2 ^ 64 ≤ v.toNat * 2 ^ n := by
  obtain ⟨-, lo, hi⟩ := clz64_spec h
  constructor
  · intro hn
    calc 2 ^ 64 ≤ v.toNat * 2 ^ (clz64 v + 1) := by rw [pow_succ 2 (clz64 v), ← mul_assoc]; omega
      _ ≤ _ := Nat.mul_le_mul_left _ (Nat.pow_le_pow_right (by decide) hn)
  · intro hn
    by_contra hc
    have : v.toNat * 2 ^ n ≤ v.toNat * 2 ^ clz64 v := Nat.mul_le_mul_left _ (Nat.pow_le_pow_right (by decide) (by omega))
    omega

theorem fnormto_of_pre {x : Fp} {t : Word} (h0 : 0 ≤ x.exp.toInt - t.toInt)
    (h : x.sig.toNat * 2 ^ (x.exp.toInt - t.toInt).toNat < 2 ^ 64) :
    fnormto x t = .ok ⟨BitVec.ofNat 64 (x.sig.toNat * 2 ^ (x.exp.toInt - t.toInt).toNat), t⟩ := by
  rw [fnormto, if_neg (by omega), if_neg, shiftSig_eq]
  rintro ⟨hs, hc⟩
  have := (clz64_lt_iff hs (x.exp.toInt - t.toInt).toNat).1 (by omega)
  omega

theorem fnormto_of_not_pre {x : Fp} {t : Word}
    (h : x.exp.toInt - t.toInt < 0 ∨ 2 ^ 64 ≤ x.sig.toNat * 2 ^ (x.exp.toInt - t.toInt).toNat) :
    fnormto x t = .error .normtoPrecond := by
  rw [fnormto]
  split_ifs with h1 h2
  · rfl
  · rfl
  · exfalso
    rcases h with h | h
    · exact h1 h
    · have hs : x.sig ≠ 0 := by
        intro e
        simp [e] at h
      have := (clz64_lt_iff hs _).2 h
      exact h2 ⟨hs, by omega⟩

/-! ## The selector -/

/-- Everything `select` can answer: an entry of the ROM whose combined exponent lies in the window, or `CPOW_RANGE`. -/
theorem select_cases (e : Int) :
    (∃ r ∈ rom, select e = .ok r ∧ -60 ≤ r.bexp + e + 64 ∧ r.bexp + e + 64 ≤ -32) ∨ select e = .error .cpowRange := by
  unfold select
  dsimp only
  split
  · exact .inr rfl
  · split
    · exact .inr rfl
    · next r hr =>
      split
      · next hw => exact .inl ⟨r, List.mem_of_getElem? hr, rfl, hw⟩
      · exact .inr rfl

end Sys2Proof.Machine
end

