-- ==== Sys2Proof/Laws/Decode.lean ====
section
/-! SUPPORT. The fields of an encoded command word: each reads back what was encoded there (R81). -/

namespace Sys2Proof

variable (opc : BitVec 8) (rd ra rb : FReg) (p : BitVec 1)

theorem opcField_commandWord : opcField (commandWord opc rd ra rb p) = opc := by
  apply BitVec.eq_of_getLsbD_eq
  intro i hi
  rw [opcField, BitVec.getLsbD_extractLsb', commandWord, BitVec.getLsbD_append]
  simp [hi]

theorem rdField_commandWord : rdField (commandWord opc rd ra rb p) = rd := by
  have h : (commandWord opc rd ra rb p).extractLsb' 8 3 = BitVec.ofFin (w := 3) rd := by
    apply BitVec.eq_of_getLsbD_eq
    intro i hi
    rw [BitVec.getLsbD_extractLsb', commandWord, BitVec.getLsbD_append, BitVec.getLsbD_append]
    simp [hi]
  rw [rdField, h]

theorem raField_commandWord : raField (commandWord opc rd ra rb p) = ra := by
  have h : (commandWord opc rd ra rb p).extractLsb' 12 3 = BitVec.ofFin (w := 3) ra := by
    apply BitVec.eq_of_getLsbD_eq
    intro i hi
    rw [BitVec.getLsbD_extractLsb', commandWord]
    iterate 4 rw [BitVec.getLsbD_append]
    have : 12 + i - 8 - 3 - 1 = i := by omega
    simp [hi, this, show ¬12 + i < 8 by omega, show ¬12 + i - 8 < 3 by omega, show ¬12 + i - 8 - 3 < 1 by omega]
  rw [raField, h]

theorem rbField_commandWord : rbField (commandWord opc rd ra rb p) = rb := by
  have h : (commandWord opc rd ra rb p).extractLsb' 16 3 = BitVec.ofFin (w := 3) rb := by
    apply BitVec.eq_of_getLsbD_eq
    intro i hi
    rw [BitVec.getLsbD_extractLsb', commandWord]
    iterate 6 rw [BitVec.getLsbD_append]
    have : 16 + i - 8 - 3 - 1 - 3 - 1 = i := by omega
    simp [hi, this, show ¬16 + i < 8 by omega, show ¬16 + i - 8 < 3 by omega, show ¬16 + i - 8 - 3 < 1 by omega,
      show ¬16 + i - 8 - 3 - 1 < 3 by omega, show ¬16 + i - 8 - 3 - 1 - 3 < 1 by omega]
  rw [rbField, h]

end Sys2Proof
end

