-- ==== Sys2Proof/Laws/Exec.lean ====
section
/-! SUPPORT. What each meaning does on valid and on invalid sources, and, once for all commands, that a command is
`finish` of its writes and that its writes touch only its destinations. -/

namespace Sys2Proof.Machine

/-! ## The meanings, on valid and on invalid sources -/

section
variable {s : State} {d a b v m p : FReg} {x y z : Fp}

theorem execFsub_of_holds (ha : s.Holds a x) (hb : s.Holds b y) :
    execFsub d a b s = finish s ((fsub x y).map (s.writeF d)) := by
  rw [execFsub, readF_of_holds ha, readF_of_holds hb]
  change finish s (fsub x y >>= fun r => pure (s.writeF d r)) = _
  cases fsub x y <;> rfl

theorem execFsub_of_invalid (h : s.f[a].valid = false ∨ s.f[b].valid = false) :
    execFsub d a b s = .next (s.faulted .uninit) := by
  rcases readF_cases s a with ⟨x, hx, ha⟩ | ⟨-, ha⟩
  · rcases readF_cases s b with ⟨y, hy, hb⟩ | ⟨-, hb⟩
    · rw [show s.f[a] = _ from hx, show s.f[b] = _ from hy] at h
      simp at h
    · rw [execFsub, ha, hb]; rfl
  · rw [execFsub, ha]; rfl

theorem execFmul_of_holds (ha : s.Holds a x) (hb : s.Holds b y) :
    execFmul d a b s = finish s ((fmul x y).map (s.writeF d)) := by
  rw [execFmul, readF_of_holds ha, readF_of_holds hb]
  change finish s (fmul x y >>= fun r => pure (s.writeF d r)) = _
  cases fmul x y <;> rfl

theorem execFmul_of_invalid (h : s.f[a].valid = false ∨ s.f[b].valid = false) :
    execFmul d a b s = .next (s.faulted .uninit) := by
  rcases readF_cases s a with ⟨x, hx, ha⟩ | ⟨-, ha⟩
  · rcases readF_cases s b with ⟨y, hy, hb⟩ | ⟨-, hb⟩
    · rw [show s.f[a] = _ from hx, show s.f[b] = _ from hy] at h
      simp at h
    · rw [execFmul, ha, hb]; rfl
  · rw [execFmul, ha]; rfl

theorem execFnorm_of_holds (ha : s.Holds a x) : execFnorm d a s = finish s ((fnorm x).map (s.writeF d)) := by
  rw [execFnorm, readF_of_holds ha]
  change finish s (fnorm x >>= fun r => pure (s.writeF d r)) = _
  cases fnorm x <;> rfl

theorem execFnorm_of_invalid (h : s.f[a].valid = false) : execFnorm d a s = .next (s.faulted .uninit) := by
  rw [execFnorm, readF_of_invalid h]; rfl

theorem execFnormto_of_holds (ha : s.Holds a x) (hb : s.Holds b y) :
    execFnormto d a b s = finish s ((fnormto x y.exp).map (s.writeF d)) := by
  rw [execFnormto, readF_of_holds ha, readF_of_holds hb]
  change finish s (fnormto x y.exp >>= fun r => pure (s.writeF d r)) = _
  cases fnormto x y.exp <;> rfl

theorem execFnormto_of_invalid (h : s.f[a].valid = false ∨ s.f[b].valid = false) :
    execFnormto d a b s = .next (s.faulted .uninit) := by
  rcases readF_cases s a with ⟨x, hx, ha⟩ | ⟨-, ha⟩
  · rcases readF_cases s b with ⟨y, hy, hb⟩ | ⟨-, hb⟩
    · rw [show s.f[a] = _ from hx, show s.f[b] = _ from hy] at h
      simp at h
    · rw [execFnormto, ha, hb]; rfl
  · rw [execFnormto, ha]; rfl

theorem execCpow_of_holds (ha : s.Holds a x) :
    execCpow d a s = finish s ((select x.exp.toInt).map fun r => (s.writeF d r.fp).writeCpk r.dexp) := by
  rw [execCpow, readF_of_holds ha]
  change finish s (select x.exp.toInt >>= fun r => pure ((s.writeF d r.fp).writeCpk r.dexp)) = _
  cases select x.exp.toInt <;> rfl

theorem execCpow_of_invalid (h : s.f[a].valid = false) : execCpow d a s = .next (s.faulted .uninit) := by
  rw [execCpow, readF_of_invalid h]; rfl

theorem execDigits_of_holds (hv : s.Holds v x) (hm : s.Holds m y) (hp : s.Holds p z) :
    execDigits v m p s = finish s ((digitGen s.prefine x y z).map s.writeDigits) := by
  rw [execDigits, readF_of_holds hv, readF_of_holds hm, readF_of_holds hp]
  change finish s (digitGen s.prefine x y z >>= fun r => pure (s.writeDigits r)) = _
  cases digitGen s.prefine x y z <;> rfl

theorem execDigits_of_invalid (h : s.f[v].valid = false ∨ s.f[m].valid = false ∨ s.f[p].valid = false) :
    execDigits v m p s = .next (s.faulted .uninit) := by
  rcases readF_cases s v with ⟨x, hx, hv⟩ | ⟨-, hv⟩
  · rcases readF_cases s m with ⟨y, hy, hm⟩ | ⟨-, hm⟩
    · rcases readF_cases s p with ⟨z, hz, hp⟩ | ⟨-, hp⟩
      · rw [show s.f[v] = _ from hx, show s.f[m] = _ from hy, show s.f[p] = _ from hz] at h
        simp at h
      · rw [execDigits, hv, hm, hp]; rfl
    · rw [execDigits, hv, hm]; rfl
  · rw [execDigits, hv]; rfl

theorem bound_of_distinct (pr : Prec) (h : pairwiseDistinct v m p = true) :
    bound pr v m p s = (boundTriple pr.desc (fields pr s.pargSig)).map (s.writeTriple v m p) := by
  rw [bound, if_pos h]
  cases boundTriple pr.desc (fields pr s.pargSig) <;> rfl

theorem bound_of_not_distinct (pr : Prec) (h : pairwiseDistinct v m p = false) : bound pr v m p s = .error .illegal := by
  rw [bound, if_neg (by simp [h])]

end

/-! ## Every command -/

/-- The fields no command's writes touch: the host's registers, the status, the issue latch and the model's own fields. -/
structure Untouched (s t : State) : Prop where
  argSig : t.argSig = s.argSig
  argExp : t.argExp = s.argExp
  refine : t.refine = s.refine
  fault : t.fault = s.fault
  cause : t.cause = s.cause
  fcmd : t.fcmd = s.fcmd
  pcmd : t.pcmd = s.pcmd
  pargSig : t.pargSig = s.pargSig
  pargExp : t.pargExp = s.pargExp
  prefine : t.prefine = s.prefine
  prog : t.prog = s.prog
  sched : t.sched = s.sched
  reads : t.reads = s.reads
  draws : t.draws = s.draws

theorem Untouched.refl (s : State) : Untouched s s := by constructor <;> rfl

/-- The destinations of a command: its `Fp` registers, and the result registers its rule names. -/
structure WritesOnly (i : Instr) (s t : State) : Prop extends Untouched s t where
  regs : ∀ j, j ∉ fDests i → t.f[j] = s.f[j]
  cls : writesClass i = false → t.cls = s.cls ∧ t.csig = s.csig
  cpk : writesCpk i = false → t.cpk = s.cpk
  digits : writesDigits i = false → t.dbuf = s.dbuf ∧ t.dlen = s.dlen ∧ t.dexp = s.dexp

theorem WritesOnly.refl (i : Instr) (s : State) : WritesOnly i s s :=
  ⟨Untouched.refl s, fun _ _ => rfl, fun _ => ⟨rfl, rfl⟩, fun _ => rfl, fun _ => ⟨rfl, rfl, rfl⟩⟩

theorem writesOnly_writeF {i : Instr} {d : FReg} (s : State) (x : Fp) (h : fDests i = [d]) :
    WritesOnly i s (s.writeF d x) where
  toUntouched := by constructor <;> rfl
  regs j hj := writeF_get_of_ne s x (by simpa [h] using hj)
  cls _ := ⟨rfl, rfl⟩
  cpk _ := rfl
  digits _ := ⟨rfl, rfl, rfl⟩

theorem writesOnly_writeTriple {i : Instr} {v m p : FReg} (s : State) (t : BoundTriple) (h : fDests i = [v, m, p]) :
    WritesOnly i s (s.writeTriple v m p t) where
  toUntouched := by constructor <;> rfl
  regs j hj := by
    simp only [h, List.mem_cons, List.not_mem_nil, or_false, not_or] at hj
    exact writeTriple_get_of_ne s t hj.1 hj.2.1 hj.2.2
  cls _ := ⟨rfl, rfl⟩
  cpk _ := rfl
  digits _ := ⟨rfl, rfl, rfl⟩

theorem writesOnly_fclass {i : Instr} (p : Prec) (s : State) (h : writesClass i = true) :
    WritesOnly i s (fclass p s) where
  toUntouched := by constructor <;> rfl
  regs _ _ := rfl
  cls hc := by simp [h] at hc
  cpk _ := rfl
  digits _ := ⟨rfl, rfl, rfl⟩

/-- A command is `finish` of its writes, and they touch only its destinations: everything a command can do but for what
it computes. -/
theorem exec_eq_finish (i : Instr) (s : State) :
    ∃ r, exec i s = finish s r ∧ ∀ s', r = .ok s' → WritesOnly i s s' ∧ s'.pend = s.pend := by
  have two (g : Fp → Fp → Except Cause Fp) (a b d : FReg) (hd : fDests i = [d]) :
      ∀ s', (do let x ← s.readF a; let y ← s.readF b; let r ← g x y; pure (s.writeF d r) : Except Cause State) = .ok s' →
        WritesOnly i s s' ∧ s'.pend = s.pend := by
    intro s' h
    rcases readF_cases s a with ⟨x, -, ha⟩ | ⟨-, ha⟩ <;> rw [ha] at h
    · rcases readF_cases s b with ⟨y, -, hb⟩ | ⟨-, hb⟩ <;> rw [hb] at h
      · change (g x y >>= fun r => pure (s.writeF d r)) = _ at h
        cases hg : g x y with
        | ok r =>
          rw [hg] at h
          obtain rfl : s.writeF d r = s' := Except.ok.inj h
          exact ⟨writesOnly_writeF s r hd, rfl⟩
        | error c => rw [hg] at h; exact nomatch h
      · exact nomatch h
    · exact nomatch h
  cases i with
  | nop =>
    refine ⟨.ok s, rfl, fun s' h => ?_⟩
    cases h
    exact ⟨WritesOnly.refl _ s, rfl⟩
  | ldf d =>
    refine ⟨.ok (s.writeF d s.latchedArg), rfl, fun s' h => ?_⟩
    cases h
    exact ⟨writesOnly_writeF s _ rfl, rfl⟩
  | fsub d a b => exact ⟨_, rfl, two fsub a b d rfl⟩
  | fmul d a b => exact ⟨_, rfl, two fmul a b d rfl⟩
  | fnorm d a =>
    refine ⟨_, rfl, fun s' h => ?_⟩
    rcases readF_cases s a with ⟨x, -, ha⟩ | ⟨-, ha⟩ <;> rw [ha] at h
    · change (fnorm x >>= fun r => pure (s.writeF d r)) = _ at h
      cases hg : fnorm x with
      | ok r =>
        rw [hg] at h
        obtain rfl : s.writeF d r = s' := Except.ok.inj h
        exact ⟨writesOnly_writeF s r rfl, rfl⟩
      | error c => rw [hg] at h; exact nomatch h
    · exact nomatch h
  | fnormto d a b => exact ⟨_, rfl, two (fun x y => fnormto x y.exp) a b d rfl⟩
  | cpow d a =>
    refine ⟨_, rfl, fun s' h => ?_⟩
    rcases readF_cases s a with ⟨x, -, ha⟩ | ⟨-, ha⟩ <;> rw [ha] at h
    · change (select x.exp.toInt >>= fun r => pure ((s.writeF d r.fp).writeCpk r.dexp)) = _ at h
      cases hg : select x.exp.toInt with
      | ok r =>
        rw [hg] at h
        obtain rfl : (s.writeF d r.fp).writeCpk r.dexp = s' := Except.ok.inj h
        have w := writesOnly_writeF (i := .cpow d a) s r.fp rfl
        exact ⟨⟨⟨rfl, rfl, rfl, rfl, rfl, rfl, rfl, rfl, rfl, rfl, rfl, rfl, rfl, rfl⟩, w.regs, w.cls, nofun, w.digits⟩, rfl⟩
      | error c => rw [hg] at h; exact nomatch h
    · exact nomatch h
  | fclassD => exact ⟨.ok (fclass .double s), rfl, fun s' h => by cases h; exact ⟨writesOnly_fclass _ s rfl, rfl⟩⟩
  | fclassS => exact ⟨.ok (fclass .single s), rfl, fun s' h => by cases h; exact ⟨writesOnly_fclass _ s rfl, rfl⟩⟩
  | boundD v m p | boundS v m p =>
    refine ⟨_, rfl, fun s' h => ?_⟩
    cases hd : pairwiseDistinct v m p with
    | true =>
      rw [bound_of_distinct _ hd] at h
      cases ht : boundTriple _ _ with
      | ok t =>
        rw [ht] at h
        obtain rfl : s.writeTriple v m p t = s' := Except.ok.inj h
        exact ⟨writesOnly_writeTriple s t rfl, rfl⟩
      | error c => rw [ht] at h; exact nomatch h
    | false => rw [bound_of_not_distinct _ hd] at h; exact nomatch h
  | digits v m p =>
    refine ⟨_, rfl, fun s' h => ?_⟩
    rcases readF_cases s v with ⟨x, -, hv⟩ | ⟨-, hv⟩ <;> rw [hv] at h
    · rcases readF_cases s m with ⟨y, -, hm⟩ | ⟨-, hm⟩ <;> rw [hm] at h
      · rcases readF_cases s p with ⟨z, -, hp⟩ | ⟨-, hp⟩ <;> rw [hp] at h
        · change (digitGen s.prefine x y z >>= fun r => pure (s.writeDigits r)) = _ at h
          cases hg : digitGen s.prefine x y z with
          | ok r =>
            rw [hg] at h
            obtain rfl : s.writeDigits r = s' := Except.ok.inj h
            exact ⟨⟨⟨rfl, rfl, rfl, rfl, rfl, rfl, rfl, rfl, rfl, rfl, rfl, rfl, rfl, rfl⟩, fun _ _ => rfl,
              fun _ => ⟨rfl, rfl⟩, fun _ => rfl, nofun⟩, rfl⟩
          | error c => rw [hg] at h; exact nomatch h
        · exact nomatch h
      · exact nomatch h
    · exact nomatch h

/-- Everything a command can do: it commits writes that touch only its destinations, or it takes the fault entry. -/
theorem exec_cases (i : Instr) (s : State) :
    (∃ s', WritesOnly i s s' ∧ exec i s = .next s'.commit) ∨ (∃ c, exec i s = .next (s.faulted c)) := by
  obtain ⟨r, hr, hw⟩ := exec_eq_finish i s
  cases r with
  | ok s' => exact .inl ⟨s', (hw s' rfl).1, hr⟩
  | error c => exact .inr ⟨c, hr⟩

end Sys2Proof.Machine
end

