-- ==== Sys2Proof/Laws/DigitGen.lean ====
section
/-! SUPPORT. The stages of the boundary computation and of the digit generator, one inversion lemma each: what a stage
that succeeds has established, and with which causes it can fail. -/

namespace Sys2Proof.Machine

/-! ## ROM entries as `Fp` pairs -/

theorem rom_bexp_bounds : ∀ r ∈ rom, -1060 ≤ r.bexp ∧ r.bexp ≤ 1013 := by decide +kernel

@[simp] theorem romEntry_fp_sig (r : RomEntry) : r.fp.sig = r.sig := by simp [RomEntry.fp, Fp.ofExact]

theorem romEntry_fp_exp {r : RomEntry} (h : r ∈ rom) : r.fp.exp.toInt = r.bexp := by
  have := rom_bexp_bounds r h
  exact toInt_ofInt_of_fits (by omega) (by omega)

theorem select_ok {e : Int} {r : RomEntry} (h : select e = .ok r) :
    r ∈ rom ∧ -60 ≤ r.bexp + e + 64 ∧ r.bexp + e + 64 ≤ -32 := by
  rcases select_cases e with ⟨r', hr, h', hw⟩ | h'
  · rw [h] at h'; cases h'; exact ⟨hr, hw⟩
  · rw [h] at h'; cases h'

theorem select_error {e : Int} {c : Cause} (h : select e = .error c) : c = .cpowRange := by
  rcases select_cases e with ⟨r', -, h', -⟩ | h' <;> rw [h] at h' <;> cases h'
  rfl

/-! ## The boundary triple -/

/-- Everything the boundary computation can answer (R158): `BOUND_CLASS` for a zero, a NaN or an infinity; else what its
three normalizations answer. -/
theorem boundTriple_of_class {d : Descriptor} {x : FloatFields} (h : x.isZero ∨ x.isNan d ∨ x.isInf d) :
    boundTriple d x = .error .boundClass := by rw [boundTriple, if_pos h]

theorem boundTriple_of_parts {d : Descriptor} {x : FloatFields} {plus minus v' : Fp}
    (h : ¬(x.isZero ∨ x.isNan d ∨ x.isInf d)) (hp : fnorm (upperBoundary (floatValue d x)) = .ok plus)
    (hm : fnormto (lowerBoundary x (floatValue d x)) plus.exp = .ok minus)
    (hv : fnormto (floatValue d x) plus.exp = .ok v') : boundTriple d x = .ok ⟨v', minus, plus⟩ := by
  rw [boundTriple, if_neg h]
  change (fnorm (upperBoundary (floatValue d x)) >>= fun plus =>
    fnormto (lowerBoundary x (floatValue d x)) plus.exp >>= fun minus =>
      fnormto (floatValue d x) plus.exp >>= fun v' => pure (⟨v', minus, plus⟩ : BoundTriple)) = _
  rw [hp]
  change (fnormto (lowerBoundary x (floatValue d x)) plus.exp >>= fun minus =>
      fnormto (floatValue d x) plus.exp >>= fun v' => pure (⟨v', minus, plus⟩ : BoundTriple)) = _
  rw [hm]
  change (fnormto (floatValue d x) plus.exp >>= fun v' => pure (⟨v', minus, plus⟩ : BoundTriple)) = _
  rw [hv]
  rfl

/-! ## Scaling and narrowing -/

/-- Everything narrowing can answer (R173, R175), and when. -/
theorem narrow_cases (w wMinus wPlus : Fp) :
    (∃ k, narrow w wMinus wPlus = .ok k ∧ wMinus.sig.toNat ≠ 2 ^ 64 - 1 ∧ wPlus.sig.toNat ≠ 0 ∧
      k = ⟨wMinus.sig.toNat + 1, wPlus.sig.toNat - 1, w.sig.toNat, 2 ^ (-wPlus.exp.toInt).toNat⟩ ∧
      k.mMinus ≤ k.w ∧ k.w ≤ k.mPlus ∧ k.p1 ≠ 0) ∨
    ((wMinus.sig.toNat = 2 ^ 64 - 1 ∨ wPlus.sig.toNat = 0 ∨ w.sig.toNat < wMinus.sig.toNat + 1 ∨
        wPlus.sig.toNat - 1 < w.sig.toNat ∨ (wPlus.sig.toNat - 1) / 2 ^ (-wPlus.exp.toInt).toNat = 0) ∧
      narrow w wMinus wPlus = .error .digitsPrecond) := by
  rw [narrow]
  by_cases h1 : wMinus.sig.toNat = 2 ^ 64 - 1 ∨ wPlus.sig.toNat = 0
  · exact .inr ⟨h1.imp_right .inl, if_pos h1⟩
  rw [if_neg h1]
  generalize hk : (⟨wMinus.sig.toNat + 1, wPlus.sig.toNat - 1, w.sig.toNat, 2 ^ (-wPlus.exp.toInt).toNat⟩ : Working) = k
  by_cases h2 : k.mMinus ≤ k.w ∧ k.w ≤ k.mPlus
  · by_cases h3 : k.p1 = 0
    · refine .inr ⟨.inr (.inr (.inr (.inr ?_))), (if_neg (not_not_intro h2)).trans (if_pos h3)⟩
      subst hk
      exact h3
    · exact .inl ⟨k, (if_neg (not_not_intro h2)).trans (if_neg h3), fun e => h1 (.inl e), fun e => h1 (.inr e), rfl,
        h2.1, h2.2, h3⟩
  · refine .inr ⟨.inr (.inr ?_), if_pos h2⟩
    subst hk
    rcases Decidable.not_and_iff_not_or_not.1 h2 with h | h
    · exact .inl (Nat.lt_of_not_le h)
    · exact .inr (.inl (Nat.lt_of_not_le h))

theorem fmul_rom {x : Fp} {c : RomEntry} {e : Int} (hr : c ∈ rom) (hx : x.exp.toInt = e)
    (lo : -60 ≤ c.bexp + e + 64) (hi : c.bexp + e + 64 ≤ -32) :
    fmul x c.fp = .ok (Fp.ofExact (mulHigh x.sig c.sig) (e + c.bexp + 64)) := by
  subst hx
  have h := romEntry_fp_exp hr
  rw [fmul_of_fits (by omega) (by omega), h, romEntry_fp_sig]

theorem scale_of_parts {v mm mp : Fp} {c : RomEntry} {W M P : Fp} (h1 : v.exp = mm.exp) (h2 : mm.exp = mp.exp)
    (hc : select mp.exp.toInt = .ok c) (hw : fmul v c.fp = .ok W) (hm : fmul mm c.fp = .ok M) (hp : fmul mp c.fp = .ok P) :
    scale v mm mp = (narrow W M P).map (·, c.dexp) := by
  rw [scale, if_neg (by simp [h1, h2])]
  change (select mp.exp.toInt >>= fun c => fmul v c.fp >>= fun w => fmul mm c.fp >>= fun wm => fmul mp c.fp >>= fun wp =>
    narrow w wm wp >>= fun k => pure (k, c.dexp)) = _
  rw [hc]
  change (fmul v c.fp >>= fun w => fmul mm c.fp >>= fun wm => fmul mp c.fp >>= fun wp =>
    narrow w wm wp >>= fun k => pure (k, c.dexp)) = _
  rw [hw, hm, hp]
  change (narrow W M P >>= fun k => pure (k, c.dexp)) = _
  generalize narrow W M P = k
  cases k <;> rfl

/-- What scaling does once the exponents agree and the selector has an entry: the three products cannot leave the i32
range (R172), so it is narrowing, with the entry's decimal exponent. -/
theorem scale_of_select {v mm mp : Fp} {c : RomEntry} (h1 : v.exp = mm.exp) (h2 : mm.exp = mp.exp)
    (hc : select mp.exp.toInt = .ok c) :
    scale v mm mp =
      (narrow (Fp.ofExact (mulHigh v.sig c.sig) (mp.exp.toInt + c.bexp + 64))
        (Fp.ofExact (mulHigh mm.sig c.sig) (mp.exp.toInt + c.bexp + 64))
        (Fp.ofExact (mulHigh mp.sig c.sig) (mp.exp.toInt + c.bexp + 64))).map (·, c.dexp) := by
  obtain ⟨hr, lo, hi⟩ := select_ok hc
  exact scale_of_parts h1 h2 hc (fmul_rom hr (by rw [h1, h2]) lo hi) (fmul_rom hr (by rw [h2]) lo hi)
    (fmul_rom hr rfl lo hi)

/-- Everything scaling can answer (R171 to R175), and when. -/
theorem scale_cases (v mm mp : Fp) :
    (¬(v.exp = mm.exp ∧ mm.exp = mp.exp) ∧ scale v mm mp = .error .digitsPrecond) ∨
    ((v.exp = mm.exp ∧ mm.exp = mp.exp) ∧ select mp.exp.toInt = .error .cpowRange ∧
      scale v mm mp = .error .cpowRange) ∨
    (∃ c, (v.exp = mm.exp ∧ mm.exp = mp.exp) ∧ select mp.exp.toInt = .ok c ∧
      ((∃ k : Working, scale v mm mp = .ok (k, c.dexp) ∧
        k = ⟨mulHigh mm.sig c.sig + 1, mulHigh mp.sig c.sig - 1, mulHigh v.sig c.sig,
          2 ^ (-(mp.exp.toInt + c.bexp + 64)).toNat⟩ ∧
        mulHigh mp.sig c.sig ≠ 0 ∧ k.mMinus ≤ k.w ∧ k.w ≤ k.mPlus ∧ k.p1 ≠ 0) ∨
      ((mulHigh mm.sig c.sig = 2 ^ 64 - 1 ∨ mulHigh mp.sig c.sig = 0 ∨
          mulHigh v.sig c.sig < mulHigh mm.sig c.sig + 1 ∨ mulHigh mp.sig c.sig - 1 < mulHigh v.sig c.sig ∨
          (mulHigh mp.sig c.sig - 1) / 2 ^ (-(mp.exp.toInt + c.bexp + 64)).toNat = 0) ∧
        scale v mm mp = .error .digitsPrecond))) := by
  by_cases he : v.exp = mm.exp ∧ mm.exp = mp.exp
  · cases hc : select mp.exp.toInt with
    | error e =>
      obtain rfl := select_error hc
      refine .inr (.inl ⟨he, rfl, ?_⟩)
      rw [scale, if_neg (by simpa using he)]
      change (select mp.exp.toInt >>= fun c => fmul v c.fp >>= fun w => fmul mm c.fp >>= fun wm => fmul mp c.fp >>= fun wp =>
        narrow w wm wp >>= fun k => pure (k, c.dexp)) = _
      rw [hc]
      rfl
    | ok c =>
      refine .inr (.inr ⟨c, he, rfl, ?_⟩)
      obtain ⟨-, lo, hi⟩ := select_ok hc
      have hs (a : DWord) : (BitVec.ofNat 64 (mulHigh a c.sig)).toNat = mulHigh a c.sig := by
        have := mulHigh_lt a c.sig
        simp only [BitVec.toNat_ofNat]
        omega
      have hx : (BitVec.ofInt 32 (mp.exp.toInt + c.bexp + 64)).toInt = mp.exp.toInt + c.bexp + 64 :=
        toInt_ofInt_of_fits (by omega) (by omega)
      rw [scale_of_select he.1 he.2 hc]
      rcases narrow_cases (Fp.ofExact (mulHigh v.sig c.sig) (mp.exp.toInt + c.bexp + 64))
        (Fp.ofExact (mulHigh mm.sig c.sig) (mp.exp.toInt + c.bexp + 64))
        (Fp.ofExact (mulHigh mp.sig c.sig) (mp.exp.toInt + c.bexp + 64)) with ⟨k, hk, -, h0, hk', h3, h4, h5⟩ | ⟨h0, hk⟩
      · simp only [Fp.ofExact, hs, hx] at h0 hk'
        rw [hk]
        exact .inl ⟨k, rfl, hk', h0, h3, h4, h5⟩
      · simp only [Fp.ofExact, hs, hx] at h0
        rw [hk]
        exact .inr ⟨h0, rfl⟩
  · exact .inl ⟨he, by rw [scale, if_pos he]⟩

/-! ## The command -/

/-- What the digit generator does once scaling has succeeded: the phases, then the refinement (R170). -/
theorem digitGen_of_scale {on : Bool} {v mm mp : Fp} {k : Working} {cdexp : Int} (h : scale v mm mp = .ok (k, cdexp)) :
    digitGen on v mm mp =
      emit k >>= fun r => refineDigits on r >>= fun buf => pure ⟨buf.reverse, -cdexp + r.gain⟩ := by
  change (scale v mm mp >>= fun kc => emit kc.1 >>= fun r => refineDigits on r >>= fun buf =>
    pure (⟨buf.reverse, -kc.2 + r.gain⟩ : Decimal)) = _
  rw [h]
  rfl

theorem digitGen_of_scale_error {on : Bool} {v mm mp : Fp} {c : Cause} (h : scale v mm mp = .error c) :
    digitGen on v mm mp = .error c := by
  change (scale v mm mp >>= fun kc => emit kc.1 >>= fun r => refineDigits on r >>= fun buf =>
    pure (⟨buf.reverse, -kc.2 + r.gain⟩ : Decimal)) = _
  rw [h]
  rfl

/-- Everything the phases can answer (R176 to R178): the result of one of them, or `DIGITS_OVERFLOW`. -/
theorem fractionalPhase_cases (one room p2 delta dist m : Nat) (buf : List Nat) :
    (∃ r, fractionalPhase one room p2 delta dist m buf = .ok r ∧ r.rest ≤ r.delta ∧ r.ten = one) ∨
    fractionalPhase one room p2 delta dist m buf = .error .digitsOverflow := by
  induction room generalizing p2 delta dist m buf with
  | zero => exact .inr rfl
  | succ room ih =>
    rw [fractionalPhase]
    split_ifs with h
    · exact .inl ⟨_, rfl, h, rfl⟩
    · exact ih _ _ _ _ _

theorem integralPhase_stop {k : Working} {n p1 pow10 : Nat} {buf : List Nat} {r : Emitted}
    (h : integralPhase k n p1 pow10 buf = .inl r) : r.rest ≤ r.delta ∧ r.delta = k.delta ∧ r.dist = k.dist := by
  induction n generalizing p1 pow10 buf with
  | zero => simp [integralPhase] at h
  | succ n ih =>
    rw [integralPhase] at h
    split_ifs at h with hs
    · cases h; exact ⟨hs, rfl, rfl⟩
    · exact ih h

theorem emit_cases (k : Working) : (∃ r, emit k = .ok r ∧ r.rest ≤ r.delta) ∨ emit k = .error .digitsOverflow := by
  rw [emit]
  dsimp only
  split
  · next r h => exact .inl ⟨r, rfl, (integralPhase_stop h).1⟩
  · next buf h =>
    rcases fractionalPhase_cases k.one (dcap - buf.length) k.p2 k.delta k.dist 0 buf with ⟨r, hr, hle, -⟩ | hr
    · exact .inl ⟨r, hr, hle⟩
    · exact .inr hr

end Sys2Proof.Machine
end

