-- ==== Sys2Proof/Laws/PerInstr.lean ====
section
/-! SUPPORT. Facts about every instruction, one lemma per constructor: the word of a command fits a row of the opcode map
(R83), and that row gives the command back. -/

namespace Sys2Proof.Laws.FitsItsRow

/-- The word of `i` fits a row of the opcode map whose command, read from that word, is `i` (R83). -/
def Statement (i : Instr) : Prop := ∃ r ∈ opRows, r.fits (encode i) = true ∧ r.command (encode i) = i

theorem nop : Statement .nop :=
  ⟨⟨0xFFFFFFFF, 0x00000000, fun _ => .nop⟩, by simp [opRows], by decide, rfl⟩

theorem ldf (d : FReg) : Statement (.ldf d) := by
  refine ⟨⟨0xFFFFF8FF, 0x00000001, fun w => .ldf (rdField w)⟩, by simp [opRows], ?_, ?_⟩
  · revert d
    decide +kernel
  · simp [encode, rdField_commandWord]

theorem fsub (d a b : FReg) : Statement (.fsub d a b) := by
  refine ⟨⟨0xFFF888FF, 0x00000002, fun w => .fsub (rdField w) (raField w) (rbField w)⟩, by simp [opRows], ?_, ?_⟩
  · revert d a b
    decide +kernel
  · simp [encode, rdField_commandWord, raField_commandWord, rbField_commandWord]

theorem fmul (d a b : FReg) : Statement (.fmul d a b) := by
  refine ⟨⟨0xFFF888FF, 0x00000003, fun w => .fmul (rdField w) (raField w) (rbField w)⟩, by simp [opRows], ?_, ?_⟩
  · revert d a b
    decide +kernel
  · simp [encode, rdField_commandWord, raField_commandWord, rbField_commandWord]

theorem fnorm (d a : FReg) : Statement (.fnorm d a) := by
  refine ⟨⟨0xFFFF88FF, 0x00000004, fun w => .fnorm (rdField w) (raField w)⟩, by simp [opRows], ?_, ?_⟩
  · revert d a
    decide +kernel
  · simp [encode, rdField_commandWord, raField_commandWord]

theorem fnormto (d a b : FReg) : Statement (.fnormto d a b) := by
  refine ⟨⟨0xFFF888FF, 0x00000005, fun w => .fnormto (rdField w) (raField w) (rbField w)⟩, by simp [opRows], ?_, ?_⟩
  · revert d a b
    decide +kernel
  · simp [encode, rdField_commandWord, raField_commandWord, rbField_commandWord]

theorem cpow (d a : FReg) : Statement (.cpow d a) := by
  refine ⟨⟨0xFFFF88FF, 0x00000006, fun w => .cpow (rdField w) (raField w)⟩, by simp [opRows], ?_, ?_⟩
  · revert d a
    decide +kernel
  · simp [encode, rdField_commandWord, raField_commandWord]

theorem fclassD : Statement .fclassD :=
  ⟨⟨0xFFFFFFFF, 0x00000007, fun _ => .fclassD⟩, by simp [opRows], by decide, rfl⟩

theorem fclassS : Statement .fclassS :=
  ⟨⟨0xFFFFFFFF, 0x01000007, fun _ => .fclassS⟩, by simp [opRows], by decide, rfl⟩

theorem boundD (v m p : FReg) : Statement (.boundD v m p) := by
  refine ⟨⟨0xFFF888FF, 0x00000008, fun w => .boundD (rdField w) (raField w) (rbField w)⟩, by simp [opRows], ?_, ?_⟩
  · revert v m p
    decide +kernel
  · simp [encode, rdField_commandWord, raField_commandWord, rbField_commandWord]

theorem boundS (v m p : FReg) : Statement (.boundS v m p) := by
  refine ⟨⟨0xFFF888FF, 0x01000008, fun w => .boundS (rdField w) (raField w) (rbField w)⟩, by simp [opRows], ?_, ?_⟩
  · revert v m p
    decide +kernel
  · simp [encode, rdField_commandWord, raField_commandWord, rbField_commandWord]

theorem digits (v m p : FReg) : Statement (.digits v m p) := by
  refine ⟨⟨0xFFF888FF, 0x00000009, fun w => .digits (rdField w) (raField w) (rbField w)⟩, by simp [opRows], ?_, ?_⟩
  · revert v m p
    decide +kernel
  · simp [encode, rdField_commandWord, raField_commandWord, rbField_commandWord]

end Sys2Proof.Laws.FitsItsRow
end

