-- ==== Sys2Proof/Laws/Window.lean ====
section
/-! SUPPORT. The window: the map and its offsets, and everything a host read and a host write can do. -/

namespace Sys2Proof.Machine

/-! ## The map -/

theorem windowMap_ctrl : windowMap 0x000 = some .ctrl := by decide
theorem windowMap_cmd : windowMap 0x00C = some .cmd := by decide
theorem windowMap_argSigLo : windowMap 0x010 = some .argSigLo := by decide
theorem windowMap_argSigHi : windowMap 0x014 = some .argSigHi := by decide
theorem windowMap_argExp : windowMap 0x018 = some .argExp := by decide

/-! ## Reads -/

theorem hostRead_of_racing {s : State} {off : Offset} (h : s.racingAt off = true) :
    s.hostRead off = { s with reads := Config.freeRead s.draws :: s.reads, draws := s.draws + 1 } := by
  rw [State.hostRead, if_pos h]

theorem hostRead_of_not_racing {s : State} {off : Offset} (h : s.racingAt off = false) :
    s.hostRead off = { s with reads := s.readWord off :: s.reads } := by
  rw [State.hostRead, if_neg (by simp [h])]

/-- Everything a host read can do: put one word, exact or drawn, before the others. -/
theorem hostRead_cases (s : State) (off : Offset) :
    ∃ w n, s.hostRead off = { s with reads := w :: s.reads, draws := n } := by
  cases h : s.racingAt off with
  | true => exact ⟨_, _, hostRead_of_racing h⟩
  | false => exact ⟨_, s.draws, hostRead_of_not_racing h⟩

/-- Nothing races while no command is in flight. -/
theorem racingAt_of_idle {s : State} (off : Offset) (h : s.pend = false) : s.racingAt off = false := by
  unfold State.racingAt
  split <;> simp [State.racing, h]

/-! ## Writes -/

/-- Everything a host write can do (R58): reset the unit, switch the refinement, issue, write an argument register, or
nothing. -/
theorem hostWrite_cases (s : State) (off : Offset) (v : Word) :
    (windowMap off = some .ctrl ∧ v.getLsbD 31 = true ∧ s.hostWrite off v = s.resetUnit) ∨
    (windowMap off = some .ctrl ∧ v.getLsbD 31 = false ∧ s.hostWrite off v = { s with refine := v.getLsbD 0 }) ∨
    (windowMap off = some .cmd ∧ s.hostWrite off v = s.issue v) ∨
    (∃ a, s.hostWrite off v = { s with argSig := a }) ∨
    (∃ e, s.hostWrite off v = { s with argExp := e }) ∨
    s.hostWrite off v = s := by
  unfold State.hostWrite
  split
  · next h =>
    cases hv : v.getLsbD 31 with
    | true => exact .inl ⟨h, rfl, by rw [State.writeCtrl, if_pos hv]⟩
    | false => exact .inr (.inl ⟨h, rfl, by rw [State.writeCtrl, if_neg (by rw [hv]; decide)]⟩)
  · next h => exact .inr (.inr (.inl ⟨h, rfl⟩))
  · exact .inr (.inr (.inr (.inl ⟨_, rfl⟩)))
  · exact .inr (.inr (.inr (.inl ⟨_, rfl⟩)))
  · exact .inr (.inr (.inr (.inr (.inl ⟨_, rfl⟩))))
  · exact .inr (.inr (.inr (.inr (.inr rfl))))

end Sys2Proof.Machine
end

