-- ==== Sys2Proof/Laws/Step.lean ====
section
/-! SUPPORT. Everything a step can do, said once: `step_cases`. -/

namespace Sys2Proof.Machine

/-- Everything `Complete` can do (R200): fault `ILLEGAL`, or run the decoded command. -/
theorem complete_cases (s : State) :
    (∃ i, decode s.pcmd = .ok i ∧ complete s = exec i s) ∨
    ((∃ e, decode s.pcmd = .error e) ∧ complete s = .next (s.faulted .illegal)) := by
  unfold complete
  cases h : decode s.pcmd with
  | ok i => exact .inl ⟨i, rfl, rfl⟩
  | error e => exact .inr ⟨⟨e, rfl⟩, rfl⟩

theorem complete_of_ok {s : State} {i : Instr} (h : decode s.pcmd = .ok i) : complete s = exec i s := by
  rw [complete, h]

/-- `Complete` always answers a next state. -/
theorem complete_next (s : State) : ∃ t, complete s = .next t := by
  rcases complete_cases s with ⟨i, -, h⟩ | ⟨-, h⟩
  · rcases exec_cases i s with ⟨s', -, h'⟩ | ⟨c, h'⟩
    · exact ⟨_, h.trans h'⟩
    · exact ⟨_, h.trans h'⟩
  · exact ⟨_, h⟩

/-- Everything the host's turn can do. -/
theorem hostTurn_cases (s : State) :
    (s.prog = [] ∧ hostTurn s = .next s) ∨
    (∃ off bytes more, s.prog = .read off bytes :: more ∧ accessTaken off bytes = true ∧
      hostTurn s = .next ((s.withProg more).hostRead off)) ∨
    (∃ off bytes v more, s.prog = .write off bytes v :: more ∧ accessTaken off bytes = true ∧
      hostTurn s = .next ((s.withProg more).hostWrite off v)) ∨
    (∃ more, s.prog = .wait :: more ∧ s.statusWord.getLsbD 0 = true ∧ hostTurn s = .next s) ∨
    (∃ more, s.prog = .wait :: more ∧ s.statusWord.getLsbD 0 = false ∧ hostTurn s = .next (s.withProg more)) ∨
    ((∃ off bytes more, accessTaken off bytes = false ∧
        (s.prog = .read off bytes :: more ∨ ∃ v, s.prog = .write off bytes v :: more)) ∧
      hostTurn s = .fault .hostAccessNotTaken) := by
  rw [hostTurn]
  rcases hp : s.prog with _ | ⟨⟨off, bytes⟩ | ⟨off, bytes, v⟩ | _, more⟩
  · exact .inl ⟨rfl, rfl⟩
  · cases ha : accessTaken off bytes with
    | true => exact .inr (.inl ⟨off, bytes, more, rfl, ha, by simp only [ha]; rfl⟩)
    | false =>
      exact .inr (.inr (.inr (.inr (.inr ⟨⟨off, bytes, more, ha, .inl rfl⟩, by simp only [ha]; rfl⟩))))
  · cases ha : accessTaken off bytes with
    | true => exact .inr (.inr (.inl ⟨off, bytes, v, more, rfl, ha, by simp only [ha]; rfl⟩))
    | false =>
      exact .inr (.inr (.inr (.inr (.inr ⟨⟨off, bytes, more, ha, .inr ⟨v, rfl⟩⟩, by simp only [ha]; rfl⟩))))
  · cases hb : s.statusWord.getLsbD 0 with
    | true => exact .inr (.inr (.inr (.inl ⟨more, rfl, rfl, rfl⟩)))
    | false => exact .inr (.inr (.inr (.inr (.inl ⟨more, rfl, rfl, rfl⟩))))

/-- Everything a step can do: the unit completes or has nothing to do, the host takes its turn, or the platform resets. -/
theorem step_cases (s : State) :
    (s.turn = .unit ∧ s.pend = true ∧ step s = complete s.nextTurn) ∨
    (s.turn = .unit ∧ s.pend = false ∧ step s = .next s.nextTurn) ∨
    (s.turn = .host ∧ step s = hostTurn s.nextTurn) ∨
    (s.turn = .platformReset ∧ step s = .next s.nextTurn.resetUnit) := by
  unfold step machineStep
  cases ht : s.turn with
  | unit =>
    cases hp : s.pend with
    | true => exact .inl ⟨rfl, rfl, by simp [agentTurn, unitTurn, hp]⟩
    | false => exact .inr (.inl ⟨rfl, rfl, by simp [agentTurn, unitTurn, hp]⟩)
  | host => exact .inr (.inr (.inl ⟨rfl, rfl⟩))
  | platformReset => exact .inr (.inr (.inr ⟨rfl, rfl⟩))

theorem turn_of_cons {s : State} {t : Turn} {more : List Turn} (h : s.sched = t :: more) : s.turn = t := by
  rw [State.turn, h]

theorem turn_of_nil_of_pend {s : State} (h : s.sched = []) (hp : s.pend = true) : s.turn = .unit := by
  rw [State.turn, h]; simp [hp]

theorem turn_of_nil_of_idle {s : State} (h : s.sched = []) (hp : s.pend = false) : s.turn = .host := by
  rw [State.turn, h]; simp [hp]

/-- `BUSY` reads `PEND` (R24, R27). -/
@[simp] theorem statusWord_busy (s : State) : s.statusWord.getLsbD 0 = s.pend := by
  rw [State.statusWord, BitVec.getLsbD_append]
  cases s.pend <;> rfl

end Sys2Proof.Machine
end

