-- ==== Sys2Proof/Tests/Slice0.lean ====
section
/-! SUPPORT. The model's own tests. Expected results are the vectors of 95_test_vectors.md (its section is named at each
test); `witness_` theorems show, for a statement of Obligations.lean with hypotheses, a state and operands that meet
them, clause by clause at the ends of its ranges. -/

namespace Sys2Proof.Tests

open Sys2Proof Sys2Proof.Machine

/- One theorem at a time: elaborated side by side, the closed evaluations below hold one thread each. -/
set_option Elab.async false

/-! ## Helpers -/

/-- The idle unit after reset with the given registers holding pairs. -/
def loaded (regs : List (FReg × DWord × Int)) : State :=
  regs.foldl (fun s r => s.writeF r.1 ⟨r.2.1, BitVec.ofInt 32 r.2.2⟩) State.reset

/-- The unit after reset with the word `w` in flight on the operand `arg`. -/
def busy (w : Word) (arg : DWord) : State := ({ State.reset with argSig := arg }).latch w

/-- The halted unit. -/
def halted : State := State.reset.takeFault .uninit 0x00021303

/-- What `g` shows of the state a command or a step ends in. -/
def shown {α : Type} (o : Host.Outcome State Fault Refusal) (g : State → α) : Option α :=
  match o with
  | .next s => some (g s)
  | .fault _ => none
  | .refused _ => none

/-- Register `i` as a pair, if it is valid. -/
def pair (i : FReg) (s : State) : Option (DWord × Int) :=
  if s.f[i].valid then some (s.f[i].sig, s.f[i].exp.toInt) else none

/-- A DIGITS result as the host sees it. -/
def digitsShown (s : State) : List Nat × Int :=
  ((s.dbuf.toList.take s.dlen.toNat).map (fun b => b.toNat - 0x30), s.dexp.toInt)

/-! ## Well-formedness: each pair of equal register fields is refused -/

theorem test_wf_accepts_distinct : (Instr.boundD 0 1 2).wf = true ∧ (Instr.boundS 7 6 5).wf = true := by decide
theorem test_wf_refuses_v_eq_m : (Instr.boundD 0 0 2).wf = false ∧ (Instr.boundS 0 0 2).wf = false := by decide
theorem test_wf_refuses_v_eq_p : (Instr.boundD 0 2 0).wf = false ∧ (Instr.boundS 0 2 0).wf = false := by decide
theorem test_wf_refuses_m_eq_p : (Instr.boundD 0 1 1).wf = false ∧ (Instr.boundS 0 1 1).wf = false := by decide
theorem test_wf_accepts_aliased_digits : (Instr.digits 0 0 0).wf = true := by decide

/-! ## Decoding: every command's word, bit by bit from R81 and R83 -/

theorem test_decode_nop : decode 0b00000000000000000000000000000000 = .ok .nop := by decide
theorem test_decode_ldf : decode 0b00000000000000000000010100000001 = .ok (.ldf 5) := by decide
theorem test_decode_fsub : decode 0b00000000000000110011011000000010 = .ok (.fsub 6 3 3) := by decide
theorem test_decode_fmul : decode 0b00000000000000100001001100000011 = .ok (.fmul 3 1 2) := by decide
theorem test_decode_fnorm : decode 0b00000000000000000011010000000100 = .ok (.fnorm 4 3) := by decide
theorem test_decode_fnormto : decode 0b00000000000000110000011100000101 = .ok (.fnormto 7 0 3) := by decide
theorem test_decode_cpow : decode 0b00000000000000000010010000000110 = .ok (.cpow 4 2) := by decide
theorem test_decode_fclassD : decode 0b00000000000000000000000000000111 = .ok .fclassD := by decide
theorem test_decode_fclassS : decode 0b00000001000000000000000000000111 = .ok .fclassS := by decide
theorem test_decode_boundD : decode 0b00000000000001100101011100001000 = .ok (.boundD 7 5 6) := by decide
theorem test_decode_boundS : decode 0b00000001000000100001000000001000 = .ok (.boundS 0 1 2) := by decide
theorem test_decode_digits : decode 0b00000000000000100001000000001001 = .ok (.digits 0 1 2) := by decide

/-- The illegal words of 95 §3.7, with the reason R84 gives each. -/
theorem test_decode_illegal :
    [0x0000000A, 0xFFFFFFFF, 0x00000800, 0x00001001, 0x01000002, 0x00100003, 0x00000107, 0x00020008, 0x00002008].map
        decode =
      [.error .reservedOpcode, .error .reservedOpcode, .error .maskMismatch, .error .maskMismatch, .error .maskMismatch,
        .error .maskMismatch, .error .maskMismatch, .error .equalRegisters, .error .equalRegisters] := by decide

theorem test_decodeTableWord : decodeTableWord 32 0x00002406 = some (.cpow 4 2) ∧ decodeTableWord 32 0x0A = none := by
  decide

theorem test_parse_small_letters :
    parseAsm ['f', 'm', 'u', 'l', ' ', 'f', '3', ',', 'F', '1', ',', ' ', 'f', '2'] = some (.fmul 3 1 2) := by decide

/-! ## One command each (95 §3.1 to §3.5) -/

theorem test_nop : shown (exec .nop (busy 0 0)) (·.pend) = some false := by decide

theorem test_ldf :
    shown (exec (.ldf 5) { State.reset with pargSig := 0x8000000000000000, pargExp := 0xFFFFFFC1 }) (pair 5) =
      some (some (0x8000000000000000, -63)) := by decide

theorem test_fsub :
    shown (exec (.fsub 3 1 2) (loaded [(1, 0xFFFFFFFFFFFFFFFF, 0), (2, 1, 0)])) (pair 3) =
      some (some (0xFFFFFFFFFFFFFFFE, 0)) := by decide +kernel

theorem test_fsub_precond :
    shown (exec (.fsub 3 1 2) (loaded [(1, 1, 0), (2, 1, 1)])) (fun s => (s.cause, pair 3 s)) =
      some (.subPrecond, none) := by decide +kernel

theorem test_fmul_tie :
    shown (exec (.fmul 3 1 2) (loaded [(1, 0x8000000000000000, 0), (2, 1, 0)])) (pair 3) = some (some (1, 64)) := by
  decide +kernel

theorem test_fmul_range :
    shown (exec (.fmul 3 1 2) (loaded [(1, 1, -2147483648), (2, 1, -65)])) (·.cause) = some .expRange := by
  decide +kernel

theorem test_fnorm :
    shown (exec (.fnorm 1 1) (loaded [(1, 0x12345, -10)])) (pair 1) = some (some (0x91A2800000000000, -57)) := by
  decide +kernel

theorem test_fnorm_zero : shown (exec (.fnorm 2 1) (loaded [(1, 0, 0)])) (·.cause) = some .normZero := by
  decide +kernel

theorem test_fnormto_normalized :
    shown (exec (.fnormto 1 1 2) (loaded [(1, 3, 10), (2, 9, -52)])) (pair 1) =
      some (some (0xC000000000000000, -52)) := by decide +kernel

theorem test_fnormto_bit_lost :
    shown (exec (.fnormto 1 1 2) (loaded [(1, 3, 10), (2, 9, -53)])) (·.cause) = some .normtoPrecond := by
  decide +kernel

theorem test_cpow_low_end :
    shown (exec (.cpow 4 2) (loaded [(2, 0, -1137)])) (fun s => (pair 4 s, s.cpk.toInt)) =
      some (some (0x9E19DB92B4E31BA9, 1013), 324) := by decide +kernel

theorem test_cpow_range : shown (exec (.cpow 4 2) (loaded [(2, 1, 963)])) (·.cause) = some .cpowRange := by
  decide +kernel

theorem test_fclassD :
    shown (exec .fclassD (busy 0x7 0x7FF8000000000001)) (fun s => (s.cls, s.csig)) =
      some (0x07FF0004, 0x0008000000000001) := by decide +kernel

theorem test_fclassS :
    shown (exec .fclassS (busy 0x01000007 0xFFFFFFFF80000001)) (fun s => (s.cls, s.csig)) =
      some (0x00000111, 1) := by decide +kernel

theorem test_boundD :
    shown (exec (.boundD 0 1 2) (busy 0x00021008 0xBFF0000000000000)) (fun s => (pair 0 s, pair 1 s, pair 2 s)) =
      some (some (0x8000000000000000, -63), some (0x7FFFFFFFFFFFFE00, -63), some (0x8000000000000400, -63)) := by
  decide +kernel

theorem test_boundD_class :
    shown (exec (.boundD 0 1 2) (busy 0x00021008 0xFFF0000000000001)) (fun s => (s.cause, pair 0 s)) =
      some (.boundClass, none) := by decide +kernel

theorem test_boundS :
    shown (exec (.boundS 0 1 2) (busy 0x01021008 0xFFFFFFFF7F7FFFFF)) (fun s => (pair 0 s, pair 1 s, pair 2 s)) =
      some (some (0xFFFFFF0000000000, 64), some (0xFFFFFE8000000000, 64), some (0xFFFFFF8000000000, 64)) := by
  decide +kernel

theorem test_boundS_class :
    shown (exec (.boundS 0 1 2) (busy 0x01021008 0x0000000100000000)) (·.cause) = some .boundClass := by
  decide +kernel

/-- The operands of trace 4 (the least denormal), with the refinement. -/
def leastDenormal : State :=
  loaded [(0, 0x8000000000000000, -1137), (1, 0x4000000000000000, -1137), (2, 0xC000000000000000, -1137)]

/-- The operands of trace 5 (the largest finite number). -/
def largestFinite : State :=
  loaded [(0, 0xFFFFFFFFFFFFF800, 960), (1, 0xFFFFFFFFFFFFF400, 960), (2, 0xFFFFFFFFFFFFFC00, 960)]

/-- The operands of trace 1 (1.0). -/
def one : State :=
  loaded [(0, 0x8000000000000000, -63), (1, 0x7FFFFFFFFFFFFE00, -63), (2, 0x8000000000000400, -63)]

theorem test_digits_refined :
    shown (exec (.digits 0 1 2) { leastDenormal with prefine := true }) digitsShown = some ([5], -324) := by
  decide +kernel

theorem test_digits_fractional :
    shown (exec (.digits 0 1 2) { largestFinite with prefine := false }) digitsShown =
      some ([1, 7, 9, 7, 6, 9, 3, 1, 3, 4, 8, 6, 2, 3, 1, 5, 8], 292) := by decide +kernel

/-! ## One step of the machine (95 §3.7, §4) -/

theorem test_step_runs_the_placed_word :
    shown (step (State.reset.withFetchWord 32 0x00021303)) (fun s => (s.statusWord, s.fcmd)) =
      some (0x00000202, 0x00021303) := by decide +kernel

theorem test_step_overrun :
    shown (step { busy 0x00001404 0 with prog := [lineW 0x00C 0], sched := [.host] })
      (fun s => (s.statusWord, s.fcmd, s.pend)) = some (0x00000C02, 0, false) := by decide +kernel

theorem test_step_illegal_word :
    shown (step (busy 0x00020008 0)) (fun s => (s.cause, s.fcmd)) = some (.illegal, 0x00020008) := by decide +kernel

theorem test_step_refine_off :
    shown (step { State.reset with prog := [lineW 0x000 0] }) (fun s => (s.ctrlWord, s.prog)) = some (0, []) := by
  decide +kernel

theorem test_window_digit_word :
    ({ State.reset with dbuf := digitBytes [1, 7, 9, 7, 6] }).readWord 0x200 = 0x37393731 := by decide +kernel

/-! ## Witnesses: encoding and the agents -/

theorem witness_EncodeInvertsDecode : decode 0x01065708 = .ok (.boundS 7 5 6) := by decide

theorem witness_IllegalWords_each_case :
    IllegalWord 0x0000000A ∧ IllegalWord 0x000000FF ∧ IllegalWord 0x00000800 ∧ IllegalWord 0x00008009 ∧
    IllegalWord 0x00080003 ∧ IllegalWord 0x02000003 ∧ IllegalWord 0x00000107 ∧ IllegalWord 0x00001001 ∧
    IllegalWord 0x00010004 ∧ IllegalWord 0x01000009 ∧ IllegalWord 0x00020008 ∧ ¬IllegalWord 0x00021008 := by
  simp only [IllegalWord]
  refine ⟨?_, ?_, ?_, ?_, ?_, ?_, ?_, ?_, ?_, ?_, ?_, ?_⟩ <;> decide

theorem witness_IllegalWords_in_flight :
    (busy 0x00020008 0).pend = true ∧ IllegalWord (busy 0x00020008 0).pcmd := by
  simp only [IllegalWord]
  decide

theorem witness_OpcodeRows : ∃ r ∈ opRows, r.fits 0x00021303 = true :=
  ⟨⟨0xFFF888FF, 0x00000003, fun w => .fmul (rdField w) (raField w) (rbField w)⟩, by simp [opRows], by decide⟩

theorem witness_StepRuns_scheduled :
    let s : State := { busy 0x00021303 0 with sched := [.unit, .host] }
    s.pend = true ∧ decode s.pcmd = .ok (.fmul 3 1 2) ∧ s.sched = .unit :: [.host] := by decide

theorem witness_StepRuns_unscheduled :
    (busy 0x00021303 0).pend = true ∧ decode (busy 0x00021303 0).pcmd = .ok (.fmul 3 1 2) ∧
    (busy 0x00021303 0).sched = [] := by decide

theorem witness_StepRuns_placed : (Instr.boundD 0 1 2).wf = true := by decide

theorem witness_EveryCommand_illegal : decode (busy 0x0000000A 0).pcmd = .error .reservedOpcode := by decide

theorem witness_InvalidSource : ∃ r ∈ sources (.digits 0 1 2), (State.reset).f[r].valid = false :=
  ⟨2, by decide, by decide⟩

theorem witness_CommandFrame :
    (∃ t, exec (.ldf 5) State.reset = .next t) ∧ mayWrite (.ldf 5) (.fSigLo 4) = false ∧
    (4 : FReg) ∉ fDests (.ldf 5) := ⟨⟨_, rfl⟩, by decide, by decide⟩

theorem witness_HaltedUntilReset :
    halted.fault = true ∧ halted.pend = false ∧ (∃ t, step halted = .next t) := ⟨rfl, rfl, ⟨_, rfl⟩⟩

theorem witness_HaltedUntilReset_cmd_write :
    let s : State := { halted with prog := [lineW 0x00C 0], sched := [.host, .unit] }
    s.fault = true ∧ s.turn = .host ∧ s.prog = .write 0x00C 4 0 :: [] := by decide

theorem witness_Overrun :
    let s : State := { busy 0x00001404 0 with prog := [lineW 0x00C 0], sched := [.host] }
    s.pend = true ∧ s.fault = false ∧ s.turn = .host ∧ s.prog = .write 0x00C 4 0 :: [] := by decide

theorem witness_BothOrders :
    let s : State := { busy 0x00000501 0 with prog := [lineW 0x00C 0] }
    s.pend = true ∧ s.fault = false ∧ s.prog = .write 0x00C 4 0 :: [] ∧
    ∃ t, complete { s with sched := [.host] } = .next t ∧ t.fault = false :=
  ⟨rfl, rfl, rfl, ⟨_, rfl, rfl⟩⟩

theorem witness_IssueCases :
    halted.fault = true ∧ ((busy 0 0).fault = false ∧ (busy 0 0).pend = true) ∧
    (State.reset.fault = false ∧ State.reset.pend = false) := by decide

theorem witness_IssueCases_decodes : decode 0x00000501 = .ok (.ldf 5) := by decide

theorem witness_CommandsRunOnTheLatchedCopies : (0x7FFFFFFF : Word).getLsbD 31 = false := by decide

theorem witness_RefineAffectsDigitsAlone : ∀ v m p, Instr.boundD 0 1 2 ≠ .digits v m p := by simp

/-- The working interval of trace 1 (95 §3.5). -/
def traceOne : Working := ⟨0x4E1FFFFFFFFFFEC9, 0x4E20000000000270, 0x4E20000000000000, 2 ^ 49⟩

/-- The three pairs of trace 1. -/
def oneV : Fp := ⟨0x8000000000000000, BitVec.ofInt 32 (-63)⟩
@[inherit_doc oneV] def oneM : Fp := ⟨0x7FFFFFFFFFFFFE00, BitVec.ofInt 32 (-63)⟩
@[inherit_doc oneV] def oneP : Fp := ⟨0x8000000000000400, BitVec.ofInt 32 (-63)⟩

theorem witness_scale : scale oneV oneM oneP = .ok (traceOne, 4) := by decide +kernel

theorem witness_emit : emit traceOne = .ok ⟨[1], 4, 0x270, 0x4E20000000000000, 0x3A7, 0x270⟩ := by decide +kernel

theorem witness_digitGen :
    digitGen false oneV oneM oneP = .ok ⟨[1], 0⟩ ∧ digitGen true oneV oneM oneP = .ok ⟨[1], 0⟩ := by decide +kernel

theorem witness_ResetStateTable : State.reset = State.reset ∧ halted.resetUnit ≠ halted := by decide

theorem witness_ResetStateTable_sources : sources (.fnorm 1 1) ≠ [] := by decide

theorem witness_ResetSourcesAgree_platform :
    ({ busy 0x00001404 0 with sched := [.platformReset] } : State).turn = .platformReset := by decide

theorem witness_ResetSourcesAgree_software :
    let s : State := { halted with prog := [lineW 0x000 0x80000000] }
    s.turn = .host ∧ s.prog = .write 0x000 4 0x80000000 :: [] ∧ (0x80000000 : Word).getLsbD 31 = true := by decide

/-- A busy unit whose host has one of each operation still to do. -/
def busyHost : State :=
  { busy 0x00000501 0 with prog := [.wait, .read 0x004 4, .write 0xFFC 4 0], sched := [.host, .host] }

theorem witness_CompletionIsFair :
    busyHost.pend = true ∧ ∀ op ∈ busyHost.prog, match op with
      | .read off bytes => accessTaken off bytes = true
      | .write off bytes _ => accessTaken off bytes = true
      | .wait => True := by
  refine ⟨rfl, ?_⟩
  simp only [busyHost, List.mem_cons, List.not_mem_nil, or_false, forall_eq_or_imp, forall_eq]
  decide

theorem witness_WaitAlwaysEnds : busyHost.prog = .wait :: [.read 0x004 4, .write 0xFFC 4 0] := rfl

theorem witness_OnlyAccessesNotTakenStop :
    let s : State := { State.reset with prog := [.read 0x002 4] }
    s.turn = .host ∧ (0x002 : Offset).toNat % 4 ≠ 0 ∧ s.prog = .read 0x002 4 :: [] := by decide

/-- The operations the window takes, at the first and the last offset, a WAIT while busy and while idle, and none. -/
theorem witness_HostTurn :
    ({ State.reset with prog := [lineR 0x000] } : State).turn = .host ∧
    ({ busy 0 0 with prog := [lineW 0xFFC 7], sched := [.host] } : State).turn = .host ∧
    (0x000 : Offset).toNat % 4 = 0 ∧ (0xFFC : Offset).toNat % 4 = 0 ∧
    busyHost.turn = .host ∧ busyHost.pend = true ∧
    ({ State.reset with prog := [.wait] } : State).turn = .host ∧ State.reset.turn = .host ∧ State.reset.prog = [] := by
  decide

/-- The host's own step: a read of `CTRL` after reset (R25, R37) and a write of `ARG_EXP` (R58). -/
theorem test_step_host_accesses :
    shown (step { State.reset with prog := [lineR 0x000] }) (fun s => (s.reads, s.prog)) = some ([1], []) ∧
    shown (step { State.reset with prog := [lineW 0x018 7] }) (·.argExp) = some 7 := by decide +kernel

/-! ## Witnesses: invariants and the window -/

theorem witness_StatusOk : halted.StatusOk ∧ (busy 0 0).StatusOk := by
  unfold State.StatusOk
  decide

theorem witness_DigitsOk : ({ State.reset with dbuf := digitBytes [5], dlen := 1, dexp := -324 } : State).DigitsOk := by
  unfold State.DigitsOk
  decide +kernel

theorem witness_ClassOk : State.reset.ClassOk := by
  refine ⟨?_, ?_, .inl rfl⟩ <;> decide

theorem witness_steps : (∃ t, step (busy 0x00000007 0) = .next t) ∧ ∃ t, step halted = .next t :=
  ⟨⟨_, rfl⟩, ⟨_, rfl⟩⟩

theorem witness_WindowMap :
    windowMap 0x8EC = some (.romDexp 78) ∧ windowMap 0x17C = some (.fValid 7) ∧ windowMap 0x21C = some (.dbuf 7) := by
  decide +kernel

/-- Offsets the map does not list, at the ends of its gaps. -/
theorem witness_UnlistedWords : ∀ off ∈ ([0x01C, 0x02C, 0x034, 0x048, 0x0FC, 0x180, 0x220, 0x3FC, 0x8F0, 0xFFC] : List Offset),
    windowMap off = none := by decide +kernel

theorem witness_UnlistedWords_offset : ∀ r : WinReg, r.offset ≠ 0x01C := by
  intro r
  cases r with
  | fSigLo i => revert i; decide
  | fSigHi i => revert i; decide
  | fExp i => revert i; decide
  | fValid i => revert i; decide
  | dbuf j => revert j; decide
  | romSigLo n => revert n; decide +kernel
  | romSigHi n => revert n; decide +kernel
  | romBexp n => revert n; decide +kernel
  | romDexp n => revert n; decide +kernel
  | ctrl => decide
  | status => decide
  | fcmd => decide
  | cmd => decide
  | argSigLo => decide
  | argSigHi => decide
  | argExp => decide
  | cls => decide
  | csigLo => decide
  | csigHi => decide
  | cpk => decide
  | dlen => decide
  | dexp => decide

theorem witness_OtherWrites : (0x008 : Offset) ∉ ([0x000, 0x00C, 0x010, 0x014, 0x018] : List Offset) := by decide

theorem witness_Writes : (0x80000001 : Word).getLsbD 31 = true ∧ (0x7FFFFFFE : Word).getLsbD 31 = false := by decide

theorem witness_Reads_racing :
    (busy 0x00000501 0).pend = true ∧ decode (busy 0x00000501 0).pcmd = .ok (.ldf 5) ∧
    mayWrite (.ldf 5) (.fValid 5) = true := by decide

theorem witness_Reads_exact :
    State.reset.pend = false ∧ ∀ i : Instr, decode (busy 0x00000501 0).pcmd = .ok i → mayWrite i .dlen = false := by
  refine ⟨rfl, fun i h => ?_⟩
  cases h
  rfl

/-! ## Witnesses: the commands -/

theorem witness_Fsub : (loaded [(1, 5, 7), (2, 5, 7)]).Holds 1 ⟨5, 7⟩ ∧ (loaded [(1, 5, 7), (2, 5, 7)]).Holds 2 ⟨5, 7⟩ :=
  ⟨rfl, rfl⟩

theorem witness_Fsub_faults :
    (loaded [(1, 1, 0), (2, 2, 0)]).Holds 1 ⟨1, 0⟩ ∧ (loaded [(1, 1, 0), (2, 2, 0)]).Holds 2 ⟨2, 0⟩ ∧
    (1 : DWord).toNat < (2 : DWord).toNat ∧ (State.reset).f[(1 : FReg)].valid = false := ⟨rfl, rfl, by decide, rfl⟩

/-- The exponents of 95 §3.1 where FMUL's sum just fits, `-2^31 - 64 + 64`, and just does not. -/
theorem witness_Fmul :
    (loaded [(1, 1, -2147483648), (2, 1, -64)]).Holds 1 ⟨1, 0x80000000⟩ ∧
    (loaded [(1, 1, -2147483648), (2, 1, -64)]).Holds 2 ⟨1, 0xFFFFFFC0⟩ ∧
    (0x80000000 : Word).toInt + (0xFFFFFFC0 : Word).toInt + 64 = -2 ^ 31 ∧
    (0x80000000 : Word).toInt + (0xFFFFFFBF : Word).toInt + 64 < -2 ^ 31 ∧
    2 ^ 31 - 1 < (0x7FFFFFFF : Word).toInt + (0 : Word).toInt + 64 := ⟨rfl, rfl, by decide, by decide, by decide⟩

theorem witness_Fnorm :
    (loaded [(1, 1, -2147483585)]).Holds 1 ⟨1, 0x8000003F⟩ ∧ (0x8000003F : Word).toInt - clz64 1 = -2 ^ 31 ∧
    (loaded [(1, 1, -2147483648)]).Holds 1 ⟨1, 0x80000000⟩ ∧ (0x80000000 : Word).toInt - clz64 1 < -2 ^ 31 ∧
    (loaded [(1, 0, 0)]).Holds 1 ⟨0, 0⟩ := ⟨rfl, by decide +kernel, rfl, by decide +kernel, rfl⟩

/-- Targets 10 (the exponent itself), -52 (now normalized), -53 (a bit lost) and 11 (above the exponent). -/
theorem witness_Fnormto :
    (loaded [(1, 3, 10), (2, 9, -52)]).Holds 1 ⟨3, 10⟩ ∧ (loaded [(1, 3, 10), (2, 9, -52)]).Holds 2 ⟨9, 0xFFFFFFCC⟩ ∧
    3 * 2 ^ ((10 : Word).toInt - (0xFFFFFFCC : Word).toInt).toNat < 2 ^ 64 ∧
    2 ^ 64 ≤ 3 * 2 ^ ((10 : Word).toInt - (0xFFFFFFCB : Word).toInt).toNat ∧
    (10 : Word).toInt - (11 : Word).toInt < 0 := ⟨rfl, rfl, by decide +kernel, by decide +kernel, by decide⟩

theorem witness_RomEntry : rom[0]? = some ⟨0xAB70FE17C79AC6CA, -1060, -300⟩ ∧
    rom[78]? = some ⟨0x9E19DB92B4E31BA9, 1013, 324⟩ ∧ rom[38]? = some ⟨0x9C40000000000000, -50, 4⟩ := by decide +kernel

theorem witness_Select : select (-1137) = .ok ⟨0x9E19DB92B4E31BA9, 1013, 324⟩ ∧
    select 962 = .ok ⟨0xAB70FE17C79AC6CA, -1060, -300⟩ ∧ select (-1138) = .error .cpowRange ∧
    select 963 = .error .cpowRange := by decide +kernel

theorem witness_Cpow :
    (loaded [(2, 0, -1137)]).Holds 2 ⟨0, 0xFFFFFB8F⟩ ∧ (0xFFFFFB8F : Word).toInt = -1137 ∧
    (loaded [(2, 0, 962)]).Holds 2 ⟨0, 962⟩ ∧ (loaded [(2, 0, 963)]).Holds 2 ⟨0, 963⟩ :=
  ⟨rfl, by decide, rfl, rfl⟩

/-- Binary64 patterns at the ends of the fields: the least denormal, the least normal, the largest finite number, an
infinity. -/
theorem witness_Bound :
    ((0 : FReg) ≠ 1 ∧ (0 : FReg) ≠ 2 ∧ (1 : FReg) ≠ 2) ∧
    fields .double 0x0000000000000001 = ⟨false, 0, 1⟩ ∧ fields .double 0x0010000000000000 = ⟨false, 1, 0⟩ ∧
    fields .double 0x7FEFFFFFFFFFFFFF = ⟨false, 2046, 0xFFFFFFFFFFFFF⟩ ∧
    fields .double 0xFFF0000000000000 = ⟨true, 2047, 0⟩ ∧
    fields .single 0x00000001 = ⟨false, 0, 1⟩ ∧ fields .single 0x00800000 = ⟨false, 1, 0⟩ ∧
    fields .single 0x7F7FFFFF = ⟨false, 254, 0x7FFFFF⟩ ∧ fields .single 0xFF800000 = ⟨true, 255, 0⟩ := by
  decide +kernel

theorem witness_LargestPowerOfTen : largestPow10 1 = (1, 1) ∧ largestPow10 (2 ^ 32 - 1) = (10, 1000000000) := by decide

theorem witness_Refinement : refineDigit 0x4F0CEDC95A718DD3 0x278676E4AD38C6E9 0x1000000000000000 7 0x069364AE07AA54BE =
    .ok 5 := by decide +kernel

/-- Trace 4 (95 §3.5): scaling, and the results without and with the refinement, two decrements apart. -/
theorem witness_Refinement_whole :
    let v : Fp := ⟨0x8000000000000000, BitVec.ofInt 32 (-1137)⟩
    let mm : Fp := ⟨0x4000000000000000, BitVec.ofInt 32 (-1137)⟩
    let mp : Fp := ⟨0xC000000000000000, BitVec.ofInt 32 (-1137)⟩
    scale v mm mp = .ok (⟨0x278676E4AD38C6EB, 0x769364AE07AA54BE, 0x4F0CEDC95A718DD5, 2 ^ 60⟩, 324) ∧
    digitGen false v mm mp = .ok ⟨[7], -324⟩ ∧ digitGen true v mm mp = .ok ⟨[5], -324⟩ := by decide +kernel

theorem witness_Digits : one.Holds 0 oneV ∧ one.Holds 1 oneM ∧ one.Holds 2 oneP := ⟨rfl, rfl, rfl⟩

/-- The faults of 95 §3.5: an overflow of the buffer, unequal exponents, no ROM entry. -/
theorem witness_Digits_faults :
    digitGen true ⟨0x8000000000000001, 0xFFFFFFC1⟩ ⟨0x8000000000000000, 0xFFFFFFC1⟩ ⟨0x8000000000000003, 0xFFFFFFC1⟩ =
      .error .digitsOverflow ∧
    digitGen true ⟨0x8000000000000000, 0xFFFFFFC1⟩ ⟨0x8000000000000000, 0xFFFFFFC2⟩ ⟨0x8000000000000000, 0xFFFFFFC1⟩ =
      .error .digitsPrecond ∧
    digitGen true ⟨0x8000000000000000, 963⟩ ⟨0x7000000000000000, 963⟩ ⟨0x9000000000000000, 963⟩ =
      .error .cpowRange := by decide +kernel

/-- Each way narrowing gives `DIGITS_PRECOND`, at exponent -63, where `one` is `2^49`: `w_plus` 0; the value below
`M_minus`; the value above `M_plus`; `p1` 0. (`w_minus` is never `2^64 - 1`, since a high half is at most `2^64 - 2`, R186.) -/
theorem witness_Digits_narrowing :
    select (-63) = .ok ⟨0x9C40000000000000, -50, 4⟩ ∧
    [(0, 0, 0), (8, 8, 16), (16, 0, 16), (4, 0, 8)].map (fun (t : DWord × DWord × DWord) =>
        digitGen true ⟨t.1, 0xFFFFFFC1⟩ ⟨t.2.1, 0xFFFFFFC1⟩ ⟨t.2.2, 0xFFFFFFC1⟩) =
      List.replicate 4 (.error .digitsPrecond) := by decide +kernel

/-- Trace 1 (95 §3.5): `M_plus` and `delta` leave a prefix that fits, the one digit of weight 4 of five. -/
theorem witness_Digits_fits :
    let X : ℚ := ((0x4E20000000000270 : Nat) : ℚ) / ((2 ^ 49 : Nat) : ℚ)
    (10 : ℚ) ^ ((5 : Int) - 1) ≤ X ∧ X < 10 ^ (5 : Int) ∧
    X - ⌊X / 10 ^ (4 : Int)⌋ * 10 ^ (4 : Int) ≤ ((0x3A7 : Nat) : ℚ) / ((2 ^ 49 : Nat) : ℚ) := by norm_num

/-- The overflow of 95 §3.5 (`delta` 0): its three products, and no prefix of at most 32 digits of `M_plus` fits. -/
theorem witness_Digits_overflow_products :
    (0x8000000000000000 * 0x9C40000000000000 + 2 ^ 63) / 2 ^ 64 + 1 = 0x4E20000000000001 ∧
    (0x8000000000000001 * 0x9C40000000000000 + 2 ^ 63) / 2 ^ 64 = 0x4E20000000000001 ∧
    (0x8000000000000003 * 0x9C40000000000000 + 2 ^ 63) / 2 ^ 64 - 1 = 0x4E20000000000001 := by decide

@[inherit_doc witness_Digits_overflow_products] theorem witness_Digits_overflow :
    let X : ℚ := ((0x4E20000000000001 : Nat) : ℚ) / ((2 ^ 49 : Nat) : ℚ)
    (10 : ℚ) ^ ((5 : Int) - 1) ≤ X ∧ X < 10 ^ (5 : Int) ∧
    ∀ n : Int, 5 - 32 ≤ n → n < 5 → ¬X - ⌊X / 10 ^ n⌋ * 10 ^ n ≤ ((0 : Nat) : ℚ) / ((2 ^ 49 : Nat) : ℚ) := by
  refine ⟨by norm_num, by norm_num, fun n lo hi => ?_⟩
  interval_cases n <;> norm_num

/-- The states of the two clauses on an exponent with no ROM entry. -/
theorem witness_Digits_range :
    let s := loaded [(0, 0x8000000000000000, 963), (1, 0x8000000000000000, -1138)]
    s.Holds 0 ⟨0x8000000000000000, 963⟩ ∧ s.Holds 1 ⟨0x8000000000000000, 0xFFFFFB8E⟩ ∧
    962 < (963 : Word).toInt ∧ (0xFFFFFB8E : Word).toInt < -1137 := ⟨rfl, rfl, by decide, by decide⟩

/-- The three ways two fields of DIGITS are equal. -/
theorem witness_Aliased : ((0 : FReg) = 0 ∨ (0 : FReg) = 2 ∨ (0 : FReg) = 2) ∧ one.Holds 0 oneV ∧ one.Holds 2 oneP :=
  ⟨.inl rfl, rfl, rfl⟩

theorem witness_Aliased_invalid : State.reset.f[(7 : FReg)].valid = false := by decide

theorem witness_BoundThenDigits :
    boundTriple Prec.double.desc (fields .double 0x3FF0000000000000) = .ok ⟨oneV, oneM, oneP⟩ ∧
    one.Holds 0 oneV ∧ one.Holds 1 oneM ∧ one.Holds 2 oneP := ⟨by decide +kernel, rfl, rfl, rfl⟩

theorem witness_BoundThenDigits_single :
    boundTriple Prec.single.desc (fields .single 0x00000001) =
      .ok ⟨⟨0x8000000000000000, 0xFFFFFF2C⟩, ⟨0x4000000000000000, 0xFFFFFF2C⟩, ⟨0xC000000000000000, 0xFFFFFF2C⟩⟩ := by
  decide +kernel

end Sys2Proof.Tests
end

/-! ## The state after reset (R37)

A command on an invalid source faults `UNINIT`, an invalid register reads 0 in the window, and after a reset every
register is invalid. The machine's first reset is a reset of the unit like any later one, so the table is proved once. -/

namespace Sys2Proof.Machine

/-- R21, R206: an invalid source faults `UNINIT`, whichever of the command's sources it is. -/
theorem faults_uninit_of_invalid_source {i : Instr} {s : State} (h : ∃ r ∈ sources i, s.f[r].valid = false) :
    Faults i s .uninit := by
  cases i with
  | nop | ldf | fclassD | fclassS | boundD | boundS => simp [sources] at h
  | fsub d a b => exact execFsub_of_invalid (by simpa [sources] using h)
  | fmul d a b => exact execFmul_of_invalid (by simpa [sources] using h)
  | fnorm d a => exact execFnorm_of_invalid (by simpa [sources] using h)
  | fnormto d a b => exact execFnormto_of_invalid (by simpa [sources] using h)
  | cpow d a => exact execCpow_of_invalid (by simpa [sources] using h)
  | digits v m p => exact execDigits_of_invalid (by simpa [sources] using h)

/-- R56: an invalid register is shown as the pair of zeros. -/
theorem shownF_of_invalid {s : State} {i : FReg} (h : s.f[i].valid = false) : s.shownF i = ⟨0, 0⟩ := by
  rw [State.shownF, h]; rfl

/-- R56: all four window words of an invalid register read 0. -/
theorem readReg_of_invalid {s : State} {i : FReg} (h : s.f[i].valid = false) :
    s.readReg (.fSigLo i) = 0 ∧ s.readReg (.fSigHi i) = 0 ∧ s.readReg (.fExp i) = 0 ∧ s.readReg (.fValid i) = 0 := by
  have hv : s.readReg (.fValid i) = 0 := by rw [State.readReg, h]; rfl
  exact ⟨by simp [State.readReg, shownF_of_invalid h, loWord], by simp [State.readReg, shownF_of_invalid h, hiWord],
    by rw [State.readReg, shownF_of_invalid h], hv⟩

/-- The machine's first reset is the unit's reset, with the model's own fields already empty. -/
theorem reset_eq_resetUnit : State.reset = State.reset.resetUnit := rfl

/-- R37: after a reset no `Fp` register is valid. -/
theorem resetUnit_valid (s : State) (i : FReg) : s.resetUnit.f[i].valid = false := by
  simp [State.reset]

/-- R37: the digit buffer is all zeros after a reset. -/
theorem resetUnit_dbuf_get (s : State) (j : Fin 32) : s.resetUnit.dbuf[j] = 0x00 := by
  simp [State.reset]

/-- R37: `CTRL` reads 1 after a reset, the refinement on. -/
theorem resetUnit_ctrlWord (s : State) : s.resetUnit.ctrlWord = 0x00000001 := by
  simp [State.ctrlWord, State.reset, flag]

/-- R37: `STATUS` reads 0 after a reset: not busy, no fault, no cause. -/
theorem resetUnit_statusWord (s : State) : s.resetUnit.statusWord = 0x00000000 := by
  simp [State.statusWord, State.reset, flag, Cause.code]

/-- The ROM mirror is the same in every state: the ROM is no field of it (R37, log entry 8). -/
theorem romMirror_const (s t : State) (n : Fin 79) :
    t.readReg (.romSigLo n) = s.readReg (.romSigLo n) ∧ t.readReg (.romSigHi n) = s.readReg (.romSigHi n) ∧
      t.readReg (.romBexp n) = s.readReg (.romBexp n) ∧ t.readReg (.romDexp n) = s.readReg (.romDexp n) :=
  ⟨rfl, rfl, rfl, rfl⟩

/-- R37: after a reset every command with a source faults `UNINIT`. -/
theorem resetUnit_faults_uninit (s : State) {i : Instr} (h : sources i ≠ []) : Faults i s.resetUnit .uninit := by
  obtain ⟨r, hr⟩ := List.exists_mem_of_ne_nil _ h
  exact faults_uninit_of_invalid_source ⟨r, hr, resetUnit_valid s r⟩

/-- Settles O17: both resets leave the unit as `resetUnit` does, and its registers are the table's. -/
theorem resetStateTable : Obligations.ResetStateTable := by
  intro s t ht
  obtain ⟨u, rfl⟩ : ∃ u : State, t = u.resetUnit := by
    rcases ht with rfl | rfl
    · exact ⟨State.reset, reset_eq_resetUnit⟩
    · exact ⟨s, rfl⟩
  have hinv := resetUnit_valid u
  exact ⟨fun i => ⟨hinv i, readReg_of_invalid (hinv i)⟩, fun _ => resetUnit_faults_uninit u, rfl, rfl,
    resetUnit_ctrlWord u, resetUnit_statusWord u, rfl, rfl, rfl, rfl, resetUnit_dbuf_get u, rfl, rfl, rfl,
    romMirror_const s _⟩

end Sys2Proof.Machine

/-! ## What a write to the window does (R52, R53, R58, R59)

The map read backwards: a word is found at its own offset only. So the offset of a write says whether it is one of the
five that do something, and every other write is ignored. -/

namespace Sys2Proof.Machine

/-! ### The map read backwards -/

/-- What the map answers at byte offset `a` is nothing, or the word whose own offset is `a`. -/
def StandsAt (a : Nat) (o : Option WinReg) : Prop := ∀ r, o = some r → r.offset.toNat = a

theorem standsAt_none (a : Nat) : StandsAt a none := nofun

theorem standsAt_some {a : Nat} {r : WinReg} (h : r.offset.toNat = a) : StandsAt a (some r) := by
  rintro _ ⟨⟩; exact h

/-- The map is a chain of tests of the offset; each answer may use the test that leads to it. -/
theorem standsAt_ite {a : Nat} {c : Prop} [Decidable c] {x y : Option WinReg} (hx : c → StandsAt a x)
    (hy : ¬c → StandsAt a y) : StandsAt a (if c then x else y) := iteInduction (motive := StandsAt a) hx hy

/-- R52: the 13 single words, then the rows of four of the `Fp` registers, the digit buffer and the rows of the ROM. -/
theorem standsAt_windowMap (off : Offset) : StandsAt off.toNat (windowMap off) := by
  iterate 13 refine standsAt_ite (fun h => standsAt_some h.symm) fun _ => ?_
  refine standsAt_ite (fun hf => ?fpRegisters) fun _ => standsAt_ite (fun hd => ?digitBuffer) fun _ =>
    standsAt_ite (fun hr => ?rom) fun _ => standsAt_none _
  case fpRegisters =>
    iterate 4 refine standsAt_ite (fun h => standsAt_some (by simp [WinReg.offset]; omega)) fun _ => ?_
    exact standsAt_none _
  case digitBuffer =>
    exact standsAt_ite (fun h => standsAt_some (by simp [WinReg.offset]; omega)) fun _ => standsAt_none _
  case rom =>
    iterate 4 refine standsAt_ite (fun h => standsAt_some (by simp [WinReg.offset]; omega)) fun _ => ?_
    exact standsAt_none _

/-- R52: a listed word is found at its own offset only. -/
theorem offset_of_windowMap {off : Offset} {r : WinReg} (h : windowMap off = some r) : r.offset = off :=
  BitVec.eq_of_toNat_eq (standsAt_windowMap off r h)

/-- R53: the map answers nothing at an offset where no word stands. -/
theorem windowMap_of_unlisted {off : Offset} (h : ∀ r : WinReg, r.offset ≠ off) : windowMap off = none :=
  Option.eq_none_iff_forall_ne_some.mpr fun r hr => h r (offset_of_windowMap hr)

/-! ### The five writes that do something -/

theorem hostWrite_ctrl (s : State) (v : Word) : s.hostWrite 0x000 v = s.writeCtrl v := by
  rw [State.hostWrite, windowMap_ctrl]

theorem hostWrite_cmd (s : State) (v : Word) : s.hostWrite 0x00C v = s.issue v := by
  rw [State.hostWrite, windowMap_cmd]

theorem hostWrite_argSigLo (s : State) (v : Word) : s.hostWrite 0x010 v = { s with argSig := setLo s.argSig v } := by
  rw [State.hostWrite, windowMap_argSigLo]

theorem hostWrite_argSigHi (s : State) (v : Word) : s.hostWrite 0x014 v = { s with argSig := setHi s.argSig v } := by
  rw [State.hostWrite, windowMap_argSigHi]

theorem hostWrite_argExp (s : State) (v : Word) : s.hostWrite 0x018 v = { s with argExp := v } := by
  rw [State.hostWrite, windowMap_argExp]

theorem writeCtrl_of_srst (s : State) {v : Word} (h : v.getLsbD 31 = true) : s.writeCtrl v = s.resetUnit := by
  rw [State.writeCtrl, if_pos h]

theorem writeCtrl_of_not_srst (s : State) {v : Word} (h : v.getLsbD 31 = false) :
    s.writeCtrl v = { s with refine := v.getLsbD 0 } := by
  rw [State.writeCtrl, if_neg (Bool.eq_false_iff.mp h)]

@[simp] theorem loWord_setLo (x : DWord) (v : Word) : loWord (setLo x v) = v :=
  BitVec.extractLsb'_append_eq_right
@[simp] theorem hiWord_setLo (x : DWord) (v : Word) : hiWord (setLo x v) = hiWord x :=
  BitVec.extractLsb'_append_eq_left
@[simp] theorem loWord_setHi (x : DWord) (v : Word) : loWord (setHi x v) = loWord x :=
  BitVec.extractLsb'_append_eq_right
@[simp] theorem hiWord_setHi (x : DWord) (v : Word) : hiWord (setHi x v) = v :=
  BitVec.extractLsb'_append_eq_left

/-! ### The writes that are ignored -/

/-- R53, R58: a write at any offset but the five of the writable words changes nothing. -/
theorem hostWrite_of_not_writable (s : State) {off : Offset} (v : Word)
    (h : off ∉ [0x000, 0x00C, 0x010, 0x014, 0x018]) : s.hostWrite off v = s := by
  have hw : ∀ r ∈ [WinReg.ctrl, .cmd, .argSigLo, .argSigHi, .argExp], windowMap off ≠ some r :=
    fun r hr hm => h (offset_of_windowMap hm ▸ List.mem_map_of_mem (f := WinReg.offset) hr)
  unfold State.hostWrite
  split
  case h_6 => rfl
  all_goals exact absurd ‹windowMap off = some _› (hw _ (by decide))

/-- R53: an offset the map does not list reads 0. -/
theorem readWord_of_unlisted (s : State) {off : Offset} (h : ∀ r : WinReg, r.offset ≠ off) :
    s.readWord off = 0 := by
  rw [State.readWord, windowMap_of_unlisted h]

/-- R53: a write at an offset the map does not list changes nothing. -/
theorem hostWrite_of_unlisted (s : State) {off : Offset} (v : Word) (h : ∀ r : WinReg, r.offset ≠ off) :
    s.hostWrite off v = s := by
  rw [State.hostWrite, windowMap_of_unlisted h]

/-- R53: `CMD` reads 0. -/
theorem readWord_cmd (s : State) : s.readWord 0x00C = 0 := by
  rw [State.readWord, windowMap_cmd]; rfl

/-- Settles O30: an unlisted offset and a read-only word, by the map read backwards. -/
theorem unlistedAndReadOnlyWords : Obligations.UnlistedAndReadOnlyWords := fun s _ v =>
  ⟨fun h => ⟨readWord_of_unlisted s h, hostWrite_of_unlisted s v h⟩, readWord_cmd s,
    fun h₁ h₂ h₃ h₄ h₅ => hostWrite_of_not_writable s v <| by
      simp only [List.mem_cons, List.not_mem_nil, h₁, h₂, h₃, h₄, h₅, or_self, not_false_eq_true]⟩

/-! ### Issue (R59) -/

/-- The unit's turn on a latched word that decodes runs its command. -/
theorem unitTurn_latch (s : State) {w : Word} {i : Instr} (h : decode w = .ok i) :
    unitTurn (s.latch w) = exec i (s.latch w) := complete_of_ok h

/-- Settles O14: a `CMD` write is `issue`, and each case of `issue` is read off. -/
theorem issueCases : Obligations.IssueCases := by
  intro s v
  rw [hostWrite_cmd]
  refine ⟨issue_of_halted v, issue_of_busy v, fun hf hp => ?_⟩
  rw [issue_of_idle v hf hp]
  exact ⟨rfl, statusWord_busy _, fun i => unitTurn_latch s⟩

/-- Settles O31: the five writes, one by one, and the writes that are ignored. -/
theorem writesThatDoSomething : Obligations.WritesThatDoSomething := by
  intro s v
  rw [hostWrite_ctrl]
  exact ⟨writeCtrl_of_srst s, writeCtrl_of_not_srst s, hostWrite_cmd s v,
    ⟨_, hostWrite_argSigLo s v, loWord_setLo _ v, hiWord_setLo _ v⟩,
    ⟨_, hostWrite_argSigHi s v, hiWord_setHi _ v, loWord_setHi _ v⟩,
    hostWrite_argExp s v, fun _ => hostWrite_of_not_writable s v⟩

end Sys2Proof.Machine

/-! ## The words the decoder rejects (R83, R84, R86, R89)

The masks and matches of the opcode map are taken apart into the fields of R81, so that a word that decodes is described
in R84's terms. No two rows have a word in common, so the row the decoder finds is any row the word fits. -/

namespace Sys2Proof.Machine

/-! ### A word and its fields (R81) -/

theorem toNat_opcField (w : Word) : (opcField w).toNat = w.toNat % 256 := BitVec.extractLsb'_toNat ..

/-- Words with the same field have the same bits there. -/
theorem getLsbD_eq_of_extractLsb'_eq {w v : Word} {a n : Nat} (h : w.extractLsb' a n = v.extractLsb' a n) {i : Nat}
    (ha : a ≤ i) (hn : i < a + n) : w.getLsbD i = v.getLsbD i := by
  have hb := congrArg (·.getLsbD (i - a)) h
  simpa [show i - a < n by omega, show a + (i - a) = i by omega] using hb

/-- Two words are equal exactly when they agree in every field and between the fields. -/
theorem word_eq_iff_fields {w v : Word} : w = v ↔
    w.extractLsb' 25 7 = v.extractLsb' 25 7 ∧ w.getLsbD 24 = v.getLsbD 24 ∧ w.extractLsb' 19 5 = v.extractLsb' 19 5 ∧
    rbField w = rbField v ∧ w.getLsbD 15 = v.getLsbD 15 ∧ raField w = raField v ∧ w.getLsbD 11 = v.getLsbD 11 ∧
    rdField w = rdField v ∧ opcField w = opcField v := by
  refine ⟨by rintro rfl; simp only [and_self], ?_⟩
  rintro ⟨h25, h24, h19, hb, h15, ha, h11, hd, hopc⟩
  apply BitVec.eq_of_getLsbD_eq
  intro i hi
  obtain h | h | rfl | h | rfl | h | h | rfl | h : i < 8 ∨ (8 ≤ i ∧ i < 11) ∨ i = 11 ∨ (12 ≤ i ∧ i < 15) ∨ i = 15 ∨
    (16 ≤ i ∧ i < 19) ∨ (19 ≤ i ∧ i < 24) ∨ i = 24 ∨ 25 ≤ i := by omega
  · exact getLsbD_eq_of_extractLsb'_eq hopc (Nat.zero_le i) h
  · exact getLsbD_eq_of_extractLsb'_eq (BitVec.toFin_inj.mp hd) h.1 h.2
  · exact h11
  · exact getLsbD_eq_of_extractLsb'_eq (BitVec.toFin_inj.mp ha) h.1 h.2
  · exact h15
  · exact getLsbD_eq_of_extractLsb'_eq (BitVec.toFin_inj.mp hb) h.1 h.2
  · exact getLsbD_eq_of_extractLsb'_eq h19 h.1 h.2
  · exact h24
  · exact getLsbD_eq_of_extractLsb'_eq h25 h hi

theorem opcField_and (w m : Word) : opcField (w &&& m) = opcField w &&& opcField m := BitVec.extractLsb'_and ..

theorem rdField_and (w m : Word) : rdField (w &&& m) = rdField w &&& rdField m := by
  rw [rdField, BitVec.extractLsb'_and, BitVec.toFin_and]; rfl

theorem raField_and (w m : Word) : raField (w &&& m) = raField w &&& raField m := by
  rw [raField, BitVec.extractLsb'_and, BitVec.toFin_and]; rfl

theorem rbField_and (w m : Word) : rbField (w &&& m) = rbField w &&& rbField m := by
  rw [rbField, BitVec.extractLsb'_and, BitVec.toFin_and]; rfl

/-- The bits of a command word that no field covers are 0. -/
def ReservedBitsZero (w : Word) : Prop :=
  w.getLsbD 11 = false ∧ w.getLsbD 15 = false ∧ w.extractLsb' 19 5 = 0 ∧ w.extractLsb' 25 7 = 0

theorem reservedBitsZero_commandWord (opc : BitVec 8) (rd ra rb : FReg) (p : BitVec 1) :
    ReservedBitsZero (commandWord opc rd ra rb p) := by
  refine ⟨?bit11, ?bit15, BitVec.eq_of_getLsbD_eq fun i hi => ?bits19, BitVec.eq_of_getLsbD_eq fun i hi => ?bits25⟩
  case bit11 | bit15 =>
    simp only [commandWord, BitVec.getLsbD_append]
    simp
  case bits19 | bits25 =>
    simp only [commandWord, BitVec.getLsbD_extractLsb', BitVec.getLsbD_append]
    interval_cases i <;> simp

theorem pBit_commandWord (opc : BitVec 8) (rd ra rb : FReg) (p : BitVec 1) :
    (commandWord opc rd ra rb p).getLsbD 24 = p.getLsbD 0 := by
  simp only [commandWord, BitVec.getLsbD_append]
  simp

/-! ### The opcode map by its fields (R83) -/

/-- The mask of a row: every bit but the register fields, and of these the bits of `d`, `a` and `b`. -/
def rowMask (d a b : FReg) : Word := 0xFFF888FF ||| commandWord 0x00 d a b 0

/-- The opcode map with its masks and matches written by fields: 7 covers a register field the command does not use. -/
theorem opRows_eq : opRows = [
    ⟨rowMask 7 7 7, commandWord 0x00 0 0 0 0, fun _ => .nop⟩,
    ⟨rowMask 0 7 7, commandWord 0x01 0 0 0 0, fun w => .ldf (rdField w)⟩,
    ⟨rowMask 0 0 0, commandWord 0x02 0 0 0 0, fun w => .fsub (rdField w) (raField w) (rbField w)⟩,
    ⟨rowMask 0 0 0, commandWord 0x03 0 0 0 0, fun w => .fmul (rdField w) (raField w) (rbField w)⟩,
    ⟨rowMask 0 0 7, commandWord 0x04 0 0 0 0, fun w => .fnorm (rdField w) (raField w)⟩,
    ⟨rowMask 0 0 0, commandWord 0x05 0 0 0 0, fun w => .fnormto (rdField w) (raField w) (rbField w)⟩,
    ⟨rowMask 0 0 7, commandWord 0x06 0 0 0 0, fun w => .cpow (rdField w) (raField w)⟩,
    ⟨rowMask 7 7 7, commandWord 0x07 0 0 0 0, fun _ => .fclassD⟩,
    ⟨rowMask 7 7 7, commandWord 0x07 0 0 0 1, fun _ => .fclassS⟩,
    ⟨rowMask 0 0 0, commandWord 0x08 0 0 0 0, fun w => .boundD (rdField w) (raField w) (rbField w)⟩,
    ⟨rowMask 0 0 0, commandWord 0x08 0 0 0 1, fun w => .boundS (rdField w) (raField w) (rbField w)⟩,
    ⟨rowMask 0 0 0, commandWord 0x09 0 0 0 0, fun w => .digits (rdField w) (raField w) (rbField w)⟩] := rfl

theorem rowMask_fields (d a b : FReg) :
    (rowMask d a b).extractLsb' 25 7 = 127 ∧ (rowMask d a b).getLsbD 24 = true ∧
    (rowMask d a b).extractLsb' 19 5 = 31 ∧ rbField (rowMask d a b) = b ∧ (rowMask d a b).getLsbD 15 = true ∧
    raField (rowMask d a b) = a ∧ (rowMask d a b).getLsbD 11 = true ∧ rdField (rowMask d a b) = d ∧
    opcField (rowMask d a b) = 255 := by
  revert d a b
  decide +kernel

/-- "(w AND mask) = match", field by field. -/
theorem and_rowMask_eq_iff {w : Word} {d a b : FReg} {opc : BitVec 8} {p : BitVec 1} :
    w &&& rowMask d a b = commandWord opc 0 0 0 p ↔
      ReservedBitsZero w ∧ opcField w = opc ∧ w.getLsbD 24 = p.getLsbD 0 ∧
      rdField w &&& d = 0 ∧ raField w &&& a = 0 ∧ rbField w &&& b = 0 := by
  obtain ⟨h11, h15, h19, h25⟩ := reservedBitsZero_commandWord opc 0 0 0 p
  obtain ⟨m25, m24, m19, mb, m15, ma, m11, md, mopc⟩ := rowMask_fields d a b
  have w25 : w.extractLsb' 25 7 &&& 127 = w.extractLsb' 25 7 := BitVec.and_allOnes
  have w19 : w.extractLsb' 19 5 &&& 31 = w.extractLsb' 19 5 := BitVec.and_allOnes
  have wopc : opcField w &&& 255 = opcField w := BitVec.and_allOnes
  simp only [word_eq_iff_fields, BitVec.extractLsb'_and, BitVec.getLsbD_and, rdField_and, raField_and, rbField_and,
    opcField_and, m25, m24, m19, mb, m15, ma, m11, md, mopc, w25, w19, wopc, Bool.and_true, h11, h15, h19, h25,
    pBit_commandWord, rdField_commandWord, raField_commandWord, rbField_commandWord, opcField_commandWord,
    ReservedBitsZero]
  tauto

/-! ### Legal words (R84) -/

/-- What R84 leaves: an opcode of the map, every must-be-zero bit 0, and the register fields of BOUND distinct (R85). -/
def LegalWord (w : Word) : Prop :=
  let opc := w.toNat % 256
  opc ≤ 0x09 ∧ ReservedBitsZero w ∧ (opc ∈ [0x00, 0x07] → rdField w = 0) ∧
  (opc ∈ [0x00, 0x01, 0x07] → raField w = 0) ∧ (opc ∈ [0x00, 0x01, 0x04, 0x06, 0x07] → rbField w = 0) ∧
  (opc ≠ 0x07 → opc ≠ 0x08 → w.getLsbD 24 = false) ∧
  (opc = 0x08 → pairwiseDistinct (rdField w) (raField w) (rbField w) = true)

theorem not_illegalWord_iff {w : Word} : ¬IllegalWord w ↔ LegalWord w := by
  rw [IllegalWord, LegalWord, ReservedBitsZero]
  rcases Nat.lt_or_ge 0x09 (w.toNat % 256) with h | h
  · simp [h, Nat.succ_le_of_lt h]
  · simp [h, Nat.lt_succ_of_le h, and_assoc, pairwiseDistinct, -BitVec.getLsbD_eq_getElem]

theorem and_seven (x : FReg) : x &&& 7 = x := by revert x; decide

theorem and_zero_fReg (x : FReg) : x &&& 0 = 0 := by revert x; decide

/-- The words of the rows, well formed where BOUND asks it, are the legal words: opcode by opcode, with `P` 0 and 1. -/
theorem exists_row_iff_legalWord {w : Word} :
    (∃ r ∈ opRows, r.fits w = true ∧ (r.command w).wf = true) ↔ LegalWord w := by
  simp only [opRows_eq, OpRow.fits, List.mem_cons, List.not_mem_nil, exists_eq_or_imp, beq_iff_eq, and_rowMask_eq_iff,
    and_seven, and_zero_fReg, Instr.wf, ← BitVec.toNat_inj (x := opcField w), toNat_opcField, LegalWord]
  by_cases hz : ReservedBitsZero w
  · generalize w.toNat % 256 = opc
    rcases Nat.lt_or_ge 0x09 opc with h | h
    · simp (disch := omega) [h.not_ge, Nat.ne_of_gt]
    · interval_cases opc <;> cases w.getLsbD 24 <;> simp [hz]
  · simp [hz]

/-! ### The row the decoder finds (R86) -/

/-- Any two rows of the map differ in a bit that both masks cover. -/
theorem opRows_differ : opRows.Pairwise fun r q => q.mask &&& r.pattern ≠ r.mask &&& q.pattern := by decide

/-- A word fits at most one row: each row's match is what the word shows under its mask. -/
theorem row_eq_of_fits {r q : OpRow} {w : Word} (hr : r ∈ opRows) (hq : q ∈ opRows) (hrw : r.fits w = true)
    (hqw : q.fits w = true) : r = q := by
  have : Std.Symm fun r q : OpRow => q.mask &&& r.pattern ≠ r.mask &&& q.pattern := ⟨fun _ _ => Ne.symm⟩
  by_contra hne
  apply opRows_differ.forall hr hq hne
  rw [← beq_iff_eq.mp hrw, ← beq_iff_eq.mp hqw]
  ac_rfl

/-- The decoder reads a word that fits a row as the row's command. -/
theorem decode_of_fits {r : OpRow} {w : Word} (hr : r ∈ opRows) (hf : r.fits w = true) :
    decode w = if (r.command w).wf then .ok (r.command w) else .error .equalRegisters := by
  obtain ⟨q, hq⟩ : ∃ q, opRows.find? (·.fits w) = some q :=
    Option.isSome_iff_exists.mp (List.find?_isSome.mpr ⟨r, hr, hf⟩)
  have hqw : q.fits w = true := List.find?_some (p := fun r : OpRow => r.fits w) hq
  rw [decode, hq, row_eq_of_fits hr (List.mem_of_find?_eq_some hq) hf hqw]

/-- The decoder rejects a word that fits no row. -/
theorem decode_of_not_fits {w : Word} (h : ¬∃ r ∈ opRows, r.fits w = true) : ∃ e, decode w = .error e := by
  have hnone : opRows.find? (·.fits w) = none := List.find?_eq_none.mpr fun r hr hf => h ⟨r, hr, hf⟩
  rw [decode, hnone]
  by_cases hopc : opcField w ≤ 0x09
  · exact ⟨_, if_pos hopc⟩
  · exact ⟨_, if_neg hopc⟩

theorem decode_ok_iff {w : Word} :
    (∃ i, decode w = .ok i) ↔ ∃ r ∈ opRows, r.fits w = true ∧ (r.command w).wf = true := by
  constructor
  · rintro ⟨i, hi⟩
    by_cases h : ∃ r ∈ opRows, r.fits w = true
    · obtain ⟨r, hr, hf⟩ := h
      refine ⟨r, hr, hf, ?_⟩
      by_contra hwf
      rw [decode_of_fits hr hf, if_neg hwf] at hi
      cases hi
    · obtain ⟨e, he⟩ := decode_of_not_fits h
      cases hi.symm.trans he
  · rintro ⟨r, hr, hf, hwf⟩
    exact ⟨_, (decode_of_fits hr hf).trans (if_pos hwf)⟩

/-- R84: the decoder rejects exactly the illegal words. -/
theorem decode_error_iff {w : Word} : (∃ e, decode w = .error e) ↔ IllegalWord w := by
  rw [← not_iff_not, not_illegalWord_iff, ← exists_row_iff_legalWord, ← decode_ok_iff]
  cases decode w <;> simp

/-- R84, R200, R201: the unit's turn on an illegal word in flight is the fault entry `ILLEGAL`. -/
theorem unitTurn_of_illegalWord {s : State} (hp : s.pend = true) (h : IllegalWord s.pcmd) :
    unitTurn s = .next (s.faulted .illegal) := by
  obtain ⟨e, he⟩ := decode_error_iff.mpr h
  rw [unitTurn, if_pos hp]
  rcases complete_cases s with ⟨i, hi, -⟩ | ⟨-, hc⟩
  · cases he.symm.trans hi
  · exact hc

/-- Settles O3: the legal words are the words of the rows, and executing any other faults `ILLEGAL`. -/
theorem illegalWordsAreRejectedAndFault : Obligations.IllegalWordsAreRejectedAndFault :=
  ⟨fun _ => decode_error_iff, fun _ => unitTurn_of_illegalWord⟩

/-- Settles O5: closed words, evaluated. -/
theorem encodingExamples : Obligations.EncodingExamples := by
  unfold Obligations.EncodingExamples
  decide

end Sys2Proof.Machine

/-! ## The `Fp` arithmetic commands (R101 to R107)

What each function answers is said of the function, on `Fp` pairs and the rationals they stand for (R9); a command then
reads its sources, applies the function, and commits the answer or faults. -/

namespace Sys2Proof.Machine

/-! ### The words of the commands (R83) -/

/-- The word of a command shows its row's match under its row's mask, where its unused register fields are 0. -/
theorem commandWord_and_rowMask {opc : BitVec 8} {rd ra rb d a b : FReg} (hd : rd &&& d = 0) (ha : ra &&& a = 0)
    (hb : rb &&& b = 0) : commandWord opc rd ra rb 0 &&& rowMask d a b = commandWord opc 0 0 0 0 :=
  and_rowMask_eq_iff.mpr ⟨reservedBitsZero_commandWord .., opcField_commandWord .., pBit_commandWord ..,
    by rwa [rdField_commandWord], by rwa [raField_commandWord], by rwa [rbField_commandWord]⟩

/-- A word that decodes fits a row of the opcode map whose command it is. -/
theorem exists_row_of_decode {w : Word} {i : Instr} (h : decode w = .ok i) :
    ∃ r ∈ opRows, r.fits w = true ∧ r.command w = i := by
  obtain ⟨r, hr, hf, hwf⟩ := decode_ok_iff.mp ⟨i, h⟩
  rw [decode_of_fits hr hf, if_pos hwf] at h
  exact ⟨r, hr, hf, Except.ok.inj h⟩

/-- R101: only one row gives `NOP`, and its mask covers every bit. -/
theorem decode_eq_nop_iff {w : Word} : decode w = .ok .nop ↔ w = 0x00000000 := by
  refine ⟨fun h => ?_, by rintro rfl; rfl⟩
  obtain ⟨r, hr, hf, hc⟩ := exists_row_of_decode h
  obtain rfl : r = ⟨0xFFFFFFFF, 0x00000000, fun _ => .nop⟩ := by
    simp only [opRows, List.mem_cons, List.not_mem_nil, or_false] at hr
    rcases hr with rfl | rfl | rfl | rfl | rfl | rfl | rfl | rfl | rfl | rfl | rfl | rfl
    case inl => rfl
    all_goals cases hc
  rw [← BitVec.and_allOnes (x := w)]
  exact beq_iff_eq.mp hf

/-! ### How an arithmetic command ends (R202, R203) -/

section
variable {s : State} {d : FReg} {g : Except Cause Fp} {r : Fp} {c : Cause}

theorem finish_writeF_of_ok (h : g = .ok r) : finish s (g.map (s.writeF d)) =
    .next { s with f := s.f.set d ⟨r.sig, r.exp, true⟩, pend := false } := by
  rw [h]; rfl

theorem finish_writeF_of_error (h : g = .error c) : finish s (g.map (s.writeF d)) = .next (s.faulted c) := by
  rw [h]; rfl

end

/-! ### Results built from exact integers (R100) -/

theorem toNat_ofNat_sig {n : Nat} (h : n < 2 ^ 64) : (BitVec.ofNat 64 n).toNat = n := by
  rw [BitVec.toNat_ofNat, Nat.mod_eq_of_lt h]

/-- R106, R107: a left shift that loses no bit and lowers the exponent with it keeps the value. -/
theorem val_eq_of_shift {r x : Fp} {n : Nat} (hs : r.sig.toNat = x.sig.toNat * 2 ^ n)
    (he : r.exp.toInt = x.exp.toInt - n) : r.val = x.val := by
  rw [Fp.val, Fp.val, hs, he, zpow_sub₀ two_ne_zero, zpow_natCast]
  push_cast
  field_simp

/-! ### FSUB (R103) -/

theorem fsub_exact {x y : Fp} (he : x.exp = y.exp) (hs : y.sig.toNat ≤ x.sig.toNat) :
    ∃ r, fsub x y = .ok r ∧ r.sig.toNat = x.sig.toNat - y.sig.toNat ∧ r.exp = x.exp ∧ r.val = x.val - y.val := by
  have hsig := toNat_ofNat_sig (n := x.sig.toNat - y.sig.toNat) (by omega)
  refine ⟨_, fsub_of_pre he hs, hsig, rfl, ?_⟩
  simp only [Fp.val, hsig, Nat.cast_sub hs, he, sub_mul]

/-- Settles O37: the difference does not borrow, so it is exact; the guards are `fsub`'s own. -/
theorem fsubIsExactOrFaults : Obligations.FsubIsExactOrFaults := fun s d a b =>
  ⟨commandWord_and_rowMask (and_zero_fReg d) (and_zero_fReg a) (and_zero_fReg b),
    fun x y ha hb => by
      have hexec : exec (.fsub d a b) s = finish s ((fsub x y).map (s.writeF d)) := execFsub_of_holds ha hb
      rw [Faults, hexec]
      refine ⟨fun he hs => ?_, fun h => finish_writeF_of_error (fsub_of_not_pre h)⟩
      obtain ⟨r, hr, hsig, hexp, hval⟩ := fsub_exact he hs
      exact ⟨r, hsig, hexp, hval, finish_writeF_of_ok hr⟩,
    execFsub_of_invalid⟩

/-! ### FMUL (R104, R105) -/

/-- Rounding the high half to nearest is adding the top discarded bit (R104). -/
theorem mulHigh_eq_add_topBit (a b : DWord) :
    mulHigh a b = a.toNat * b.toNat / 2 ^ 64 + a.toNat * b.toNat / 2 ^ 63 % 2 := by
  unfold mulHigh; omega

/-- The rounded high half is within half a unit of the product. -/
theorem abs_mulHigh_sub_le (a b : DWord) : |(mulHigh a b : ℚ) * 2 ^ 64 - (a.toNat : ℚ) * b.toNat| ≤ 2 ^ 63 := by
  have h : mulHigh a b * 2 ^ 64 ≤ a.toNat * b.toNat + 2 ^ 63 ∧ a.toNat * b.toNat ≤ mulHigh a b * 2 ^ 64 + 2 ^ 63 := by
    unfold mulHigh; omega
  obtain ⟨hi, lo⟩ : (mulHigh a b : ℚ) * 2 ^ 64 ≤ 2 ^ 63 + (a.toNat : ℚ) * b.toNat ∧
      (a.toNat : ℚ) * b.toNat ≤ 2 ^ 63 + (mulHigh a b : ℚ) * 2 ^ 64 := by
    rw [add_comm (2 ^ 63), add_comm (2 ^ 63)]
    exact_mod_cast h
  exact abs_sub_le_iff.mpr ⟨sub_le_iff_le_add.mpr hi, sub_le_iff_le_add.mpr lo⟩

/-- The product of two normalized significands keeps at least 63 bits in its high half. -/
theorem le_mulHigh_of_normalized {a b : DWord} (ha : 2 ^ 63 ≤ a.toNat) (hb : 2 ^ 63 ≤ b.toNat) :
    2 ^ 62 ≤ mulHigh a b := by
  have h : 2 ^ 63 * 2 ^ 63 ≤ a.toNat * b.toNat := Nat.mul_le_mul ha hb
  unfold mulHigh; omega

/-- The half unit of `abs_mulHigh_sub_le`, at the exponent of the result. -/
theorem abs_val_sub_mul_le {r x y : Fp} (hs : r.sig.toNat = mulHigh x.sig y.sig)
    (he : r.exp.toInt = x.exp.toInt + y.exp.toInt + 64) :
    |r.val - x.val * y.val| ≤ 2 ^ (x.exp.toInt + y.exp.toInt + 64 - 1) := by
  have hdiff : r.val - x.val * y.val = ((mulHigh x.sig y.sig : ℚ) * 2 ^ 64 - (x.sig.toNat : ℚ) * y.sig.toNat) *
      2 ^ (x.exp.toInt + y.exp.toInt) := by
    simp only [Fp.val, hs, he, zpow_add₀ (two_ne_zero (α := ℚ))]
    norm_cast
    push_cast
    ring
  calc |r.val - x.val * y.val|
      = |(mulHigh x.sig y.sig : ℚ) * 2 ^ 64 - (x.sig.toNat : ℚ) * y.sig.toNat| * 2 ^ (x.exp.toInt + y.exp.toInt) := by
        rw [hdiff, abs_mul, abs_zpow, abs_two]
    _ ≤ 2 ^ 63 * 2 ^ (x.exp.toInt + y.exp.toInt) :=
        mul_le_mul_of_nonneg_right (abs_mulHigh_sub_le _ _) (zpow_nonneg zero_le_two _)
    _ = 2 ^ (x.exp.toInt + y.exp.toInt + 64 - 1) := by
        rw [mul_comm, add_sub_assoc, zpow_add₀ two_ne_zero _ (64 - 1), show (64 - 1 : Int) = (63 : Nat) from rfl,
          zpow_natCast]

theorem fmul_rounds {x y : Fp} (lo : -2 ^ 31 ≤ x.exp.toInt + y.exp.toInt + 64)
    (hi : x.exp.toInt + y.exp.toInt + 64 ≤ 2 ^ 31 - 1) :
    ∃ r, fmul x y = .ok r ∧ r.sig.toNat = mulHigh x.sig y.sig ∧ r.exp.toInt = x.exp.toInt + y.exp.toInt + 64 ∧
      |r.val - x.val * y.val| ≤ 2 ^ (x.exp.toInt + y.exp.toInt + 64 - 1) := by
  have hsig := toNat_ofNat_sig ((mulHigh_lt x.sig y.sig).trans (by decide))
  have hexp := toInt_ofInt_of_fits lo hi
  exact ⟨_, fmul_of_fits lo hi, hsig, hexp, abs_val_sub_mul_le hsig hexp⟩

/-- Settles O38: the rounded high half is `mulHigh`; the guard is `fmul`'s own. -/
theorem fmulRoundsTheProduct : Obligations.FmulRoundsTheProduct := fun s d a b =>
  ⟨commandWord_and_rowMask (and_zero_fReg d) (and_zero_fReg a) (and_zero_fReg b),
    fun x y ha hb => by
      have hexec : exec (.fmul d a b) s = finish s ((fmul x y).map (s.writeF d)) := execFmul_of_holds ha hb
      rw [Faults, hexec]
      refine ⟨fun lo hi => ?_, fun h => finish_writeF_of_error (fmul_of_not_fits h)⟩
      obtain ⟨r, hr, hsig, hexp, herr⟩ := fmul_rounds lo hi
      exact ⟨r, hsig.trans (mulHigh_eq_add_topBit ..), hexp, herr,
        fun hx hy => (le_mulHigh_of_normalized hx hy).trans_eq hsig.symm, finish_writeF_of_ok hr⟩,
    execFmul_of_invalid⟩

/-! ### The four partial products (R105) -/

theorem toNat_eq_halves (x : DWord) : x.toNat = (hiWord x).toNat * 2 ^ 32 + (loWord x).toNat := by
  simp only [hiWord, loWord, BitVec.extractLsb'_toNat, Nat.shiftRight_eq_div_pow]
  omega

/-- The product of two 32-bit values. -/
theorem word_mul_le (u v : Word) : u.toNat * v.toNat ≤ (2 ^ 32 - 1) * (2 ^ 32 - 1) :=
  Nat.mul_le_mul (Nat.le_pred_of_lt u.isLt) (Nat.le_pred_of_lt v.isLt)

/-- R105: the discarded low halves carry into the high half only through the middle sum. -/
theorem mulHighPartial_eq_mulHigh (a b : DWord) : mulHighPartial a b = mulHigh a b := by
  have hprod : a.toNat * b.toNat = (hiWord a).toNat * (hiWord b).toNat * 2 ^ 64 +
      ((loWord a).toNat * (hiWord b).toNat + (hiWord a).toNat * (loWord b).toNat) * 2 ^ 32 +
      (loWord a).toNat * (loWord b).toNat := by
    rw [toNat_eq_halves a, toNat_eq_halves b]
    ring
  simp only [mulHigh, mulHighPartial, hprod]
  omega

/-- Settles O39: the partial products add up to the product, and each is below `2^64`. -/
theorem partialProductsGiveTheSameHalf : Obligations.PartialProductsGiveTheSameHalf := by
  intro x y ul uh vl vh
  have hll : ul * vl ≤ _ := word_mul_le (loWord x) (loWord y)
  have hlh : ul * vh ≤ _ := word_mul_le (loWord x) (hiWord y)
  have hhl : uh * vl ≤ _ := word_mul_le (hiWord x) (loWord y)
  have hhh : uh * vh ≤ _ := word_mul_le (hiWord x) (hiWord y)
  have hlt := mulHigh_lt x y
  rw [mulHighPartial_eq_mulHigh]
  refine ⟨rfl, ?_, ?_, ?_, ?_, ?_, ?_⟩ <;> omega

/-! ### FNORM (R106) -/

theorem fnorm_normalizes {x : Fp} (h : x.sig ≠ 0) (lo : -2 ^ 31 ≤ x.exp.toInt - clz64 x.sig) :
    ∃ r, fnorm x = .ok r ∧ r.sig.toNat = x.sig.toNat * 2 ^ clz64 x.sig ∧ 2 ^ 63 ≤ r.sig.toNat ∧
      r.exp.toInt = x.exp.toInt - clz64 x.sig ∧ r.val = x.val := by
  obtain ⟨-, hge, hlt⟩ := clz64_spec h
  obtain ⟨-, hi⟩ := exp_fits x.exp
  have hsig := toNat_ofNat_sig hlt
  have hexp := toInt_ofInt_of_fits lo (by omega)
  exact ⟨_, fnorm_of_fits h lo, hsig, hge.trans_eq hsig.symm, hexp, val_eq_of_shift hsig hexp⟩

/-- Settles O40: the leading zero count is the shift that sets the top bit; the guards are `fnorm`'s own. -/
theorem fnormNormalizesExactly : Obligations.FnormNormalizesExactly := fun s d a =>
  ⟨commandWord_and_rowMask (rb := 0) (b := 7) (and_zero_fReg d) (and_zero_fReg a) rfl,
    fun x ha => by
      have hexec : exec (.fnorm d a) s = finish s ((fnorm x).map (s.writeF d)) := execFnorm_of_holds ha
      rw [Faults, Faults, hexec]
      refine ⟨fun h lo => ?_, fun h lo => finish_writeF_of_error (fnorm_of_not_fits h lo),
        fun h => finish_writeF_of_error (fnorm_of_zero h)⟩
      obtain ⟨r, hr, hsig, hge, hexp, hval⟩ := fnorm_normalizes h lo
      exact ⟨r, hsig, hge, hexp, hval, finish_writeF_of_ok hr⟩,
    execFnorm_of_invalid⟩

/-! ### FNORMTO (R107) -/

theorem fnormto_reaches {x : Fp} {t : Word} (h0 : 0 ≤ x.exp.toInt - t.toInt)
    (h : x.sig.toNat * 2 ^ (x.exp.toInt - t.toInt).toNat < 2 ^ 64) :
    ∃ r, fnormto x t = .ok r ∧ r.sig.toNat = x.sig.toNat * 2 ^ (x.exp.toInt - t.toInt).toNat ∧ r.exp = t ∧
      r.val = x.val := by
  have hsig := toNat_ofNat_sig h
  exact ⟨_, fnormto_of_pre h0 h, hsig, rfl, val_eq_of_shift hsig (by simp only; omega)⟩

/-- Settles O41: the shift reaches the target exactly; the guards are `fnormto`'s own. -/
theorem fnormtoReachesTheExponent : Obligations.FnormtoReachesTheExponent := fun s d a b =>
  ⟨commandWord_and_rowMask (and_zero_fReg d) (and_zero_fReg a) (and_zero_fReg b),
    fun x y ha hb => by
      have hexec : exec (.fnormto d a b) s = finish s ((fnormto x y.exp).map (s.writeF d)) :=
        execFnormto_of_holds ha hb
      rw [Faults, hexec]
      refine ⟨fun h0 h => ?_, fun h => finish_writeF_of_error (fnormto_of_not_pre h)⟩
      obtain ⟨r, hr, hsig, hexp, hval⟩ := fnormto_reaches h0 h
      exact ⟨r, hsig, hexp, hval, finish_writeF_of_ok hr⟩,
    execFnormto_of_invalid⟩

/-! ### NOP and LDF (R101, R102) -/

/-- Settles O35: `NOP` is `finish` of no write, and issue sets `PEND`, which `BUSY` reads. -/
theorem nopOnlyCommits : Obligations.NopOnlyCommits :=
  ⟨fun s => finish_ok s s, rfl, fun _ => decode_eq_nop_iff, fun s hf hp => by
    rw [hostWrite_cmd, issue_of_idle _ hf hp, statusWord_busy, State.latch_pend]⟩

/-- Settles O36: `LDF` is `finish` of one register write. -/
theorem ldfLoadsTheLatchedPair : Obligations.LdfLoadsTheLatchedPair := fun s d =>
  ⟨commandWord_and_rowMask (ra := 0) (rb := 0) (a := 7) (b := 7) (and_zero_fReg d) rfl rfl,
    finish_ok s (s.writeF d s.latchedArg)⟩

end Sys2Proof.Machine

/-! ## The power-of-ten ROM and the selector (R130 to R135)

`10^dexp / 2^bexp` is a quotient of two naturals, so that an entry is nearest to its power of ten is an inequality of
integers. The selector needs no enumeration of exponents: `2^18 / 78913` is close enough to `log2 10` that, for every
entry, its binary exponent is the fixed-point estimate of its decimal exponent, rounded down; the window follows. -/

namespace Sys2Proof.Machine

/-! ### The entries (R130, R131) -/

/-- The numerator of `10^dexp / 2^bexp`. -/
def RomEntry.num (r : RomEntry) : Nat := 10 ^ r.dexp.toNat * 2 ^ (-r.bexp).toNat

/-- The denominator of `10^dexp / 2^bexp`. -/
def RomEntry.den (r : RomEntry) : Nat := 10 ^ (-r.dexp).toNat * 2 ^ r.bexp.toNat

theorem RomEntry.den_pos (r : RomEntry) : 0 < r.den := by unfold RomEntry.den; positivity

/-- An integer power is a quotient of two natural powers, one of which has exponent 0. -/
theorem zpow_eq_pow_div_pow {x : ℚ} (hx : x ≠ 0) (n : Int) : x ^ n = x ^ n.toNat / x ^ (-n).toNat := by
  rw [← zpow_natCast, ← zpow_natCast, ← zpow_sub₀ hx, Int.toNat_sub_toNat_neg]

theorem RomEntry.ten_zpow_div_two_zpow (r : RomEntry) : (10 ^ r.dexp / 2 ^ r.bexp : ℚ) = r.num / r.den := by
  rw [zpow_eq_pow_div_pow (by norm_num), zpow_eq_pow_div_pow two_ne_zero, div_div_div_eq, RomEntry.num, RomEntry.den]
  push_cast
  rfl

/-- R131 over the integers: `num / den` lies in `[2^63, 2^64)` and less than half a unit from the significand. -/
theorem rom_nearest : ∀ r ∈ rom, 2 ^ 63 * r.den ≤ r.num ∧ r.num < 2 ^ 64 * r.den ∧ 2 ^ 63 ≤ r.sig.toNat ∧
    2 * r.num < (2 * r.sig.toNat + 1) * r.den ∧ 2 * r.sig.toNat * r.den < 2 * r.num + r.den := by decide +kernel

/-- R131: `5^dexp < 2^64` for these three, so no bit of the power is rounded away. -/
theorem rom_exact : ∀ r ∈ rom, r.dexp ∈ [4, 12, 20] → r.sig.toNat * r.den = r.num := by decide +kernel

theorem rom_length : rom.length = 79 := rfl

theorem rom_dexp : rom.map RomEntry.dexp = (List.range rom.length).map fun j : Nat => -300 + 8 * (j : Int) := by
  decide +kernel

theorem dexp_of_rom_getElem? {j : Nat} {r : RomEntry} (h : rom[j]? = some r) : r.dexp = -300 + 8 * j := by
  obtain ⟨hj, -⟩ := List.getElem?_eq_some_iff.mp h
  have hd : (rom.map RomEntry.dexp)[j]? = some r.dexp := by rw [List.getElem?_map, h]; rfl
  rw [rom_dexp, List.getElem?_map, List.getElem?_range hj] at hd
  exact (Option.some.inj hd).symm

/-- Settles O42: the integer inequalities of the ROM, divided by the denominator. -/
theorem romHoldsTheNearestPowers : Obligations.RomHoldsTheNearestPowers := by
  refine ⟨rom_length, fun j r h => ?_⟩
  have hr := List.mem_of_getElem? h
  obtain ⟨hlo, hhi, hnorm, hup, hdown⟩ := rom_nearest r hr
  have hden : (0 : ℚ) < r.den := Nat.cast_pos.mpr r.den_pos
  refine ⟨dexp_of_rom_getElem? h, ?_, ?_, hnorm, ?_, fun hd => ?_⟩
  · rw [r.ten_zpow_div_two_zpow, le_div_iff₀ hden]
    exact_mod_cast hlo
  · rw [r.ten_zpow_div_two_zpow, div_lt_iff₀ hden]
    exact_mod_cast hhi
  · have hup' : (2 * r.num : ℚ) < (2 * r.sig.toNat + 1) * r.den := by exact_mod_cast hup
    have hdown' : (2 * r.sig.toNat * r.den : ℚ) < 2 * r.num + r.den := by exact_mod_cast hdown
    rw [r.ten_zpow_div_two_zpow, abs_sub_lt_iff, sub_lt_comm, lt_div_iff₀ hden, sub_lt_iff_lt_add, div_lt_iff₀ hden]
    constructor <;> linarith
  · have hexact : (r.sig.toNat : ℚ) * r.den = r.num := by exact_mod_cast rom_exact r hr hd
    rw [← eq_div_iff hden.ne', ← r.ten_zpow_div_two_zpow] at hexact
    rw [hexact, div_mul_cancel₀ _ (zpow_ne_zero _ two_ne_zero)]

/-! ### The selector (R133, R135) -/

/-- The index is that of the first decimal exponent `-300 + 8j` to reach the estimate, whether or not there is an entry. -/
theorem selectIndex_first (e : Int) :
    (-60 - e - 1) * 78913 ≤ (-300 + 8 * selectIndex e) * 2 ^ 18 ∧
    (-300 + 8 * (selectIndex e - 1)) * 2 ^ 18 < (-60 - e - 1) * 78913 := by
  unfold selectIndex floorDiv ceilDiv kmin kstep alpha log2_10_num
  omega

/-- R135: there is an entry at the index exactly for the exponents -1137 to 962. -/
theorem selectIndex_in_rom_iff (e : Int) : (0 ≤ selectIndex e ∧ selectIndex e ≤ 78) ↔ -1137 ≤ e ∧ e ≤ 962 := by
  have h := selectIndex_first e
  omega

/-- Each binary exponent is the decimal exponent times `2^18 / 78913`, rounded down, less the 63 bits of the significand. -/
theorem rom_bexp_estimate : ∀ r ∈ rom, (r.bexp + 63) * 78913 ≤ r.dexp * 2 ^ 18 ∧
    r.dexp * 2 ^ 18 < (r.bexp + 64) * 78913 := by decide +kernel

/-- R135: the first entry to reach the estimate passes the window check. -/
theorem window_of_first {e : Int} {r : RomEntry} (hr : r ∈ rom) (hlo : (-60 - e - 1) * 78913 ≤ r.dexp * 2 ^ 18)
    (hhi : (r.dexp - 8) * 2 ^ 18 < (-60 - e - 1) * 78913) : alpha ≤ r.bexp + e + 64 ∧ r.bexp + e + 64 ≤ gamma := by
  have h := rom_bexp_estimate r hr
  unfold alpha gamma
  omega

/-- R135: in the range, the selector answers the entry at its index. -/
theorem select_of_in_range {e : Int} (lo : -1137 ≤ e) (hi : e ≤ 962) :
    ∃ (j : Nat) (r : RomEntry), selectIndex e = j ∧ rom[j]? = some r ∧ select e = .ok r := by
  obtain ⟨h0, h78⟩ := (selectIndex_in_rom_iff e).mpr ⟨lo, hi⟩
  obtain ⟨j, hj⟩ := Int.eq_ofNat_of_zero_le h0
  obtain ⟨r, hr⟩ : ∃ r, rom[j]? = some r := ⟨_, List.getElem?_eq_getElem (by rw [rom_length]; omega)⟩
  have hd := dexp_of_rom_getElem? hr
  have hfirst := selectIndex_first e
  have hw := window_of_first (e := e) (List.mem_of_getElem? hr) (by omega) (by omega)
  refine ⟨j, r, hj, hr, ?_⟩
  rw [select, hj, if_neg (by unfold nrom; omega), Int.toNat_natCast, hr]
  exact if_pos hw

/-- R135: outside the range, the index has no entry. -/
theorem select_of_out_of_range {e : Int} (h : e < -1137 ∨ 962 < e) : select e = .error .cpowRange := by
  have hidx := selectIndex_in_rom_iff e
  rw [select, if_pos (by unfold nrom; omega)]

/-! ### CPOW (R134) -/

section
variable {s : State} {d a : FReg} {x : Fp}

theorem exec_cpow_of_select {r : RomEntry} (ha : s.Holds a x) (h : select x.exp.toInt = .ok r) :
    exec (.cpow d a) s = .next { s with f := s.f.set d ⟨r.sig, BitVec.ofInt 32 r.bexp, true⟩,
                                        cpk := BitVec.ofInt 32 r.dexp, pend := false } := by
  refine (execCpow_of_holds ha).trans ?_
  rw [h, ← romEntry_fp_sig r]
  rfl

theorem faults_cpow_of_out_of_range (ha : s.Holds a x) (h : x.exp.toInt < -1137 ∨ 962 < x.exp.toInt) :
    Faults (.cpow d a) s .cpowRange := by
  refine (execCpow_of_holds ha).trans ?_
  rw [select_of_out_of_range h]
  rfl

end

/-- Settles O44: the selector's entry, its window by `select_ok`, and its normalization by `rom_nearest`. -/
theorem cpowLooksUpTheSelectedEntry : Obligations.CpowLooksUpTheSelectedEntry := fun s d a =>
  ⟨commandWord_and_rowMask (rb := 0) (b := 7) (and_zero_fReg d) (and_zero_fReg a) rfl,
    fun x ha => by
      refine ⟨fun lo hi => ?_, faults_cpow_of_out_of_range ha⟩
      obtain ⟨j, r, hj, hr, hsel⟩ := select_of_in_range lo hi
      obtain ⟨hreach, hbefore⟩ := hj ▸ selectIndex_first x.exp.toInt
      obtain ⟨hmem, hge, hle⟩ := select_ok hsel
      obtain ⟨-, -, hnorm, -, -⟩ := rom_nearest r hmem
      exact ⟨j, r, hr, hreach, hbefore, hnorm, by omega, by omega, exec_cpow_of_select ha hsel⟩,
    execCpow_of_invalid⟩

end Sys2Proof.Machine

/-! ## Decomposition and boundaries (R150 to R159)

The fields of a pattern are slices of it, and FCLASS puts them into `CLASS` side by side. A leading zero count is 64 less
the bit length, so the shifts of BOUND are read off the bit length `L` of the value's significand: the upper boundary,
with one bit more at one exponent less, is normalized by `63 - L`, and that puts the value itself at its top bit. -/

namespace Sys2Proof.Machine

/-! ### The fields of a pattern (R150 to R152) -/

theorem Prec.hidden_eq (p : Prec) : p.desc.hidden = 2 ^ p.desc.fb := by cases p <;> rfl

theorem Prec.emax_lt (p : Prec) : p.desc.emax < 2 ^ p.desc.eb := by cases p <;> decide

theorem Prec.fb_le (p : Prec) : p.desc.fb ≤ 52 := by cases p <;> decide

theorem Prec.eb_le (p : Prec) : p.desc.eb ≤ 11 := by cases p <;> decide

theorem Prec.bias_bounds (p : Prec) : 150 ≤ p.desc.bias ∧ p.desc.bias ≤ 1075 := by cases p <;> decide

theorem fields_e_lt (p : Prec) (arg : DWord) : (fields p arg).e < 2 ^ p.desc.eb := Nat.mod_lt _ (by positivity)

theorem fields_f_lt (p : Prec) (arg : DWord) : (fields p arg).f < 2 ^ p.desc.fb := Nat.mod_lt _ (by positivity)

section
variable (p : Prec) (arg : DWord)

theorem fields_e_eq : (fields p arg).e = (arg.extractLsb' p.desc.fb p.desc.eb).toNat := by
  rw [BitVec.extractLsb'_toNat, Nat.shiftRight_eq_div_pow]
  cases p <;> simp only [fields, rawPattern, Prec.desc] <;> omega

theorem fields_f_eq : (fields p arg).f = (arg.extractLsb' 0 p.desc.fb).toNat := by
  rw [BitVec.extractLsb'_toNat, Nat.shiftRight_zero]
  cases p <;> simp only [fields, rawPattern, Prec.desc] <;> omega

theorem fields_sign_eq : (fields p arg).sign = arg.getLsbD (p.desc.width - 1) := by
  have hw : p.desc.width - 1 < p.desc.width := by cases p <;> decide
  simp only [fields, rawPattern, Nat.testBit_mod_two_pow, decide_eq_true hw, Bool.true_and, BitVec.testBit_toNat]

theorem fields_e_eq_iff {n : Nat} (h : n < 2 ^ p.desc.eb) :
    (fields p arg).e = n ↔ arg.extractLsb' p.desc.fb p.desc.eb = BitVec.ofNat p.desc.eb n := by
  rw [fields_e_eq, BitVec.toNat_eq_nat, and_iff_right h]

theorem fields_f_eq_zero_iff : (fields p arg).f = 0 ↔ arg.extractLsb' 0 p.desc.fb = 0 := by
  rw [fields_f_eq, BitVec.toNat_eq_nat, and_iff_right (by positivity)]
  rfl

end

theorem FloatFields.isZero_eq (x : FloatFields) : x.isZero = decide (x.e = 0 ∧ x.f = 0) := by
  simp [FloatFields.isZero]

theorem FloatFields.isNan_eq (d : Descriptor) (x : FloatFields) : x.isNan d = decide (x.e = d.emax ∧ x.f ≠ 0) := by
  simp [FloatFields.isNan]

theorem FloatFields.isInf_eq (d : Descriptor) (x : FloatFields) : x.isInf d = decide (x.e = d.emax ∧ x.f = 0) := by
  simp [FloatFields.isInf]

/-- R158: the patterns BOUND faults on are the zeros and those whose exponent field is all ones. -/
theorem boundClass_iff (d : Descriptor) (x : FloatFields) :
    (x.isZero ∨ x.isNan d ∨ x.isInf d) ↔ (x.e = 0 ∧ x.f = 0) ∨ x.e = d.emax := by
  rw [x.isZero_eq, x.isNan_eq, x.isInf_eq]
  simp only [decide_eq_true_eq]
  tauto

/-! ### FCLASS (R30, R153) -/

section
variable (p : Prec) (x : FloatFields)

theorem classWord_reserved : (classWord p x).extractLsb' 27 5 = 0 ∧ (classWord p x).extractLsb' 9 7 = 0 ∧
    (classWord p x).extractLsb' 5 3 = 0 := by
  unfold classWord
  refine ⟨?_, ?_, ?_⟩
  · iterate 8 rw [BitVec.extractLsb'_append_eq_of_le (by decide)]
    exact BitVec.extractLsb'_append_eq_left
  · iterate 7 rw [BitVec.extractLsb'_append_eq_of_le (by decide)]
    exact BitVec.extractLsb'_append_eq_right
  · iterate 5 rw [BitVec.extractLsb'_append_eq_of_le (by decide)]
    exact BitVec.extractLsb'_append_eq_right

theorem classWord_bexp : (classWord p x).extractLsb' 16 11 = BitVec.ofNat 11 x.e := by
  unfold classWord
  iterate 8 rw [BitVec.extractLsb'_append_eq_of_le (by decide)]
  exact BitVec.extractLsb'_append_eq_right

theorem classWord_flags : (classWord p x).getLsbD 8 = p.bit.getLsbD 0 ∧ (classWord p x).getLsbD 4 = x.isDenormal ∧
    (classWord p x).getLsbD 3 = x.isInf p.desc ∧ (classWord p x).getLsbD 2 = x.isNan p.desc ∧
    (classWord p x).getLsbD 1 = x.isZero ∧ (classWord p x).getLsbD 0 = x.sign := by
  simp only [classWord, BitVec.getLsbD_append, flag, BitVec.getLsbD_ofBool]
  simp

end

/-- R153 at either precision. -/
theorem fclass_reports (p : Prec) (s : State) :
    let E := s.pargSig.extractLsb' p.desc.fb p.desc.eb
    let F := s.pargSig.extractLsb' 0 p.desc.fb
    ∃ c : Word, finish s (.ok (fclass p s)) = .next { s with cls := c, csig := F.setWidth 64, pend := false } ∧
      c.extractLsb' 27 5 = 0 ∧ c.extractLsb' 16 11 = E.setWidth 11 ∧ c.extractLsb' 9 7 = 0 ∧
      c.getLsbD 8 = p.bit.getLsbD 0 ∧ c.extractLsb' 5 3 = 0 ∧ c.getLsbD 4 = decide (E = 0) ∧
      c.getLsbD 3 = decide (E = BitVec.ofNat p.desc.eb p.desc.emax ∧ F = 0) ∧
      c.getLsbD 2 = decide (E = BitVec.ofNat p.desc.eb p.desc.emax ∧ F ≠ 0) ∧
      c.getLsbD 1 = decide (E = 0 ∧ F = 0) ∧ c.getLsbD 0 = s.pargSig.getLsbD (p.desc.width - 1) := by
  intro E F
  obtain ⟨hhigh, hmid, hlow⟩ := classWord_reserved p (fields p s.pargSig)
  obtain ⟨hprec, hden, hinf, hnan, hzero, hneg⟩ := classWord_flags p (fields p s.pargSig)
  have hE0 := fields_e_eq_iff p s.pargSig (n := 0) (by positivity)
  have hEmax := fields_e_eq_iff p s.pargSig p.emax_lt
  have hF0 := fields_f_eq_zero_iff p s.pargSig
  have hbexp : BitVec.ofNat 11 (fields p s.pargSig).e = E.setWidth 11 := by rw [fields_e_eq, BitVec.ofNat_toNat]
  have hcsig : BitVec.ofNat 64 (fields p s.pargSig).f = F.setWidth 64 := by rw [fields_f_eq, BitVec.ofNat_toNat]
  refine ⟨classWord p (fields p s.pargSig), ?_, hhigh, (classWord_bexp ..).trans hbexp, hmid, hprec, hlow,
    hden.trans ?_, hinf.trans ?_, hnan.trans ?_, hzero.trans ?_, hneg.trans (fields_sign_eq ..)⟩
  · rw [finish_ok, ← hcsig]
    rfl
  · exact decide_eq_decide.mpr hE0
  · rw [FloatFields.isInf_eq]
    exact decide_eq_decide.mpr (and_congr hEmax hF0)
  · rw [FloatFields.isNan_eq]
    exact decide_eq_decide.mpr (and_congr hEmax (not_congr hF0))
  · rw [FloatFields.isZero_eq]
    exact decide_eq_decide.mpr (and_congr hE0 hF0)

/-- Settles O45: both precisions are `fclass_reports`; a binary64 exponent field fills the 11 bits of `BEXP`. -/
theorem fclassReportsTheFields : Obligations.FclassReportsTheFields := by
  refine ⟨fun s => ?_, fclass_reports .single, rfl, rfl⟩
  obtain ⟨c, hexec, hhigh, hbexp, hrest⟩ := fclass_reports .double s
  exact ⟨c, hexec, hhigh, hbexp.trans (BitVec.setWidth_eq _), hrest⟩

/-! ### The value (R154) -/

section
variable {p : Prec} {x : FloatFields}

theorem floatValue_of_denormal (hf : x.f < 2 ^ p.desc.fb) (he : x.e = 0) :
    (floatValue p.desc x).sig.toNat = x.f ∧ (floatValue p.desc x).exp.toInt = 1 - p.desc.bias := by
  have hfb : 2 ^ p.desc.fb ≤ 2 ^ 52 := Nat.pow_le_pow_right two_pos p.fb_le
  have hbias := p.bias_bounds
  rw [floatValue, if_pos he]
  exact ⟨toNat_ofNat_sig (by omega), toInt_ofInt_of_fits (by omega) (by omega)⟩

theorem floatValue_of_normal (hf : x.f < 2 ^ p.desc.fb) (he : x.e < 2 ^ p.desc.eb) (h0 : x.e ≠ 0) :
    (floatValue p.desc x).sig.toNat = x.f + 2 ^ p.desc.fb ∧ (floatValue p.desc x).exp.toInt = x.e - p.desc.bias := by
  have hfb : 2 ^ p.desc.fb ≤ 2 ^ 52 := Nat.pow_le_pow_right two_pos p.fb_le
  have heb : 2 ^ p.desc.eb ≤ 2 ^ 11 := Nat.pow_le_pow_right two_pos p.eb_le
  have hbias := p.bias_bounds
  rw [floatValue, if_neg h0, p.hidden_eq]
  exact ⟨toNat_ofNat_sig (by omega), toInt_ofInt_of_fits (by omega) (by omega)⟩

/-- R159: the bit length of a denormal significand is 1 to `FB`. -/
theorem size_sig_of_denormal (hf : x.f < 2 ^ p.desc.fb) (he : x.e = 0) (h0 : x.f ≠ 0) :
    1 ≤ Nat.size (floatValue p.desc x).sig.toNat ∧ Nat.size (floatValue p.desc x).sig.toNat ≤ p.desc.fb := by
  rw [(floatValue_of_denormal hf he).1]
  exact ⟨Nat.size_pos.mpr (Nat.pos_of_ne_zero h0), Nat.size_le.mpr hf⟩

/-- R159: the bit length of a normal significand is `FB + 1`. -/
theorem size_sig_of_normal (hf : x.f < 2 ^ p.desc.fb) (he : x.e < 2 ^ p.desc.eb) (h0 : x.e ≠ 0) :
    Nat.size (floatValue p.desc x).sig.toNat = p.desc.fb + 1 := by
  rw [(floatValue_of_normal hf he h0).1]
  exact le_antisymm (Nat.size_le.mpr (by rw [pow_succ]; omega)) (Nat.lt_size.mpr (Nat.le_add_left ..))

end

/-! ### The boundaries (R155, R156) -/

/-- The leading zeros and the bit length make up the 64 bits of a significand. -/
theorem clz64_add_size (v : DWord) : clz64 v + Nat.size v.toNat = 64 := by
  by_cases h : v = 0
  · subst h; rfl
  obtain ⟨-, hge, hlt⟩ := clz64_spec h
  have h0 : v.toNat ≠ 0 := by rintro h0; simp [h0] at hge
  have hsize := Nat.size_shiftLeft h0 (clz64 v)
  rw [Nat.shiftLeft_eq] at hsize
  have hle := Nat.size_le.mpr hlt
  have hgt := Nat.lt_size.mpr hge
  omega

theorem size_two_mul_add_one (n : Nat) : Nat.size (2 * n + 1) = Nat.size n + 1 :=
  Nat.size_bit (b := true) (by simp)

section
variable {v : Fp}

theorem upperBoundary_parts (hsig : Nat.size v.sig.toNat ≤ 62) (hexp : -2 ^ 31 + 64 ≤ v.exp.toInt) :
    (upperBoundary v).sig.toNat = 2 * v.sig.toNat + 1 ∧ (upperBoundary v).exp.toInt = v.exp.toInt - 1 := by
  have hlt := Nat.size_le.mp hsig
  have hfit := exp_fits v.exp
  exact ⟨toNat_ofNat_sig (by omega), toInt_ofInt_of_fits (by omega) (by omega)⟩

/-- Either way the lower boundary is one unit below the value, `k` exponents further down. -/
theorem lowerBoundary_parts (x : FloatFields) (h0 : 1 ≤ Nat.size v.sig.toNat) (hsig : Nat.size v.sig.toNat ≤ 62)
    (hexp : -2 ^ 31 + 64 ≤ v.exp.toInt) :
    ∃ k : Nat, k ≤ 2 ∧ (lowerBoundary x v).sig.toNat = v.sig.toNat * 2 ^ k - 1 ∧
      (lowerBoundary x v).exp.toInt = v.exp.toInt - k := by
  have hpos := Nat.size_pos.mp h0
  have hlt := Nat.size_le.mp hsig
  have hfit := exp_fits v.exp
  unfold lowerBoundary
  split
  · refine ⟨2, le_rfl, ?_, toInt_ofInt_of_fits (by omega) (by omega)⟩
    rw [mul_comm v.sig.toNat]
    exact toNat_ofNat_sig (by omega)
  · refine ⟨1, one_le_two, ?_, toInt_ofInt_of_fits (by omega) (by omega)⟩
    rw [mul_comm v.sig.toNat]
    exact toNat_ofNat_sig (by omega)

end

/-! ### The triple (R157, R159) -/

/-- R159.1 to R159.3, of the triple `t` of the value `v` of the fields `x`. -/
structure IsBoundTriple (x : FloatFields) (v : Fp) (t : BoundTriple) : Prop where
  plus_exp : t.plus.exp.toInt = v.exp.toInt - 64 + Nat.size v.sig.toNat
  v_normalized : 2 ^ 63 ≤ t.v.sig.toNat
  plus_normalized : 2 ^ 63 ≤ t.plus.sig.toNat
  minus_lt : t.minus.sig.toNat < t.v.sig.toNat
  lt_plus : t.v.sig.toNat < t.plus.sig.toNat
  v_val : t.v.val = v.val
  minus_val : t.minus.val = (lowerBoundary x v).val
  plus_val : t.plus.val = (upperBoundary v).val
  v_exp : t.v.exp = t.plus.exp
  minus_exp : t.minus.exp = t.plus.exp

section
variable {d : Descriptor} {x : FloatFields} {v : Fp}

/-- FNORM of the upper boundary lowers the value's own exponent by all its leading zeros. -/
theorem fnorm_upperBoundary (hsig : Nat.size v.sig.toNat ≤ 62) (hexp : -2 ^ 31 + 64 ≤ v.exp.toInt) :
    ∃ r, fnorm (upperBoundary v) = .ok r ∧ v.sig.toNat * 2 ^ clz64 v.sig < r.sig.toNat ∧ 2 ^ 63 ≤ r.sig.toNat ∧
      r.exp.toInt = v.exp.toInt - clz64 v.sig ∧ r.val = (upperBoundary v).val := by
  obtain ⟨hs, he⟩ := upperBoundary_parts hsig hexp
  have hclz : clz64 v.sig = clz64 (upperBoundary v).sig + 1 := by
    have hv := clz64_add_size v.sig
    have hu := clz64_add_size (upperBoundary v).sig
    rw [hs, size_two_mul_add_one] at hu
    omega
  have hv := clz64_add_size v.sig
  have h0 : (upperBoundary v).sig ≠ 0 := fun h => by simp [h] at hs
  obtain ⟨r, hr, hrs, hnorm, hre, hval⟩ := fnorm_normalizes h0 (by omega)
  refine ⟨r, hr, ?_, hnorm, by omega, hval⟩
  rw [hrs, hs, hclz, pow_succ', ← mul_assoc, mul_comm v.sig.toNat]
  exact Nat.mul_lt_mul_of_pos_right (Nat.lt_succ_self _) (by positivity)

/-- FNORMTO of the value shifts its top bit up to bit 63. -/
theorem fnormto_value {t : Word} (h0 : v.sig ≠ 0) (ht : t.toInt = v.exp.toInt - clz64 v.sig) :
    ∃ r, fnormto v t = .ok r ∧ r.sig.toNat = v.sig.toNat * 2 ^ clz64 v.sig ∧ r.exp = t ∧ r.val = v.val := by
  have hdelta : (v.exp.toInt - t.toInt).toNat = clz64 v.sig := by omega
  rw [← hdelta]
  exact fnormto_reaches (by omega) (hdelta ▸ (clz64_spec h0).2.2)

/-- FNORMTO of the lower boundary loses no bit: it stays below the value. -/
theorem fnormto_lowerBoundary {t : Word} (h0 : 1 ≤ Nat.size v.sig.toNat) (hsig : Nat.size v.sig.toNat ≤ 62)
    (hexp : -2 ^ 31 + 64 ≤ v.exp.toInt) (ht : t.toInt = v.exp.toInt - clz64 v.sig) :
    ∃ r, fnormto (lowerBoundary x v) t = .ok r ∧ r.sig.toNat < v.sig.toNat * 2 ^ clz64 v.sig ∧ r.exp = t ∧
      r.val = (lowerBoundary x v).val := by
  obtain ⟨k, hk, hs, he⟩ := lowerBoundary_parts x h0 hsig hexp
  have hclz := clz64_add_size v.sig
  have hpos := Nat.size_pos.mp h0
  obtain ⟨-, -, hlt⟩ := clz64_spec (v := v.sig) (fun h => by simp [h] at hpos)
  have hdelta : ((lowerBoundary x v).exp.toInt - t.toInt).toNat = clz64 v.sig - k := by omega
  have hless : (lowerBoundary x v).sig.toNat * 2 ^ (clz64 v.sig - k) < v.sig.toNat * 2 ^ clz64 v.sig :=
    calc (lowerBoundary x v).sig.toNat * 2 ^ (clz64 v.sig - k)
        < v.sig.toNat * 2 ^ k * 2 ^ (clz64 v.sig - k) := by
          rw [hs]
          exact Nat.mul_lt_mul_of_pos_right (Nat.sub_one_lt (by positivity)) (by positivity)
      _ = v.sig.toNat * 2 ^ clz64 v.sig := by rw [mul_assoc, ← pow_add, Nat.add_sub_cancel' (by omega)]
  rw [← hdelta] at hless
  obtain ⟨r, hr, hrs, hre, hval⟩ := fnormto_reaches (by omega) (hless.trans hlt)
  exact ⟨r, hr, hrs.trans_lt hless, hre, hval⟩

/-- R159: the two `normalize_to` of R157 never fault, and the triple is as R159 says. -/
theorem boundTriple_ok (hc : ¬(x.isZero ∨ x.isNan d ∨ x.isInf d)) (hv : floatValue d x = v)
    (h0 : 1 ≤ Nat.size v.sig.toNat) (hsig : Nat.size v.sig.toNat ≤ 62) (hexp : -2 ^ 31 + 64 ≤ v.exp.toInt) :
    ∃ t, boundTriple d x = .ok t ∧ IsBoundTriple x v t := by
  subst hv
  have hclz := clz64_add_size (floatValue d x).sig
  have hne : (floatValue d x).sig ≠ 0 := fun h => by simp [h] at h0
  obtain ⟨plus, hplus, hlt, hnorm, hpexp, hpval⟩ := fnorm_upperBoundary hsig hexp
  obtain ⟨minus, hminus, hmlt, hmexp, hmval⟩ := fnormto_lowerBoundary (x := x) h0 hsig hexp hpexp
  obtain ⟨w, hw, hws, hwexp, hwval⟩ := fnormto_value hne hpexp
  exact ⟨⟨w, minus, plus⟩, boundTriple_of_parts hc hplus hminus hw, {
    plus_exp := by simp only; omega
    v_normalized := (clz64_spec hne).2.1.trans_eq hws.symm
    plus_normalized := hnorm
    minus_lt := hmlt.trans_eq hws.symm
    lt_plus := hws.trans_lt hlt
    v_val := hwval
    minus_val := hmval
    plus_val := hpval
    v_exp := hwexp
    minus_exp := hmexp }⟩

end

/-! ### The patterns BOUND takes (R159) -/

/-- R159.4, R159.5: the range of the upper exponent in each precision, and its value for a normal. -/
def InBoundRange (p : Prec) (x : FloatFields) (e : Int) : Prop :=
  match p with
  | .double => -1137 ≤ e ∧ e ≤ 960 ∧ (x.e ≠ 0 → e = x.e - 1086)
  | .single => -212 ≤ e ∧ e ≤ 64 ∧ (x.e ≠ 0 → e = x.e - 190)

/-- R135: both ranges are inside the range of `select`. -/
theorem select_of_inBoundRange {p : Prec} {x : FloatFields} {e : Int} (h : InBoundRange p x e) :
    ∃ r, select e = .ok r := by
  have hin : -1137 ≤ e ∧ e ≤ 962 := by
    cases p
    all_goals
      obtain ⟨lo, hi, -⟩ := h
      omega
  obtain ⟨-, r, -, -, hr⟩ := select_of_in_range hin.1 hin.2
  exact ⟨r, hr⟩

section
variable {p : Prec} {x : FloatFields}

/-- The least denormal has bit length 1, a normal `FB + 1`; the exponent field of a finite normal is at most `EMAX - 1`. -/
theorem inBoundRange_of_finite (hf : x.f < 2 ^ p.desc.fb) (he : x.e < 2 ^ p.desc.eb) (h0 : ¬(x.e = 0 ∧ x.f = 0))
    (hmax : x.e ≠ p.desc.emax) :
    InBoundRange p x ((floatValue p.desc x).exp.toInt - 64 + Nat.size (floatValue p.desc x).sig.toNat) := by
  by_cases hz : x.e = 0
  · obtain ⟨lo, hi⟩ := size_sig_of_denormal hf hz fun h => h0 ⟨hz, h⟩
    rw [(floatValue_of_denormal hf hz).2]
    generalize Nat.size _ = L at lo hi ⊢
    cases p <;> simp only [InBoundRange, Prec.desc] at * <;> omega
  · rw [(floatValue_of_normal hf he hz).2, size_sig_of_normal hf he hz]
    cases p <;> simp only [InBoundRange, Prec.desc] at * <;> omega

theorem size_sig_bounds (hf : x.f < 2 ^ p.desc.fb) (he : x.e < 2 ^ p.desc.eb) (h0 : ¬(x.e = 0 ∧ x.f = 0)) :
    1 ≤ Nat.size (floatValue p.desc x).sig.toNat ∧ Nat.size (floatValue p.desc x).sig.toNat ≤ 53 := by
  have hfb := p.fb_le
  by_cases hz : x.e = 0
  · obtain ⟨lo, hi⟩ := size_sig_of_denormal hf hz fun h => h0 ⟨hz, h⟩
    omega
  · have hL := size_sig_of_normal hf he hz
    omega

theorem le_floatValue_exp (hf : x.f < 2 ^ p.desc.fb) (he : x.e < 2 ^ p.desc.eb) :
    -1075 ≤ (floatValue p.desc x).exp.toInt := by
  have hbias := p.bias_bounds
  by_cases hz : x.e = 0
  · have := (floatValue_of_denormal hf hz).2
    omega
  · have := (floatValue_of_normal hf he hz).2
    omega

end

/-- R158, R159: BOUND answers for every finite non-zero pattern. -/
theorem boundTriple_of_finite {p : Prec} {arg : DWord} (h0 : ¬((fields p arg).e = 0 ∧ (fields p arg).f = 0))
    (hmax : (fields p arg).e ≠ p.desc.emax) : ∃ t, boundTriple p.desc (fields p arg) = .ok t ∧
      IsBoundTriple (fields p arg) (floatValue p.desc (fields p arg)) t := by
  have hf := fields_f_lt p arg
  have he := fields_e_lt p arg
  obtain ⟨lo, hi⟩ := size_sig_bounds hf he h0
  have hexp := le_floatValue_exp hf he
  exact boundTriple_ok (fun hc => ((boundClass_iff ..).mp hc).elim h0 hmax) rfl lo (by omega) (by omega)

/-- Settles O48: the triple is `boundTriple_of_finite`'s; the range of the exponent is read off the bit length. -/
theorem boundTripleProperties : Obligations.BoundTripleProperties := by
  intro p arg x h0 hmax
  obtain ⟨t, ht, hb⟩ := boundTriple_of_finite h0 hmax
  have hrange : InBoundRange p x t.plus.exp.toInt :=
    hb.plus_exp ▸ inBoundRange_of_finite (fields_f_lt p arg) (fields_e_lt p arg) h0 hmax
  exact ⟨t, ht, hb.plus_exp, hb.v_normalized, hb.plus_normalized, hb.minus_lt, hb.lt_plus, hb.v_val, hb.minus_val,
    hb.plus_val, hb.v_exp, hb.minus_exp, hrange, select_of_inBoundRange hrange⟩

end Sys2Proof.Machine

/-! ## Digit generation: the first digit's weight and aliased registers (R176, R189)

`largest_pow10` answers the bounds around its argument, whichever of the ten pairs of consecutive powers they are. DIGITS
with two equal fields reads one operand twice, and narrowing leaves the scaled value strictly between the scaled bounds,
so scaling never answers: the command ends with the fault of the first check that fails. -/

namespace Sys2Proof.Machine

/-! ### The largest power of ten (R176) -/

/-- R176: between two consecutive powers of ten the count and the power are those of the lower one. -/
theorem largestPow10_eq {k p1 : Nat} (hk : k < 10) (lo : 10 ^ k ≤ p1) (hi : p1 < 10 ^ (k + 1)) :
    largestPow10 p1 = (k + 1, 10 ^ k) := by
  rw [largestPow10]
  interval_cases k
  all_goals
    simp (disch := omega) only [if_pos, if_neg]
    rfl

/-- Settles O49: the lower power is that of the logarithm, and `2^32` is below `10^10`. -/
theorem largestPowerOfTen : Obligations.LargestPowerOfTen := by
  intro p1 h1 h32
  have hlog : Nat.log 10 p1 < 10 := Nat.log_lt_of_lt_pow (by omega) (by omega)
  have lo : 10 ^ Nat.log 10 p1 ≤ p1 := Nat.pow_log_le_self 10 (by omega)
  have hi : p1 < 10 ^ (Nat.log 10 p1 + 1) := Nat.lt_pow_succ_log_self (by decide) p1
  rw [largestPow10_eq hlog lo hi]
  exact ⟨Nat.le_add_left .., hlog, rfl, lo, hi⟩

/-! ### Aliased registers (R189) -/

section
variable {v mm mp : Fp}

/-- R173, R189: scaling answers only on three different operands. -/
theorem distinct_of_scale_ok {kc : Working × Int} (h : scale v mm mp = .ok kc) : v ≠ mm ∧ v ≠ mp ∧ mm ≠ mp := by
  rcases scale_cases v mm mp with ⟨-, he⟩ | ⟨-, -, he⟩ | ⟨c, -, -, ⟨k, -, rfl, hp, hlo, hhi, -⟩ | ⟨-, he⟩⟩
  case inr.inr.inl =>
    have hlo' : mulHigh mm.sig c.sig + 1 ≤ mulHigh v.sig c.sig := hlo
    have hhi' : mulHigh v.sig c.sig ≤ mulHigh mp.sig c.sig - 1 := hhi
    refine ⟨?_, ?_, ?_⟩
    all_goals
      rintro rfl
      omega
  all_goals
    rw [h] at he
    cases he

/-- R171: at one common exponent outside the selector's range, scaling is `CPOW_RANGE`. -/
theorem scale_of_out_of_range (h1 : v.exp = mm.exp) (h2 : mm.exp = mp.exp)
    (h : mp.exp.toInt < -1137 ∨ 962 < mp.exp.toInt) : scale v mm mp = .error .cpowRange := by
  rcases scale_cases v mm mp with ⟨hne, -⟩ | ⟨-, -, hs⟩ | ⟨c, -, hc, -⟩
  · exact absurd ⟨h1, h2⟩ hne
  · exact hs
  · rw [select_of_out_of_range h] at hc
    cases hc

/-- R171 to R175: everywhere else, scaling answers or is `DIGITS_PRECOND`. -/
theorem scale_ok_or_digitsPrecond
    (h : ¬(v.exp = mm.exp ∧ mm.exp = mp.exp ∧ (mp.exp.toInt < -1137 ∨ 962 < mp.exp.toInt))) :
    (∃ kc, scale v mm mp = .ok kc) ∨ scale v mm mp = .error .digitsPrecond := by
  rcases scale_cases v mm mp with ⟨-, hs⟩ | ⟨⟨h1, h2⟩, hc, -⟩ | ⟨c, -, -, ⟨k, hs, -⟩ | ⟨-, hs⟩⟩
  · exact .inr hs
  · have hin : ¬(mp.exp.toInt < -1137 ∨ 962 < mp.exp.toInt) := fun hr => h ⟨h1, h2, hr⟩
    obtain ⟨-, r, -, -, hr⟩ := select_of_in_range (e := mp.exp.toInt) (by omega) (by omega)
    rw [hr] at hc
    cases hc
  · exact .inl ⟨_, hs⟩
  · exact .inr hs

/-- R170, R203: a fault of scaling is the fault of DIGITS. -/
theorem faults_digits_of_scale_error {s : State} {rv rm rp : FReg} {c : Cause} (hv : s.Holds rv v) (hm : s.Holds rm mm)
    (hp : s.Holds rp mp) (h : scale v mm mp = .error c) : Faults (.digits rv rm rp) s c := by
  refine (execDigits_of_holds hv hm hp).trans ?_
  rw [digitGen_of_scale_error h]
  rfl

end

/-- Settles O57: equal fields hold one operand, so scaling does not answer, and `scale_ok_or_digitsPrecond` leaves the
cause. -/
theorem aliasedDigitsFault : Obligations.AliasedDigitsFault := by
  intro s v m p halias
  refine ⟨execDigits_of_invalid, fun x mm mp hv hm hp => ⟨fun h1 h2 hr => ?_, fun hn => ?_⟩⟩
  · exact faults_digits_of_scale_error hv hm hp (scale_of_out_of_range h1 h2 hr)
  · rcases scale_ok_or_digitsPrecond hn with ⟨kc, hok⟩ | hs
    · obtain ⟨hvm, hvp, hmp⟩ := distinct_of_scale_ok hok
      rcases halias with rfl | rfl | rfl
      · exact absurd (holds_unique hv hm) hvm
      · exact absurd (holds_unique hv hp) hvp
      · exact absurd (holds_unique hm hp) hmp
    · exact faults_digits_of_scale_error hv hm hp hs

end Sys2Proof.Machine

/-! ## How every command ends (R183, R201 to R203)

A command with an invalid source faults `UNINIT`; on valid sources it is `finish` of one function's answer, so it raises
only that function's causes. For DIGITS, `ROUND_UNDERFLOW` has to be excluded (R183): a phase that stops now did not
stop one digit earlier, so the remainder below the digits before the last one, `d`, which is `d * ten + rest`, exceeds
`delta`, and a refinement that stays within `delta` decrements `d` fewer than `d` times. -/

namespace Sys2Proof.Machine

/-! ### The causes of the arithmetic functions (R103, R104, R106, R107) -/

section
variable {x y : Fp} {c : Cause}

theorem fsub_error (h : fsub x y = .error c) : c = .subPrecond := by
  by_cases hp : x.exp ≠ y.exp ∨ x.sig.toNat < y.sig.toNat
  · exact Except.error.inj (h.symm.trans (fsub_of_not_pre hp))
  · rw [not_or, not_not, not_lt] at hp
    cases h.symm.trans (fsub_of_pre hp.1 hp.2)

theorem fmul_error (h : fmul x y = .error c) : c = .expRange := by
  by_cases hf : x.exp.toInt + y.exp.toInt + 64 < -2 ^ 31 ∨ 2 ^ 31 - 1 < x.exp.toInt + y.exp.toInt + 64
  · exact Except.error.inj (h.symm.trans (fmul_of_not_fits hf))
  · rw [not_or, not_lt, not_lt] at hf
    cases h.symm.trans (fmul_of_fits hf.1 hf.2)

theorem fnorm_error (h : fnorm x = .error c) : c = .normZero ∨ c = .expRange := by
  by_cases h0 : x.sig = 0
  · exact .inl (Except.error.inj (h.symm.trans (fnorm_of_zero h0)))
  · by_cases hf : x.exp.toInt - clz64 x.sig < -2 ^ 31
    · exact .inr (Except.error.inj (h.symm.trans (fnorm_of_not_fits h0 hf)))
    · cases h.symm.trans (fnorm_of_fits h0 (not_lt.mp hf))

theorem fnormto_error {t : Word} (h : fnormto x t = .error c) : c = .normtoPrecond := by
  by_cases hp : x.exp.toInt - t.toInt < 0 ∨ 2 ^ 64 ≤ x.sig.toNat * 2 ^ (x.exp.toInt - t.toInt).toNat
  · exact Except.error.inj (h.symm.trans (fnormto_of_not_pre hp))
  · rw [not_or, not_lt, not_le] at hp
    cases h.symm.trans (fnormto_of_pre hp.1 hp.2)

end

/-- R158, R159: BOUND's three normalizations never fault, so its only cause of its own is `BOUND_CLASS`. -/
theorem boundTriple_error {p : Prec} {arg : DWord} {c : Cause} (h : boundTriple p.desc (fields p arg) = .error c) :
    c = .boundClass := by
  by_cases hc : (fields p arg).isZero ∨ (fields p arg).isNan p.desc ∨ (fields p arg).isInf p.desc
  · exact Except.error.inj (h.symm.trans (boundTriple_of_class hc))
  · rw [boundClass_iff, not_or] at hc
    obtain ⟨t, ht, -⟩ := boundTriple_of_finite hc.1 hc.2
    cases h.symm.trans ht

/-! ### The refinement never decrements a 0 (R183) -/

/-- R183: the digits are within `delta` of `M_plus`, and without the last one they were not. -/
def Emitted.NeedsLastDigit (r : Emitted) : Prop :=
  ∃ d more, r.buf = d :: more ∧ r.rest ≤ r.delta ∧ r.delta < d * r.ten + r.rest

/-- R177: the first digit of `p1` and the remainder below it make up `p1` and the fraction. -/
theorem digit_mul_add_rest (p1 pow10 one p2 : Nat) :
    p1 / pow10 * (pow10 * one) + (p1 % pow10 * one + p2) = p1 * one + p2 := by
  rw [← add_assoc, ← mul_assoc, ← add_mul, Nat.div_add_mod']

/-- R177: the integral phase stops at the first digit that brings the remainder within `delta`, or hands on a fraction
above `delta`. -/
theorem integralPhase_cases {k : Working} {n p1 : Nat} {buf : List Nat} (h : k.delta < p1 * k.one + k.p2) :
    (∃ r, integralPhase k (n + 1) p1 (10 ^ n) buf = .inl r ∧ r.NeedsLastDigit) ∨
    (∃ buf', integralPhase k (n + 1) p1 (10 ^ n) buf = .inr buf' ∧ k.delta < k.p2) := by
  induction n generalizing p1 buf with
  | zero =>
    rw [integralPhase]
    split_ifs with hs
    · exact .inl ⟨_, rfl, _, _, rfl, hs, h.trans_eq (digit_mul_add_rest ..).symm⟩
    · exact .inr ⟨_, rfl, by simpa [Nat.mod_one] using hs⟩
  | succ n ih =>
    rw [integralPhase]
    split_ifs with hs
    · exact .inl ⟨_, rfl, _, _, rfl, hs, h.trans_eq (digit_mul_add_rest ..).symm⟩
    · rw [show 10 ^ (n + 1) / 10 = 10 ^ n from Nat.mul_div_cancel _ (by decide)]
      exact ih (Nat.lt_of_not_le hs)

/-- R178: so does the fractional phase, unless the buffer is full first. -/
theorem fractionalPhase_needsLastDigit {one room p2 delta dist m : Nat} {buf : List Nat} (h : delta < p2) :
    (∃ r, fractionalPhase one room p2 delta dist m buf = .ok r ∧ r.NeedsLastDigit) ∨
    fractionalPhase one room p2 delta dist m buf = .error .digitsOverflow := by
  induction room generalizing p2 delta dist m buf with
  | zero => exact .inr rfl
  | succ room ih =>
    rw [fractionalPhase]
    split_ifs with hs
    · have hlt : 10 * delta < 10 * p2 / one * one + 10 * p2 % one := by
        rw [Nat.div_add_mod']
        omega
      exact .inl ⟨_, rfl, _, _, rfl, hs, hlt⟩
    · exact ih (Nat.lt_of_not_le hs)

/-- R176: the power that goes with a count of `n + 1` digits is `10^n`. -/
theorem largestPow10_pow (p1 : Nat) : ∃ n, largestPow10 p1 = (n + 1, 10 ^ n) := by
  unfold largestPow10
  split_ifs
  exacts [⟨0, rfl⟩, ⟨1, rfl⟩, ⟨2, rfl⟩, ⟨3, rfl⟩, ⟨4, rfl⟩, ⟨5, rfl⟩, ⟨6, rfl⟩, ⟨7, rfl⟩, ⟨8, rfl⟩, ⟨9, rfl⟩]

/-- R176 to R178: when `M_plus` itself exceeds `delta`, the last digit emitted was needed. -/
theorem emit_needsLastDigit {k : Working} (h : k.delta < k.mPlus) :
    (∃ r, emit k = .ok r ∧ r.NeedsLastDigit) ∨ emit k = .error .digitsOverflow := by
  have hsplit : k.delta < k.p1 * k.one + k.p2 := h.trans_eq (Nat.div_add_mod' ..).symm
  obtain ⟨n, hn⟩ := largestPow10_pow k.p1
  simp only [emit, hn]
  rcases integralPhase_cases (n := n) (buf := []) hsplit with ⟨r, hr, hneeds⟩ | ⟨buf, hbuf, hp2⟩
  · rw [hr]
    exact .inl ⟨r, rfl, hneeds⟩
  · rw [hbuf]
    exact fractionalPhase_needsLastDigit hp2

/-- R183: the decrements that stay within `delta` leave the last digit at least 1. -/
theorem refineDigit_ok {delta dist ten d rest : Nat} (hle : rest ≤ delta) (hlt : delta < d * ten + rest) :
    ∃ d', refineDigit delta dist ten d rest = .ok d' ∧ 1 ≤ d' := by
  induction d generalizing rest with
  | zero => omega
  | succ d ih =>
    rw [refineDigit]
    split_ifs with hc
    · have hten : ten ≤ delta - rest := by
        simp only [closer, Bool.and_eq_true, decide_eq_true_eq] at hc
        exact hc.1.2
      rw [Nat.succ_mul] at hlt
      exact ih (by omega) (by omega)
    · exact ⟨_, rfl, Nat.le_add_left ..⟩

theorem refineDigits_ok {r : Emitted} (on : Bool) (h : r.NeedsLastDigit) : ∃ buf, refineDigits on r = .ok buf := by
  obtain ⟨d, more, hbuf, hle, hlt⟩ := h
  cases on with
  | false => exact ⟨_, rfl⟩
  | true =>
    obtain ⟨d', hd, -⟩ := refineDigit_ok (dist := r.dist) hle hlt
    refine ⟨d' :: more, ?_⟩
    simp only [refineDigits, hbuf, hd]
    rfl

/-- R173, R174: the lower bound is inflated by one unit, so `delta` is less than `M_plus`. -/
theorem delta_lt_mPlus_of_scale_ok {v mm mp : Fp} {k : Working} {cdexp : Int} (h : scale v mm mp = .ok (k, cdexp)) :
    k.delta < k.mPlus := by
  rcases scale_cases v mm mp with ⟨-, hs⟩ | ⟨-, -, hs⟩ | ⟨c, -, -, ⟨k', hs, hk', -, hlo, hhi, -⟩ | ⟨-, hs⟩⟩
  case inr.inr.inl =>
    obtain ⟨rfl, -⟩ := Prod.mk.inj (Except.ok.inj (h.symm.trans hs))
    have hpos : 1 ≤ k.mMinus := hk' ▸ Nat.le_add_left ..
    unfold Working.delta
    omega
  all_goals cases h.symm.trans hs

/-- R171 to R175: the causes of scaling. -/
theorem scale_error {v mm mp : Fp} {c : Cause} (h : scale v mm mp = .error c) :
    c = .digitsPrecond ∨ c = .cpowRange := by
  rcases scale_cases v mm mp with ⟨-, hs⟩ | ⟨-, -, hs⟩ | ⟨_, -, -, ⟨k, hs, -⟩ | ⟨-, hs⟩⟩
  case inr.inr.inl => cases h.symm.trans hs
  case inr.inl => exact .inr (Except.error.inj (h.symm.trans hs))
  all_goals exact .inl (Except.error.inj (h.symm.trans hs))

/-- R170, R183: the causes of the digit generator; `ROUND_UNDERFLOW` is none of them, on any operands. -/
theorem digitGen_error {on : Bool} {v mm mp : Fp} {c : Cause} (h : digitGen on v mm mp = .error c) :
    c = .digitsPrecond ∨ c = .cpowRange ∨ c = .digitsOverflow := by
  cases hs : scale v mm mp with
  | error e =>
    obtain rfl : e = c := Except.error.inj ((digitGen_of_scale_error hs).symm.trans h)
    exact (scale_error hs).imp_right .inl
  | ok kc =>
    rw [digitGen_of_scale hs] at h
    rcases emit_needsLastDigit (delta_lt_mPlus_of_scale_ok hs) with ⟨r, hr, hneeds⟩ | hr
    · obtain ⟨buf, hbuf⟩ := refineDigits_ok on hneeds
      rw [hr] at h
      change (refineDigits on r >>= fun buf => pure (⟨buf.reverse, -kc.2 + r.gain⟩ : Decimal)) = _ at h
      rw [hbuf] at h
      cases h
    · rw [hr] at h
      exact .inr (.inr (Except.error.inj h).symm)

/-! ### Commit or fault (R200 to R203) -/

/-- The command `i`, run in `s`, commits with `FAULT`, `CAUSE` and `FCMD` as before (R202), or takes the fault entry of
R203 with a cause of R201's table. -/
def CommitsOrFaults (i : Instr) (s : State) : Prop :=
  (∃ t, exec i s = .next t ∧ t.pend = false ∧ t.fault = s.fault ∧ t.cause = s.cause ∧ t.fcmd = s.fcmd) ∨
    ∃ c ∈ raisable i, Faults i s c

section
variable {i : Instr} {s : State}

/-- A command that writes the answer `g` of a function, and leaves the status alone, raises what `g` raises. -/
theorem commitsOrFaults_of_finish {α : Type} {g : Except Cause α} {w : α → State}
    (he : exec i s = finish s (g.map w))
    (hw : ∀ x, (w x).fault = s.fault ∧ (w x).cause = s.cause ∧ (w x).fcmd = s.fcmd)
    (hc : ∀ c, g = .error c → c ∈ raisable i) : CommitsOrFaults i s := by
  cases g with
  | ok x => exact .inl ⟨(w x).commit, he, rfl, hw x⟩
  | error c => exact .inr ⟨c, hc c rfl, he⟩

/-- R158, R85: BOUND of either precision. -/
theorem commitsOrFaults_of_bound {p : Prec} {v m q : FReg} (he : exec i s = finish s (bound p v m q s))
    (hr : raisable i = if pairwiseDistinct v m q then [.boundClass] else [.illegal]) : CommitsOrFaults i s := by
  cases hd : pairwiseDistinct v m q with
  | true =>
    rw [bound_of_distinct p hd] at he
    exact commitsOrFaults_of_finish he (fun _ => ⟨rfl, rfl, rfl⟩) fun c hc => by simp [hr, hd, boundTriple_error hc]
  | false =>
    rw [bound_of_not_distinct p hd] at he
    exact .inr ⟨.illegal, by simp [hr, hd], he⟩

/-- R201: every command with a source can raise `UNINIT`. -/
theorem uninit_mem_raisable {r : FReg} (h : r ∈ sources i) : .uninit ∈ raisable i := by
  cases i with
  | nop | ldf | fclassD | fclassS | boundD | boundS => simp [sources] at h
  | fsub | fmul | fnorm | fnormto | cpow | digits => exact List.mem_cons_self

/-- R21: when no source of a command is invalid, each holds a pair. -/
theorem holds_of_no_invalid_source (h : ¬∃ r ∈ sources i, s.f[r].valid = false) :
    ∀ r ∈ sources i, ∃ x, s.Holds r x := by
  intro r hr
  rcases readF_cases s r with ⟨x, hx, -⟩ | ⟨hv, -⟩
  · exact ⟨x, hx⟩
  · exact absurd ⟨r, hr, hv⟩ h

end

/-- R200 to R203: every command in every state. -/
theorem commitsOrFaults (i : Instr) (s : State) : CommitsOrFaults i s := by
  by_cases hinv : ∃ r ∈ sources i, s.f[r].valid = false
  · obtain ⟨r, hr, hv⟩ := hinv
    exact .inr ⟨.uninit, uninit_mem_raisable hr, faults_uninit_of_invalid_source ⟨r, hr, hv⟩⟩
  have hold := holds_of_no_invalid_source hinv
  cases i with
  | nop => exact .inl ⟨s.commit, rfl, rfl, rfl, rfl, rfl⟩
  | ldf d => exact .inl ⟨(s.writeF d s.latchedArg).commit, rfl, rfl, rfl, rfl, rfl⟩
  | fclassD => exact .inl ⟨(fclass .double s).commit, rfl, rfl, rfl, rfl, rfl⟩
  | fclassS => exact .inl ⟨(fclass .single s).commit, rfl, rfl, rfl, rfl, rfl⟩
  | boundD v m p => exact commitsOrFaults_of_bound rfl rfl
  | boundS v m p => exact commitsOrFaults_of_bound rfl rfl
  | fsub d a b =>
    obtain ⟨⟨x, ha⟩, y, hb⟩ : (∃ x, s.Holds a x) ∧ ∃ y, s.Holds b y := by simpa [sources] using hold
    exact commitsOrFaults_of_finish (execFsub_of_holds ha hb) (fun _ => ⟨rfl, rfl, rfl⟩)
      fun c hc => by simp [raisable, fsub_error hc]
  | fmul d a b =>
    obtain ⟨⟨x, ha⟩, y, hb⟩ : (∃ x, s.Holds a x) ∧ ∃ y, s.Holds b y := by simpa [sources] using hold
    exact commitsOrFaults_of_finish (execFmul_of_holds ha hb) (fun _ => ⟨rfl, rfl, rfl⟩)
      fun c hc => by simp [raisable, fmul_error hc]
  | fnorm d a =>
    obtain ⟨x, ha⟩ : ∃ x, s.Holds a x := by simpa [sources] using hold
    exact commitsOrFaults_of_finish (execFnorm_of_holds ha) (fun _ => ⟨rfl, rfl, rfl⟩)
      fun c hc => by simp [raisable, fnorm_error hc]
  | fnormto d a b =>
    obtain ⟨⟨x, ha⟩, y, hb⟩ : (∃ x, s.Holds a x) ∧ ∃ y, s.Holds b y := by simpa [sources] using hold
    exact commitsOrFaults_of_finish (execFnormto_of_holds ha hb) (fun _ => ⟨rfl, rfl, rfl⟩)
      fun c hc => by simp [raisable, fnormto_error hc]
  | cpow d a =>
    obtain ⟨x, ha⟩ : ∃ x, s.Holds a x := by simpa [sources] using hold
    exact commitsOrFaults_of_finish (execCpow_of_holds ha) (fun _ => ⟨rfl, rfl, rfl⟩)
      fun c hc => by simp [raisable, select_error hc]
  | digits v m p =>
    obtain ⟨⟨x, hv⟩, ⟨y, hm⟩, z, hp⟩ : (∃ x, s.Holds v x) ∧ (∃ y, s.Holds m y) ∧ ∃ z, s.Holds p z := by
      simpa [sources] using hold
    exact commitsOrFaults_of_finish (execDigits_of_holds hv hm hp) (fun _ => ⟨rfl, rfl, rfl⟩)
      fun c hc => by simp [raisable, digitGen_error hc]

/-- R200, R201: a word in flight that is no command faults `ILLEGAL`. -/
theorem complete_of_error {s : State} {e : DecodeError} (h : decode s.pcmd = .error e) :
    complete s = .next (s.faulted .illegal) := by
  rcases complete_cases s with ⟨i, hi, -⟩ | ⟨-, hc⟩
  · cases h.symm.trans hi
  · exact hc

/-- Settles O8: `commitsOrFaults` for every command, and the fault entry `ILLEGAL` for a word that is none. -/
theorem everyCommandCommitsOrFaults : Obligations.EveryCommandCommitsOrFaults :=
  ⟨commitsOrFaults, fun _ _ => complete_of_error⟩

end Sys2Proof.Machine

/-! ## Commands run on the latched copies (R23, R242)

No rule reads the live `ARG_SIG`, `ARG_EXP` or `REFINE`. A command with an invalid source faults `UNINIT` whatever they
hold; on valid sources it is `finish` of one function's answer, which does not depend on them, and of writes that leave
them as they are. -/

namespace Sys2Proof.Machine

/-- The state with other values in the host's live operand registers `ARG_SIG`, `ARG_EXP` and `CTRL.REFINE`. -/
def State.withLive (s : State) (a : DWord) (e : Word) (r : Bool) : State :=
  { s with argSig := a, argExp := e, refine := r }

section
variable (s : State) (a : DWord) (e : Word) (r : Bool)

/-- A command that writes the answer `q` of a function ends the same with other live values, when the function answers
the same and its writes leave those values. -/
theorem exec_withLive_of_finish {i : Instr} {α : Type} {q : Except Cause α} {w w' : α → State}
    (he : exec i s = finish s (q.map w)) (he' : exec i (s.withLive a e r) = finish (s.withLive a e r) (q.map w'))
    (hw : ∀ x, w' x = (w x).withLive a e r) :
    exec i (s.withLive a e r) = mapNext (·.withLive a e r) (exec i s) := by
  rw [he, he']
  cases q with
  | ok x => exact congrArg (Host.Outcome.next ∘ State.commit) (hw x)
  | error c => rfl

/-- BOUND of either precision uses the latched pattern only. -/
theorem exec_withLive_of_bound {i : Instr} {p : Prec} {v m q : FReg}
    (he : ∀ s, exec i s = finish s (bound p v m q s)) :
    exec i (s.withLive a e r) = mapNext (·.withLive a e r) (exec i s) := by
  cases hd : pairwiseDistinct v m q with
  | true =>
    simp only [bound_of_distinct p hd] at he
    exact exec_withLive_of_finish s a e r (he s) (he _) fun _ => rfl
  | false =>
    simp only [bound_of_not_distinct p hd] at he
    rw [he, he]
    rfl

/-- R242: every command ends the same whatever the live operand registers hold, and leaves their values standing. -/
theorem exec_withLive (i : Instr) : exec i (s.withLive a e r) = mapNext (·.withLive a e r) (exec i s) := by
  by_cases hinv : ∃ j ∈ sources i, s.f[j].valid = false
  · have hs : Faults i s .uninit := faults_uninit_of_invalid_source hinv
    have hl : Faults i (s.withLive a e r) .uninit := faults_uninit_of_invalid_source hinv
    rw [hs, hl]
    rfl
  have hold := holds_of_no_invalid_source hinv
  cases i with
  | nop | ldf | fclassD | fclassS => rfl
  | boundD | boundS => exact exec_withLive_of_bound s a e r fun _ => rfl
  | fsub d j k =>
    obtain ⟨⟨x, hj⟩, y, hk⟩ : (∃ x, s.Holds j x) ∧ ∃ y, s.Holds k y := by simpa [sources] using hold
    exact exec_withLive_of_finish s a e r (execFsub_of_holds hj hk) (execFsub_of_holds hj hk) fun _ => rfl
  | fmul d j k =>
    obtain ⟨⟨x, hj⟩, y, hk⟩ : (∃ x, s.Holds j x) ∧ ∃ y, s.Holds k y := by simpa [sources] using hold
    exact exec_withLive_of_finish s a e r (execFmul_of_holds hj hk) (execFmul_of_holds hj hk) fun _ => rfl
  | fnorm d j =>
    obtain ⟨x, hj⟩ : ∃ x, s.Holds j x := by simpa [sources] using hold
    exact exec_withLive_of_finish s a e r (execFnorm_of_holds hj) (execFnorm_of_holds hj) fun _ => rfl
  | fnormto d j k =>
    obtain ⟨⟨x, hj⟩, y, hk⟩ : (∃ x, s.Holds j x) ∧ ∃ y, s.Holds k y := by simpa [sources] using hold
    exact exec_withLive_of_finish s a e r (execFnormto_of_holds hj hk) (execFnormto_of_holds hj hk) fun _ => rfl
  | cpow d j =>
    obtain ⟨x, hj⟩ : ∃ x, s.Holds j x := by simpa [sources] using hold
    exact exec_withLive_of_finish s a e r (execCpow_of_holds hj) (execCpow_of_holds hj) fun _ => rfl
  | digits v m p =>
    obtain ⟨⟨x, hv⟩, ⟨y, hm⟩, z, hp⟩ : (∃ x, s.Holds v x) ∧ (∃ y, s.Holds m y) ∧ ∃ z, s.Holds p z := by
      simpa [sources] using hold
    exact exec_withLive_of_finish s a e r (execDigits_of_holds hv hm hp) (execDigits_of_holds hv hm hp) fun _ => rfl

end

/-- R58: a write to a word of the live operand registers, not a reset, changes only those registers. -/
theorem hostWrite_withLive (s : State) {off : Offset} {v : Word}
    (h : off = 0x010 ∨ off = 0x014 ∨ off = 0x018 ∨ (off = 0x000 ∧ v.getLsbD 31 = false)) :
    ∃ a e r, s.hostWrite off v = s.withLive a e r := by
  rcases h with rfl | rfl | rfl | ⟨rfl, hv⟩
  · exact ⟨_, _, _, hostWrite_argSigLo s v⟩
  · exact ⟨_, _, _, hostWrite_argSigHi s v⟩
  · exact ⟨_, _, _, hostWrite_argExp s v⟩
  · exact ⟨_, _, _, (hostWrite_ctrl s v).trans (writeCtrl_of_not_srst s hv)⟩

/-- Settles O15: an issuing write latches, `exec_withLive` for every command, and the writes to the live registers. -/
theorem commandsRunOnTheLatchedCopies : Obligations.CommandsRunOnTheLatchedCopies := by
  refine ⟨fun s v hf hp => ?_, fun i s a e r => exec_withLive s a e r i, fun s _ _ => hostWrite_withLive s⟩
  rw [hostWrite_cmd, issue_of_idle v hf hp]
  exact ⟨rfl, rfl, rfl⟩

end Sys2Proof.Machine

/-! ## Decoding and encoding are inverse to each other (R81 to R86)

Every command's word fits a row of the opcode map that gives the command back (`Laws.FitsItsRow`), and a word that fits
a row has nothing in it but that row's opcode, `P` and register fields, so the row's command has that word. -/

namespace Sys2Proof.Machine

/-- R83: the word of a command fits a row whose command it is. -/
theorem fitsItsRow (i : Instr) : Laws.FitsItsRow.Statement i := by
  cases i with
  | nop => exact Laws.FitsItsRow.nop
  | ldf d => exact Laws.FitsItsRow.ldf d
  | fsub d a b => exact Laws.FitsItsRow.fsub d a b
  | fmul d a b => exact Laws.FitsItsRow.fmul d a b
  | fnorm d a => exact Laws.FitsItsRow.fnorm d a
  | fnormto d a b => exact Laws.FitsItsRow.fnormto d a b
  | cpow d a => exact Laws.FitsItsRow.cpow d a
  | fclassD => exact Laws.FitsItsRow.fclassD
  | fclassS => exact Laws.FitsItsRow.fclassS
  | boundD v m p => exact Laws.FitsItsRow.boundD v m p
  | boundS v m p => exact Laws.FitsItsRow.boundS v m p
  | digits v m p => exact Laws.FitsItsRow.digits v m p

/-- Settles O1: the decoder finds the row that the word of the command fits. -/
theorem decodeInvertsEncode : Obligations.DecodeInvertsEncode := by
  intro i
  obtain ⟨r, hr, hf, hc⟩ := fitsItsRow i
  rw [decode_of_fits hr hf, hc]

/-- A word with its reserved bits 0 is the command word of its own fields. -/
theorem commandWord_of_fields {w : Word} {opc : BitVec 8} {p : BitVec 1} (hz : ReservedBitsZero w)
    (hopc : opcField w = opc) (hp : w.getLsbD 24 = p.getLsbD 0) :
    commandWord opc (rdField w) (raField w) (rbField w) p = w := by
  obtain ⟨c11, c15, c19, c25⟩ := reservedBitsZero_commandWord opc (rdField w) (raField w) (rbField w) p
  obtain ⟨w11, w15, w19, w25⟩ := hz
  exact word_eq_iff_fields.mpr ⟨c25.trans w25.symm, (pBit_commandWord ..).trans hp.symm, c19.trans w19.symm,
    rbField_commandWord .., c15.trans w15.symm, raField_commandWord .., c11.trans w11.symm, rdField_commandWord ..,
    (opcField_commandWord ..).trans hopc.symm⟩

/-- R81, R83: the command of a row, read from a word that fits it, has that word: what the row's mask does not cover is
a register field of the command. -/
theorem encode_command_of_fits {r : OpRow} {w : Word} (hr : r ∈ opRows) (hf : r.fits w = true) :
    encode (r.command w) = w := by
  simp only [opRows_eq, List.mem_cons, List.not_mem_nil, or_false] at hr
  rcases hr with rfl | rfl | rfl | rfl | rfl | rfl | rfl | rfl | rfl | rfl | rfl | rfl
  all_goals
    obtain ⟨hz, hopc, hp, hd, ha, hb⟩ := and_rowMask_eq_iff.mp (beq_iff_eq.mp hf)
    have hw := commandWord_of_fields hz hopc hp
    simp only [and_seven, and_zero_fReg] at hd ha hb
    simpa only [encode, hd, ha, hb] using hw

/-- Settles O2: the decoder read the command from a row the word fits. -/
theorem encodeInvertsDecode : Obligations.EncodeInvertsDecode := by
  intro w i h
  obtain ⟨r, hr, hf, rfl⟩ := exists_row_of_decode h
  refine ⟨encode_command_of_fits hr hf, ?_⟩
  by_contra hwf
  rw [decode_of_fits hr hf, if_neg hwf] at h
  cases h

/-- Settles O4: rows that differ under both masks have no word in common, and the decoder finds the row a word fits. -/
theorem opcodeRowsDoNotOverlap : Obligations.OpcodeRowsDoNotOverlap := by
  refine ⟨opRows_differ.imp fun {r q} hne w ⟨hr, hq⟩ => hne ?_, fun r hr w => decode_of_fits hr⟩
  rw [← beq_iff_eq.mp hr, ← beq_iff_eq.mp hq]
  ac_rfl

end Sys2Proof.Machine

/-! ## The digits of the scaled upper bound (R175 to R178)

With `X = M_plus × 2^e`, the digits emitted down to the weight `10^n` spell the floor of `X / 10^n`, and the phases stop
at the first weight whose remainder is within `delta`. Both phases are read in terms of that weight `n`, an integer: for
`n ≥ 0` the remainder is in units of `2^e`, and each fractional digit makes the unit ten times smaller. -/

namespace Sys2Proof.Machine

/-! ### A phase at the weight `10^n` -/

/-- What the phases have multiplied by at the weight `10^n`: 10 for each fractional digit (R178). -/
def scaleAt (n : Int) : Nat := 10 ^ (-n).toNat

section
variable (k : Working) (n : Int)

/-- The weight `10^n` in the unit the phases then work in: `ten` of R177, and `one` for a fractional digit (R178). -/
def Working.tenAt : Nat := 10 ^ n.toNat * k.one

/-- The number that the digits of `M_plus × 2^e` down to the weight `10^n` spell. -/
def Working.leadingAt : Nat := scaleAt n * k.mPlus / k.tenAt n

/-- What they leave of `M_plus`. -/
def Working.restAt : Nat := scaleAt n * k.mPlus % k.tenAt n

/-- They leave at most `delta`. -/
def Working.Fits : Prop := k.restAt n ≤ scaleAt n * k.delta

/-- What a phase that stops at the weight `10^n` hands to the refinement. -/
def Working.emittedAt : Emitted where
  buf := Nat.digits 10 (k.leadingAt n)
  gain := n
  rest := k.restAt n
  ten := k.tenAt n
  delta := scaleAt n * k.delta
  dist := scaleAt n * k.dist

end

/-- No weight in `[lo, hi)` fits. -/
def Working.NoFit (k : Working) (lo hi : Int) : Prop := ∀ i, lo ≤ i → i < hi → ¬k.Fits i

/-- Of the weights in `[lo, hi)`, from the greatest down, `n` is the first to fit. -/
structure Working.FirstFit (k : Working) (lo hi n : Int) : Prop where
  le : lo ≤ n
  lt : n < hi
  fits : k.Fits n
  above : k.NoFit (n + 1) hi

/-- A phase that goes from the weight `hi` down to `lo` answers `x`: `stop n` at the first weight `n` that fits, `full`
where none does. -/
def Working.Scans {α : Type} (k : Working) (lo hi : Int) (x : α) (stop : Int → α) (full : α) : Prop :=
  (∃ n, k.FirstFit lo hi n ∧ x = stop n) ∨ (k.NoFit lo hi ∧ x = full)

section
variable {α : Type} {k : Working} {lo hi : Int} {x full : α} {stop : Int → α}

theorem Working.scans_empty (k : Working) (n : Int) (stop : Int → α) (full : α) : k.Scans n n full stop full :=
  .inr ⟨fun _ h₁ h₂ => absurd h₂ h₁.not_gt, rfl⟩

/-- A phase that stops at once. -/
theorem Working.scans_of_fits (hx : x = stop hi) (h : k.Fits hi) (hle : lo ≤ hi) :
    k.Scans lo (hi + 1) x stop full :=
  .inl ⟨hi, ⟨hle, lt_add_one hi, h, fun _ h₁ h₂ => absurd h₂ h₁.not_gt⟩, hx⟩

theorem Working.NoFit.append {mid : Int} (hlo : k.NoFit lo mid) (hhi : k.NoFit mid hi) : k.NoFit lo hi :=
  fun i h₁ h₂ => (lt_or_ge i mid).elim (hlo i h₁) fun h => hhi i h h₂

/-- A phase that has found nothing from `hi` down to `mid` goes on below `mid`. -/
theorem Working.Scans.below {mid : Int} (h : k.Scans lo mid x stop full) (hle : mid ≤ hi) (hno : k.NoFit mid hi) :
    k.Scans lo hi x stop full := by
  rcases h with ⟨n, ⟨hlo, hlt, hfits, habove⟩, hx⟩ | ⟨hnone, hx⟩
  · exact .inl ⟨n, ⟨hlo, hlt.trans_le hle, hfits, habove.append hno⟩, hx⟩
  · exact .inr ⟨hnone.append hno, hx⟩

theorem Working.noFit_succ (h : ¬k.Fits hi) : k.NoFit hi (hi + 1) := fun i h₁ h₂ => by
  rwa [show i = hi by omega]

end

/-! ### The integral phase (R177) -/

section
variable (k : Working) (n : Nat)

@[simp] theorem scaleAt_natCast : scaleAt (n : Int) = 1 := by simp [scaleAt]

@[simp] theorem Working.tenAt_natCast : k.tenAt (n : Int) = 10 ^ n * k.one := rfl

theorem Working.leadingAt_natCast : k.leadingAt (n : Int) = k.p1 / 10 ^ n := by
  rw [Working.leadingAt, scaleAt_natCast, one_mul, Working.tenAt_natCast, Working.p1, Nat.div_div_eq_div_mul, mul_comm]

theorem Working.restAt_natCast : k.restAt (n : Int) = k.p1 % 10 ^ n * k.one + k.p2 := by
  rw [Working.restAt, scaleAt_natCast, one_mul, Working.tenAt_natCast, mul_comm, Nat.mod_mul, Working.p1, Working.p2,
    add_comm, mul_comm k.one]

end

/-- The digits of a number are its last digit and the digits of the rest. -/
theorem digits_ten_of_pos {n : Nat} (h : 0 < n) : Nat.digits 10 n = n % 10 :: Nat.digits 10 (n / 10) :=
  Nat.digits_def' (by decide) h

/-- R177: one step of the integral phase, where `p1` has a digit of the weight `10^n`. -/
theorem integralPhase_step {k : Working} {n : Nat} (h : 10 ^ n ≤ k.p1) :
    (k.Fits n ∧ integralPhase k (n + 1) (k.p1 % 10 ^ (n + 1)) (10 ^ n) (Nat.digits 10 (k.p1 / 10 ^ (n + 1))) =
      .inl (k.emittedAt n)) ∨
    (¬k.Fits n ∧ integralPhase k (n + 1) (k.p1 % 10 ^ (n + 1)) (10 ^ n) (Nat.digits 10 (k.p1 / 10 ^ (n + 1))) =
      integralPhase k n (k.p1 % 10 ^ n) (10 ^ n / 10) (Nat.digits 10 (k.p1 / 10 ^ n))) := by
  have hrest : k.p1 % 10 ^ (n + 1) % 10 ^ n = k.p1 % 10 ^ n := Nat.mod_mod_of_dvd _ (pow_dvd_pow 10 n.le_succ)
  have hdigit : k.p1 % 10 ^ (n + 1) / 10 ^ n :: Nat.digits 10 (k.p1 / 10 ^ (n + 1)) =
      Nat.digits 10 (k.p1 / 10 ^ n) := by
    rw [digits_ten_of_pos (Nat.div_pos h (by positivity)), pow_succ, Nat.mod_mul_right_div_self,
      Nat.div_div_eq_div_mul]
  have hfits : k.Fits n ↔ k.p1 % 10 ^ n * k.one + k.p2 ≤ k.delta := by
    rw [Working.Fits, k.restAt_natCast, scaleAt_natCast, one_mul]
  rw [hfits, integralPhase, hrest, hdigit]
  split_ifs with hs
  · refine .inl ⟨hs, ?_⟩
    simp only [Working.emittedAt, k.leadingAt_natCast, k.restAt_natCast, scaleAt_natCast, one_mul, k.tenAt_natCast]
  · exact .inr ⟨hs, rfl⟩

/-- R177: with `n + 1` digits of `p1` remaining, the integral phase scans the weights `10^n` to `10^0`. -/
theorem integralPhase_scans {k : Working} {n : Nat} (h : 10 ^ n ≤ k.p1) :
    k.Scans 0 (n + 1) (integralPhase k (n + 1) (k.p1 % 10 ^ (n + 1)) (10 ^ n) (Nat.digits 10 (k.p1 / 10 ^ (n + 1))))
      (fun n => .inl (k.emittedAt n)) (.inr (Nat.digits 10 k.p1)) := by
  induction n with
  | zero =>
    rcases integralPhase_step h with ⟨hfits, hx⟩ | ⟨hfits, hx⟩
    · exact Working.scans_of_fits hx hfits le_rfl
    · rw [hx, pow_zero, Nat.div_one]
      exact (k.scans_empty 0 _ _).below Int.one_nonneg (Working.noFit_succ hfits)
  | succ n ih =>
    rcases integralPhase_step h with ⟨hfits, hx⟩ | ⟨hfits, hx⟩
    · exact Working.scans_of_fits hx hfits (Int.natCast_nonneg _)
    · rw [hx, pow_succ, Nat.mul_div_cancel _ (by decide), ← pow_succ]
      exact (ih ((Nat.pow_le_pow_right (by decide) n.le_succ).trans h)).below (by omega) (Working.noFit_succ hfits)

/-! ### The fractional phase (R178) -/

section
variable (k : Working) (m : Nat)

theorem scaleAt_neg (m : Nat) : scaleAt (-(m : Int)) = 10 ^ m := by simp [scaleAt]

theorem Working.tenAt_neg : k.tenAt (-(m : Int)) = k.one := by simp [Working.tenAt]

theorem Working.leadingAt_neg : k.leadingAt (-(m : Int)) = 10 ^ m * k.mPlus / k.one := by
  rw [Working.leadingAt, scaleAt_neg, k.tenAt_neg]

theorem Working.restAt_neg : k.restAt (-(m : Int)) = 10 ^ m * k.mPlus % k.one := by
  rw [Working.restAt, scaleAt_neg, k.tenAt_neg]

/-- R178: the next digit is that of ten times the remainder. -/
theorem Working.leadingAt_neg_succ (hone : 0 < k.one) :
    k.leadingAt (-(m + 1 : Nat) : Int) = 10 * k.leadingAt (-(m : Int)) + 10 * k.restAt (-(m : Int)) / k.one := by
  have hsplit := Nat.div_add_mod (10 ^ m * k.mPlus) k.one
  rw [k.leadingAt_neg, k.leadingAt_neg, k.restAt_neg, pow_succ', mul_assoc]
  nth_rw 1 [← hsplit]
  rw [mul_add, mul_left_comm, Nat.mul_add_div hone]

/-- R178: and the next remainder what it leaves. -/
theorem Working.restAt_neg_succ : k.restAt (-(m + 1 : Nat) : Int) = 10 * k.restAt (-(m : Int)) % k.one := by
  rw [k.restAt_neg, k.restAt_neg, pow_succ', mul_assoc, Nat.mul_mod_mod]

end

/-- R178: one step of the fractional phase, `m` fractional digits after the first digits of `M_plus × 2^e`. -/
theorem fractionalPhase_step {k : Working} {m : Nat} (room : Nat) (hone : 0 < k.one)
    (h : 0 < k.leadingAt (-(m : Int))) :
    (k.Fits (-(m + 1 : Nat) : Int) ∧ fractionalPhase k.one (room + 1) (k.restAt (-(m : Int))) (10 ^ m * k.delta)
        (10 ^ m * k.dist) m (Nat.digits 10 (k.leadingAt (-(m : Int)))) = .ok (k.emittedAt (-(m + 1 : Nat) : Int))) ∨
    (¬k.Fits (-(m + 1 : Nat) : Int) ∧ fractionalPhase k.one (room + 1) (k.restAt (-(m : Int))) (10 ^ m * k.delta)
        (10 ^ m * k.dist) m (Nat.digits 10 (k.leadingAt (-(m : Int)))) =
      fractionalPhase k.one room (k.restAt (-(m + 1 : Nat) : Int)) (10 ^ (m + 1) * k.delta)
        (10 ^ (m + 1) * k.dist) (m + 1) (Nat.digits 10 (k.leadingAt (-(m + 1 : Nat) : Int)))) := by
  have hdigit : 10 * k.restAt (-(m : Int)) / k.one :: Nat.digits 10 (k.leadingAt (-(m : Int))) =
      Nat.digits 10 (k.leadingAt (-(m + 1 : Nat) : Int)) := by
    have hlt : 10 * k.restAt (-(m : Int)) / k.one < 10 := by
      rw [k.restAt_neg, Nat.div_lt_iff_lt_mul hone]
      exact Nat.mul_lt_mul_of_pos_left (Nat.mod_lt _ hone) (by decide)
    rw [k.leadingAt_neg_succ m hone, add_comm, Nat.digits_add 10 (by decide) _ _ hlt (.inr h.ne')]
  have hfits : k.Fits (-(m + 1 : Nat) : Int) ↔ 10 * k.restAt (-(m : Int)) % k.one ≤ 10 ^ (m + 1) * k.delta := by
    rw [Working.Fits, k.restAt_neg_succ, scaleAt_neg]
  rw [hfits, fractionalPhase, hdigit, ← mul_assoc, ← mul_assoc, ← pow_succ', k.restAt_neg_succ]
  split_ifs with hs
  · refine .inl ⟨hs, ?_⟩
    simp only [Working.emittedAt, k.restAt_neg_succ, scaleAt_neg, k.tenAt_neg]
  · exact .inr ⟨hs, rfl⟩

/-- R178: the fractional phase scans one weight for each digit the buffer has room for. -/
theorem fractionalPhase_scans {k : Working} (hone : 0 < k.one) (room : Nat) {m : Nat}
    (h : 0 < k.leadingAt (-(m : Int))) :
    k.Scans (-(m : Int) - room) (-(m : Int)) (fractionalPhase k.one room (k.restAt (-(m : Int))) (10 ^ m * k.delta)
        (10 ^ m * k.dist) m (Nat.digits 10 (k.leadingAt (-(m : Int)))))
      (fun n => .ok (k.emittedAt n)) (.error .digitsOverflow) := by
  induction room generalizing m with
  | zero => simpa [fractionalPhase] using k.scans_empty (-(m : Int)) _ _
  | succ room ih =>
    have hm : -(m : Int) = -(m + 1 : Nat) + 1 := by omega
    rcases fractionalPhase_step room hone h with ⟨hfits, hx⟩ | ⟨hfits, hx⟩
    · nth_rw 2 [hm]
      exact Working.scans_of_fits hx hfits (by omega)
    · rw [hx]
      have hnext := ih (m := m + 1) (by rw [k.leadingAt_neg_succ m hone]; exact Nat.add_pos_left (by omega) _)
      rw [show -(m : Int) - (room + 1 : Nat) = -(m + 1 : Nat) - room by omega]
      refine hnext.below (by omega) ?_
      rw [hm]
      exact Working.noFit_succ hfits

/-! ### Both phases (R176 to R178) -/

/-- How many digits `p1` has. -/
def Working.kk (k : Working) : Nat := (Nat.digits 10 k.p1).length

/-- R176 to R178: the digits of both phases together scan 32 weights, from that of the first digit of `p1` down. -/
theorem emit_scans {k : Working} (hone : 0 < k.one) (h1 : 1 ≤ k.p1) (h32 : k.p1 < 2 ^ 32) :
    k.Scans (k.kk - 32) k.kk (emit k) (fun n => .ok (k.emittedAt n)) (.error .digitsOverflow) := by
  have hlog : Nat.log 10 k.p1 < 10 := Nat.log_lt_of_lt_pow (by omega) (by omega)
  have hlo : 10 ^ Nat.log 10 k.p1 ≤ k.p1 := Nat.pow_log_le_self 10 (by omega)
  have hhi : k.p1 < 10 ^ (Nat.log 10 k.p1 + 1) := Nat.lt_pow_succ_log_self (by decide) k.p1
  have hkk : k.kk = Nat.log 10 k.p1 + 1 := Nat.length_digits 10 k.p1 (by decide) (by omega)
  have hint := integralPhase_scans hlo
  rw [Nat.mod_eq_of_lt hhi, Nat.div_eq_of_lt hhi, Nat.digits_zero] at hint
  have hlead : k.leadingAt (-(0 : Nat) : Int) = k.p1 :=
    k.leadingAt_neg 0 |>.trans (by rw [pow_zero, one_mul, Working.p1])
  have hrest : k.restAt (-(0 : Nat) : Int) = k.p2 := k.restAt_neg 0 |>.trans (by rw [pow_zero, one_mul, Working.p2])
  have hfrac := fractionalPhase_scans (k := k) hone (dcap - k.kk) (m := 0) (by rw [hlead]; omega)
  rw [emit, largestPow10_eq hlog hlo hhi]
  dsimp only
  rcases hint with ⟨n, ⟨hle, hlt, hfits, habove⟩, hx⟩ | ⟨hnone, hx⟩
  · rw [hx]
    refine .inl ⟨n, ⟨by omega, by omega, hfits, ?_⟩, rfl⟩
    rwa [hkk]
  · rw [hx]
    have hroom : -(0 : Nat) - (dcap - k.kk : Nat) = (k.kk : Int) - 32 := by unfold dcap; omega
    rw [hlead, hrest, hroom, pow_zero, one_mul, one_mul] at hfrac
    refine hfrac.below (by omega) ?_
    rwa [hkk]

end Sys2Proof.Machine

/-! ## Scaling and narrowing (R171 to R175, R181)

Scaling answers only at one common exponent with a ROM entry `c`; what it answers is written out from the three rounded
products with `c`. The combined exponent of `c` lies in [-60, -32] (R135), so the unit is `2^32` to `2^60`. -/

namespace Sys2Proof.Machine

/-- What a working interval that scaling answers meets. -/
structure Working.InRange (k : Working) : Prop where
  one_eq : ∃ n, 32 ≤ n ∧ n ≤ 60 ∧ k.one = 2 ^ n
  mMinus_pos : 1 ≤ k.mMinus
  mMinus_le_w : k.mMinus ≤ k.w
  w_le_mPlus : k.w ≤ k.mPlus
  mPlus_lt : k.mPlus < 2 ^ 64
  p1_pos : 1 ≤ k.p1

section
variable {k : Working}

theorem Working.InRange.one_bounds (h : k.InRange) : 2 ^ 32 ≤ k.one ∧ k.one ≤ 2 ^ 60 := by
  obtain ⟨n, lo, hi, hn⟩ := h.one_eq
  rw [hn]
  exact ⟨Nat.pow_le_pow_right two_pos lo, Nat.pow_le_pow_right two_pos hi⟩

theorem Working.InRange.one_pos (h : k.InRange) : 0 < k.one := lt_of_lt_of_le (by decide) h.one_bounds.1

theorem Working.p1_mul_one_add_p2 (k : Working) : k.p1 * k.one + k.p2 = k.mPlus := Nat.div_add_mod' ..

theorem Working.InRange.p2_lt (h : k.InRange) : k.p2 < k.one := Nat.mod_lt _ h.one_pos

/-- R175: `p1` fits 32 bits, since the unit is at least `2^32`. -/
theorem Working.InRange.p1_lt (h : k.InRange) : k.p1 < 2 ^ 32 := by
  rw [Working.p1, Nat.div_lt_iff_lt_mul h.one_pos]
  calc k.mPlus < 2 ^ 32 * 2 ^ 32 := h.mPlus_lt
    _ ≤ 2 ^ 32 * k.one := Nat.mul_le_mul_left _ h.one_bounds.1

/-- R174: `delta` and `dist` measure down from `M_plus` to `M_minus` and to the scaled value. -/
theorem Working.InRange.delta_dist (h : k.InRange) :
    k.delta + k.mMinus = k.mPlus ∧ k.dist + k.w = k.mPlus ∧ k.dist ≤ k.delta ∧ k.delta < k.mPlus := by
  obtain ⟨-, h1, h2, h3, -, -⟩ := h
  unfold Working.delta Working.dist
  omega

end

/-- R171 to R175: everything that holds when scaling answers. -/
theorem scale_ok {v mm mp : Fp} {k : Working} {cdexp : Int} (h : scale v mm mp = .ok (k, cdexp)) :
    v.exp = mm.exp ∧ mm.exp = mp.exp ∧ k.InRange ∧ ∃ c, select mp.exp.toInt = .ok c ∧ cdexp = c.dexp ∧
      k.mMinus = mulHigh mm.sig c.sig + 1 ∧ k.mPlus + 1 = mulHigh mp.sig c.sig ∧ k.w = mulHigh v.sig c.sig ∧
      k.one = 2 ^ (-(mp.exp.toInt + c.bexp + 64)).toNat := by
  rcases scale_cases v mm mp with ⟨-, hs⟩ | ⟨-, -, hs⟩ | ⟨c, ⟨hvm, hmp⟩, hc, ⟨k', hs, hk, h0, hlo, hhi, h1⟩ | ⟨-, hs⟩⟩
  case inr.inr.inl =>
    obtain ⟨rfl, rfl⟩ := Prod.mk.inj (Except.ok.inj (h.symm.trans hs))
    obtain ⟨-, hge, hle⟩ := select_ok hc
    have hlt := mulHigh_lt mp.sig c.sig
    subst hk
    exact ⟨hvm, hmp, ⟨⟨_, by omega, by omega, rfl⟩, Nat.le_add_left .., hlo, hhi, by dsimp only; omega,
      Nat.pos_of_ne_zero h1⟩, c, hc, rfl, rfl, Nat.sub_add_cancel (Nat.pos_of_ne_zero h0), rfl, rfl⟩
  all_goals cases h.symm.trans hs

/-- The unit `2^-e` of R175, as a rational. -/
theorem two_pow_toNat_neg {e : Int} (h : e ≤ 0) : ((2 ^ (-e).toNat : Nat) : ℚ) = 2 ^ (-e) := by
  rw [Nat.cast_pow, Nat.cast_two, ← zpow_natCast, Int.toNat_of_nonneg (Int.neg_nonneg_of_nonpos h)]

/-- Settles O50: `scale_ok`, and the bounds of `Working.InRange`. -/
theorem scalingFitsTheDatapath : Obligations.ScalingFitsTheDatapath := by
  intro v mm mp k cdexp h
  obtain ⟨hvm, hmp, hk, c, hc, hcd, hmM, hmP, hw, hone⟩ := scale_ok h
  obtain ⟨hmem, -, hle⟩ := select_ok hc
  have hp2 := hk.p2_lt
  have hone60 := hk.one_bounds.2
  refine ⟨hvm, hmp, ⟨c, hmem, hc, hmM, hmP, hw, ?_, hcd⟩, hk.one_eq, hk.mMinus_pos, hk.mMinus_le_w, hk.w_le_mPlus,
    hk.mPlus_lt, rfl, rfl, hk.delta_dist.2.2.1, hk.p1_pos, hk.p1_lt, hp2, by omega, k.p1_mul_one_add_p2⟩
  rw [hone, two_pow_toNat_neg (by omega)]

end Sys2Proof.Machine

/-! ## The refinement (R179)

Each decrement of the last digit moves the remainder by `ten` towards `dist`, and the loop stops where the next
decrement would leave `delta` or come no closer. As the remainders are equally spaced, where it stops is the optimum. -/

namespace Sys2Proof.Machine

/-! ### The loop -/

section
variable {delta dist ten d d' rest j : Nat}

theorem closer_iff : closer delta dist ten rest = true ↔
    rest < dist ∧ ten ≤ delta - rest ∧ (rest + ten < dist ∨ rest + ten - dist < dist - rest) := by
  simp only [closer, Bool.and_eq_true, Bool.or_eq_true, decide_eq_true_eq, and_assoc, ge_iff_le, gt_iff_lt]

/-- The loop makes exactly the first `j` decrements: `closer` holds before each of them, and no more after. -/
def Decrements (delta dist ten rest j : Nat) : Prop :=
  (∀ i < j, closer delta dist ten (rest + i * ten) = true) ∧ closer delta dist ten (rest + j * ten) = false

theorem decrements_zero (h : closer delta dist ten rest = false) : Decrements delta dist ten rest 0 :=
  ⟨fun _ hi => absurd hi (Nat.not_lt_zero _), by rwa [Nat.zero_mul]⟩

theorem decrements_succ (h : closer delta dist ten rest = true) (hj : Decrements delta dist ten (rest + ten) j) :
    Decrements delta dist ten rest (j + 1) := by
  have hshift (i : Nat) : rest + ten + i * ten = rest + (i + 1) * ten := by rw [Nat.succ_mul]; omega
  refine ⟨fun i hi => ?_, hshift j ▸ hj.2⟩
  cases i with
  | zero => rwa [Nat.zero_mul]
  | succ i => exact hshift i ▸ hj.1 i (Nat.lt_of_succ_lt_succ hi)

/-- What the loop answers: the digit less its decrements. -/
theorem refineDigit_decrements (h : refineDigit delta dist ten d rest = .ok d') :
    ∃ j, d = d' + j ∧ Decrements delta dist ten rest j := by
  induction d generalizing rest with
  | zero =>
    rw [refineDigit] at h
    split_ifs at h with hc
    obtain rfl := Except.ok.inj h
    exact ⟨0, rfl, decrements_zero (Bool.eq_false_iff.mpr hc)⟩
  | succ d ih =>
    rw [refineDigit] at h
    split_ifs at h with hc
    · obtain ⟨j, rfl, hj⟩ := ih h
      exact ⟨j + 1, rfl, decrements_succ hc hj⟩
    · obtain rfl := Except.ok.inj h
      exact ⟨0, rfl, decrements_zero (Bool.eq_false_iff.mpr hc)⟩

/-- The distance from the scaled value after `i` decrements. -/
def missBy (dist ten rest i : Nat) : Int := |((rest + i * ten : Nat) : Int) - dist|

section
variable (h : Decrements delta dist ten rest j)
include h

theorem Decrements.le_delta (hle : rest ≤ delta) : rest + j * ten ≤ delta := by
  cases j with
  | zero => rwa [Nat.zero_mul]
  | succ i =>
    obtain ⟨-, hten, -⟩ := closer_iff.mp (h.1 i i.lt_succ_self)
    rcases Nat.eq_zero_or_pos ten with rfl | hpos
    · rwa [Nat.mul_zero]
    · rw [Nat.succ_mul]
      omega

/-- Where `ten` is 0 the loop, if it stops, makes no decrement. -/
theorem Decrements.ten_pos (hj : 0 < j) : 0 < ten := by
  by_contra h0
  obtain rfl : ten = 0 := by omega
  have hfirst := h.1 0 hj
  have hstop := h.2
  rw [Nat.mul_zero] at hfirst hstop
  rw [hfirst] at hstop
  cases hstop

/-- Each decrement comes strictly closer. -/
theorem Decrements.missBy_succ_lt {i : Nat} (hi : i < j) : missBy dist ten rest (i + 1) < missBy dist ten rest i := by
  obtain ⟨hlt, -, hcloser⟩ := closer_iff.mp (h.1 i hi)
  have hten := h.ten_pos (Nat.zero_lt_of_lt hi)
  unfold missBy
  rw [Nat.succ_mul, Int.abs_eq_natAbs, Int.abs_eq_natAbs]
  omega

theorem Decrements.missBy_lt {i : Nat} (hi : i < j) : missBy dist ten rest j < missBy dist ten rest i := by
  induction hgap : j - i generalizing i with
  | zero => omega
  | succ g ih =>
    have hstep := h.missBy_succ_lt hi
    rcases Nat.lt_or_ge (i + 1) j with hlt | hge
    · exact (ih hlt (by omega)).trans hstep
    · rwa [show j = i + 1 by omega]

/-- No further decrement within `delta` comes closer. -/
theorem Decrements.missBy_le_of_lt {i : Nat} (hi : j < i) (hle : rest + i * ten ≤ delta) :
    missBy dist ten rest j ≤ missBy dist ten rest i := by
  have hfar : rest + j * ten + ten ≤ rest + i * ten := by
    have := Nat.mul_le_mul_right ten hi
    rw [Nat.succ_mul] at this
    omega
  have hstop := mt closer_iff.mpr (Bool.eq_false_iff.mp h.2)
  unfold missBy
  rw [Int.abs_eq_natAbs, Int.abs_eq_natAbs]
  omega

theorem Decrements.missBy_le {i : Nat} (hle : rest + i * ten ≤ delta) :
    missBy dist ten rest j ≤ missBy dist ten rest i := by
  rcases Nat.lt_trichotomy i j with hlt | rfl | hgt
  · exact (h.missBy_lt hlt).le
  · exact le_rfl
  · exact h.missBy_le_of_lt hgt hle

end

end

/-! ### The digits of a result -/

/-- A result `r` of DIGITS on the working interval `k`: the digits of `M_plus` down to the first weight `10^n` that
fits, the last one lowered by `j`. -/
structure IsResult (k : Working) (cdexp : Int) (on : Bool) (r : Decimal) (n : Int) (j : Nat) : Prop where
  firstFit : k.FirstFit (k.kk - 32) k.kk n
  dexp_eq : r.dexp = -cdexp + n
  digits_eq : ∃ d more, Nat.digits 10 (k.leadingAt n) = (d + j) :: more ∧ 1 ≤ d ∧ r.digits = (d :: more).reverse
  within : k.restAt n + j * k.tenAt n ≤ scaleAt n * k.delta
  refined : on = true → Decrements (scaleAt n * k.delta) (scaleAt n * k.dist) (k.tenAt n) (k.restAt n) j
  unrefined : on = false → j = 0

/-- R179: the refinement, on or off, of what the phases answer. -/
theorem refineDigits_emittedAt (on : Bool) {k : Working} {n : Int} (h : (k.emittedAt n).NeedsLastDigit) :
    ∃ d more j, Nat.digits 10 (k.leadingAt n) = (d + j) :: more ∧ 1 ≤ d ∧
      refineDigits on (k.emittedAt n) = .ok (d :: more) ∧ k.restAt n + j * k.tenAt n ≤ scaleAt n * k.delta ∧
      (on = true → Decrements (scaleAt n * k.delta) (scaleAt n * k.dist) (k.tenAt n) (k.restAt n) j) ∧
      (on = false → j = 0) := by
  obtain ⟨d, more, hbuf, hle, hlt⟩ := h
  cases on with
  | false =>
    have hd : 1 ≤ d := by
      by_contra h0
      obtain rfl : d = 0 := by omega
      omega
    exact ⟨d, more, 0, hbuf, hd, congrArg _ hbuf, by rwa [Nat.zero_mul], nofun, fun _ => rfl⟩
  | true =>
    obtain ⟨d', hok, hd'⟩ := refineDigit_ok (dist := (k.emittedAt n).dist) hle hlt
    obtain ⟨j, rfl, hj⟩ := refineDigit_decrements hok
    refine ⟨d', more, j, hbuf, hd', ?_, hj.le_delta hle, fun _ => hj, nofun⟩
    simp only [refineDigits, hbuf, hok]
    rfl

/-- R170: once scaling has answered, DIGITS has a result, or no weight fits and it is `DIGITS_OVERFLOW`. -/
theorem digitGen_cases {v mm mp : Fp} {k : Working} {cdexp : Int} (hs : scale v mm mp = .ok (k, cdexp)) (on : Bool) :
    (∃ r n j, digitGen on v mm mp = .ok r ∧ IsResult k cdexp on r n j) ∨
    (k.NoFit (k.kk - 32) k.kk ∧ digitGen on v mm mp = .error .digitsOverflow) := by
  obtain ⟨-, -, hk, -⟩ := scale_ok hs
  rw [digitGen_of_scale hs]
  rcases emit_scans hk.one_pos hk.p1_pos hk.p1_lt with ⟨n, hfirst, he⟩ | ⟨hnone, he⟩
  · have hneeds : (k.emittedAt n).NeedsLastDigit := by
      rcases emit_needsLastDigit hk.delta_dist.2.2.2 with ⟨r, hr, hneeds⟩ | hr
      · rwa [Except.ok.inj (he.symm.trans hr)]
      · cases he.symm.trans hr
    obtain ⟨d, more, j, hdigits, hd, hok, hwithin, hon, hoff⟩ := refineDigits_emittedAt on hneeds
    refine .inl ⟨⟨(d :: more).reverse, -cdexp + n⟩, n, j, ?_, hfirst, rfl, ⟨d, more, hdigits, hd, rfl⟩,
      hwithin, hon, hoff⟩
    rw [he]
    change (refineDigits on (k.emittedAt n) >>= fun buf => pure (⟨buf.reverse, -cdexp + n⟩ : Decimal)) = _
    rw [hok]
    rfl
  · rw [he]
    exact .inr ⟨hnone, rfl⟩

theorem isResult_of_digitGen {v mm mp : Fp} {k : Working} {cdexp : Int} {on : Bool} {r : Decimal}
    (hs : scale v mm mp = .ok (k, cdexp)) (h : digitGen on v mm mp = .ok r) : ∃ n j, IsResult k cdexp on r n j := by
  rcases digitGen_cases hs on with ⟨r', n, j, hr, hres⟩ | ⟨-, hr⟩
  · obtain rfl := Except.ok.inj (h.symm.trans hr)
    exact ⟨n, j, hres⟩
  · cases h.symm.trans hr

/-- R171 to R175: a result comes from a working interval. -/
theorem scale_ok_of_digitGen {v mm mp : Fp} {on : Bool} {r : Decimal} (h : digitGen on v mm mp = .ok r) :
    ∃ k cdexp, scale v mm mp = .ok (k, cdexp) := by
  cases hs : scale v mm mp with
  | ok kc => exact ⟨kc.1, kc.2, rfl⟩
  | error c => cases (digitGen_of_scale_error hs).symm.trans h

/-- Settles O54: the causes of the digit generator are `digitGen_error`'s. -/
theorem roundUnderflowIsNeverRaised : Obligations.RoundUnderflowIsNeverRaised := fun on v mm mp h => by
  rcases digitGen_error h with hc | hc | hc <;> cases hc

/-- R35: the digits, read from the last one first, spell the number as `Nat.ofDigits` does. -/
theorem decimalValue_reverse (buf : List Nat) : decimalValue buf.reverse = Nat.ofDigits 10 buf := by
  rw [decimalValue, List.foldl_reverse, Nat.ofDigits_eq_foldr]
  simp only [add_comm, Nat.cast_id]

/-! ### How many digits -/

/-- R176: `p1` has `kk` digits. -/
theorem Working.InRange.p1_bounds {k : Working} (hk : k.InRange) : 1 ≤ k.kk ∧ k.kk ≤ 10 ∧ 10 ^ (k.kk - 1) ≤ k.p1 ∧
    k.p1 < 10 ^ k.kk := by
  have hp1 := hk.p1_pos
  have h32 := hk.p1_lt
  have hlog : Nat.log 10 k.p1 < 10 := Nat.log_lt_of_lt_pow (by omega) (by omega)
  have hkk : k.kk = Nat.log 10 k.p1 + 1 := Nat.length_digits 10 k.p1 (by decide) (by omega)
  rw [hkk]
  exact ⟨Nat.le_add_left .., hlog, Nat.pow_log_le_self 10 (by omega), Nat.lt_pow_succ_log_self (by decide) _⟩

section
variable {k : Working} {n : Int}

/-- `10^n` times the unit, whatever the sign of `n`. -/
theorem pow_mul_tenAt (k : Working) {a b : Nat} (h : (a : Int) + n = b) :
    10 ^ a * k.tenAt n = scaleAt n * (10 ^ b * k.one) := by
  rw [Working.tenAt, scaleAt, ← mul_assoc, ← mul_assoc, ← pow_add, ← pow_add]
  congr 2
  omega

theorem Working.tenAt_pos (hone : 0 < k.one) (n : Int) : 0 < k.tenAt n := Nat.mul_pos (by positivity) hone

theorem scaleAt_pos (n : Int) : 0 < scaleAt n := by unfold scaleAt; positivity

/-- The digits down to the weight `10^n` are `kk - n` digits. -/
theorem Working.InRange.leadingAt_bounds (hk : k.InRange) {a : Nat} (ha : (a : Int) + 1 + n = k.kk) :
    10 ^ a ≤ k.leadingAt n ∧ k.leadingAt n < 10 ^ (a + 1) := by
  obtain ⟨h1, -, hlo, hhi⟩ := hk.p1_bounds
  have hten := k.tenAt_pos hk.one_pos n
  have hlo' : 10 ^ (k.kk - 1) * k.one ≤ k.mPlus := (Nat.mul_le_mul_right _ hlo).trans (Nat.div_mul_le_self ..)
  have hhi' : k.mPlus < 10 ^ k.kk * k.one := (Nat.div_lt_iff_lt_mul hk.one_pos).mp hhi
  rw [Working.leadingAt, Nat.le_div_iff_mul_le hten, Nat.div_lt_iff_lt_mul hten,
    pow_mul_tenAt k (b := k.kk - 1) (by omega), pow_mul_tenAt k (b := k.kk) (by omega)]
  exact ⟨Nat.mul_le_mul_left _ hlo', Nat.mul_lt_mul_of_pos_left hhi' (scaleAt_pos n)⟩

theorem Working.InRange.length_digits (hk : k.InRange) (hn : n < k.kk) :
    ((Nat.digits 10 (k.leadingAt n)).length : Int) = k.kk - n := by
  obtain ⟨a, ha⟩ : ∃ a : Nat, (a : Int) + 1 + n = k.kk := ⟨(k.kk - n - 1).toNat, by omega⟩
  obtain ⟨hlo, hhi⟩ := hk.leadingAt_bounds ha
  have hpos : k.leadingAt n ≠ 0 := (lt_of_lt_of_le (by positivity) hlo).ne'
  rw [Nat.length_digits 10 _ (by decide) hpos, Nat.log_eq_of_pow_le_of_lt_pow hlo hhi]
  omega

/-- Above the digits of `p1` no weight fits: `M_plus` itself exceeds `delta`. -/
theorem Working.InRange.not_fits (hk : k.InRange) (hn : k.kk ≤ n) : ¬k.Fits n := by
  obtain ⟨m, rfl⟩ := Int.eq_ofNat_of_zero_le (by omega : 0 ≤ n)
  obtain ⟨-, -, -, hhi⟩ := hk.p1_bounds
  have hlt : k.p1 < 10 ^ m := hhi.trans_le (Nat.pow_le_pow_right (by decide) (by omega))
  obtain ⟨-, -, -, hdelta⟩ := hk.delta_dist
  rw [Working.Fits, k.restAt_natCast, Nat.mod_eq_of_lt hlt, scaleAt_natCast, one_mul,
    k.p1_mul_one_add_p2]
  exact hdelta.not_ge

end

end Sys2Proof.Machine

/-! ## What DIGITS computes (R178 to R185)

The natural numbers of the phases are the rational `X = M_plus × 2^e`, cut at a weight `10^n` and multiplied by the unit
the phases work in. So the digits spell `⌊X / 10^n⌋`, and of what is left of `X` the fit is a comparison with
`delta`. -/

namespace Sys2Proof.Machine

/-! ### The result (R182, R183, R185) -/

section
variable {k : Working} {cdexp : Int} {on : Bool} {r : Decimal} {n : Int} {j : Nat}

theorem IsResult.value (h : IsResult k cdexp on r n j) : decimalValue r.digits + j = k.leadingAt n := by
  obtain ⟨d, more, hdigits, -, hr⟩ := h.digits_eq
  have hval := Nat.ofDigits_digits 10 (k.leadingAt n)
  rw [hdigits, Nat.ofDigits_cons] at hval
  rw [hr, decimalValue_reverse, Nat.ofDigits_cons, ← hval]
  omega

theorem IsResult.length (hk : k.InRange) (h : IsResult k cdexp on r n j) : (r.digits.length : Int) = k.kk - n := by
  obtain ⟨d, more, hdigits, -, hr⟩ := h.digits_eq
  rw [← hk.length_digits h.firstFit.lt, hdigits, hr, List.length_reverse, List.length_cons, List.length_cons]

/-- R182: a digit of a result is a digit of `M_plus`, or the last one lowered. -/
theorem IsResult.le_nine (h : IsResult k cdexp on r n j) : ∀ d ∈ r.digits, d ≤ 9 := by
  obtain ⟨d, more, hdigits, -, hr⟩ := h.digits_eq
  have hlt (x : Nat) (hx : x ∈ (d + j) :: more) : x < 10 := Nat.digits_lt_base (by decide) (hdigits ▸ hx)
  intro x hx
  rw [hr, List.mem_reverse, List.mem_cons] at hx
  rcases hx with rfl | hx
  · have := hlt _ List.mem_cons_self
    omega
  · have := hlt _ (List.mem_cons_of_mem _ hx)
    omega

theorem IsResult.last_pos (h : IsResult k cdexp on r n j) : ∃ d, r.digits.getLast? = some d ∧ 1 ≤ d := by
  obtain ⟨d, more, -, hd, hr⟩ := h.digits_eq
  exact ⟨d, by rw [hr, List.getLast?_reverse, List.head?_cons], hd⟩

/-- R183: the first digit is the last one, or the first digit of `M_plus`. -/
theorem IsResult.first_pos (h : IsResult k cdexp on r n j) : ∃ d, r.digits.head? = some d ∧ 1 ≤ d := by
  obtain ⟨d, more, hdigits, hd, hr⟩ := h.digits_eq
  rw [hr, List.head?_reverse]
  rcases List.eq_nil_or_concat more with rfl | ⟨init, first, rfl⟩
  · exact ⟨d, rfl, hd⟩
  · have hne : k.leadingAt n ≠ 0 := fun h0 => by simp [h0] at hdigits
    have hfirst := Nat.getLast_digit_ne_zero 10 hne
    simp only [hdigits, List.concat_eq_append, ← List.cons_append, List.getLast_append_singleton] at hfirst
    refine ⟨first, ?_, Nat.one_le_iff_ne_zero.mpr hfirst⟩
    rw [List.concat_eq_append, ← List.cons_append, List.getLast?_concat]

end

/-- R132: the decimal exponents of the ROM. -/
theorem rom_dexp_bounds : ∀ r ∈ rom, -300 ≤ r.dexp ∧ r.dexp ≤ 324 := by decide +kernel

/-- R182, R183, R185: every result of the digit generator. -/
theorem digitGen_inRange {on : Bool} {v mm mp : Fp} {r : Decimal} (h : digitGen on v mm mp = .ok r) :
    1 ≤ r.digits.length ∧ r.digits.length ≤ 32 ∧ (∀ d ∈ r.digits, d ≤ 9) ∧
    (∃ d, r.digits.head? = some d ∧ 1 ≤ d) ∧ (∃ d, r.digits.getLast? = some d ∧ 1 ≤ d) ∧
    -355 ≤ r.dexp ∧ r.dexp ≤ 309 := by
  obtain ⟨k, cdexp, hs⟩ := scale_ok_of_digitGen h
  obtain ⟨n, j, hres⟩ := isResult_of_digitGen hs h
  obtain ⟨-, -, hk, c, hc, rfl, -⟩ := scale_ok hs
  have hlen := hres.length hk
  have hlo := hres.firstFit.le
  have hlt := hres.firstFit.lt
  obtain ⟨h1, h10, -⟩ := hk.p1_bounds
  obtain ⟨hdlo, hdhi⟩ := rom_dexp_bounds c (select_ok hc).1
  have hd := hres.dexp_eq
  exact ⟨by omega, by omega, hres.le_nine, hres.first_pos, hres.last_pos, by omega, by omega⟩

/-- Settles O53: `digitGen_inRange`. -/
theorem digitsAreDecimalAndInRange : Obligations.DigitsAreDecimalAndInRange := fun _ _ _ _ _ => digitGen_inRange

/-! ### The rational `M_plus × 2^e` -/

section
variable (k : Working) (n : Int)

/-- `X`, the upper bound of the narrowed interval. -/
def Working.upper : ℚ := k.mPlus / k.one

/-- `10^n`, in the unit of the phases. -/
theorem ten_zpow_eq (hone : 0 < k.one) : (10 : ℚ) ^ n = k.tenAt n / (scaleAt n * k.one) := by
  have h1 : (k.one : ℚ) ≠ 0 := by exact_mod_cast hone.ne'
  rw [zpow_eq_pow_div_pow (by norm_num), Working.tenAt, scaleAt]
  push_cast
  field_simp

/-- R178: the digits spell the floor. -/
theorem Working.leadingAt_eq_floor (hone : 0 < k.one) : (k.leadingAt n : Int) = ⌊k.upper / 10 ^ n⌋ := by
  have h1 : (k.one : ℚ) ≠ 0 := by exact_mod_cast hone.ne'
  have hs : (scaleAt n : ℚ) ≠ 0 := by exact_mod_cast (scaleAt_pos n).ne'
  have hx : k.upper / 10 ^ n = ((scaleAt n * k.mPlus : Nat) : ℚ) / (k.tenAt n : Nat) := by
    rw [ten_zpow_eq k n hone, Working.upper]
    push_cast
    field_simp
  rw [hx, Rat.floor_natCast_div_natCast, Working.leadingAt]
  push_cast
  rfl

/-- The value of the digits with the last one lowered by `i` is `X` less their remainder. -/
theorem Working.lowered_eq (hone : 0 < k.one) (i : Nat) : ((k.leadingAt n : ℚ) - i) * 10 ^ n =
    k.upper - ((k.restAt n + i * k.tenAt n : Nat) : ℚ) / (scaleAt n * k.one) := by
  have h1 : (k.one : ℚ) ≠ 0 := by exact_mod_cast hone.ne'
  have hs : (scaleAt n : ℚ) ≠ 0 := by exact_mod_cast (scaleAt_pos n).ne'
  have hsplit : (scaleAt n * k.mPlus : ℚ) = k.tenAt n * k.leadingAt n + k.restAt n := by
    exact_mod_cast (Nat.div_add_mod (scaleAt n * k.mPlus) (k.tenAt n)).symm
  have hx : k.upper = (scaleAt n * k.mPlus : ℚ) / (scaleAt n * k.one) := by
    rw [Working.upper, mul_div_mul_left _ _ hs]
  rw [ten_zpow_eq k n hone, hx, hsplit]
  push_cast
  field_simp
  ring

/-- A remainder of the phases is within `delta` when it is so in units of 1. -/
theorem Working.rest_le_iff (hone : 0 < k.one) (R : Nat) :
    (R : ℚ) / (scaleAt n * k.one) ≤ (k.delta : ℚ) / k.one ↔ R ≤ scaleAt n * k.delta := by
  have h1 : (0 : ℚ) < k.one := by exact_mod_cast hone
  have hs : (0 : ℚ) < scaleAt n := by exact_mod_cast scaleAt_pos n
  rw [← div_div, div_le_div_iff_of_pos_right h1, div_le_iff₀ hs, mul_comm]
  exact_mod_cast Iff.rfl

/-- What the digits down to the weight `10^n` leave of `X`. -/
theorem Working.upper_sub_floor (hone : 0 < k.one) :
    k.upper - ⌊k.upper / 10 ^ n⌋ * 10 ^ n = (k.restAt n : ℚ) / (scaleAt n * k.one) := by
  have h := k.lowered_eq n hone 0
  rw [Nat.zero_mul, Nat.add_zero, Nat.cast_zero, sub_zero] at h
  rw [← k.leadingAt_eq_floor n hone, Int.cast_natCast, h, sub_sub_cancel]

/-- R178: a weight fits when the digits down to it leave at most `delta` of `X`. -/
theorem Working.fits_iff (hone : 0 < k.one) :
    k.Fits n ↔ k.upper - ⌊k.upper / 10 ^ n⌋ * 10 ^ n ≤ (k.delta : ℚ) / k.one := by
  rw [k.upper_sub_floor n hone, k.rest_le_iff n hone]
  rfl

end

/-! ### The first weight that fits (R184) -/

section
variable {k : Working} {cdexp : Int} {on : Bool} {r : Decimal} {n : Int} {j : Nat}

theorem IsResult.exponent (h : IsResult k cdexp on r n j) : r.dexp + cdexp = n := by
  rw [h.dexp_eq]
  omega

theorem IsResult.decimalValue_eq (h : IsResult k cdexp on r n j) :
    (decimalValue r.digits : ℚ) = k.leadingAt n - j := by
  rw [← h.value, Nat.cast_add, add_sub_cancel_right]

/-- R178: no weight above that of the last digit fits. -/
theorem IsResult.not_fits_of_lt (hk : k.InRange) (h : IsResult k cdexp on r n j) {i : Int} (hi : n < i) : ¬k.Fits i :=
  (lt_or_ge i k.kk).elim (h.firstFit.above i hi) hk.not_fits

end

/-- Settles O51: without the refinement the result is the digits down to the first weight that fits. -/
theorem digitsAreTheShortestPrefix : Obligations.DigitsAreTheShortestPrefix := by
  intro v mm mp k cdexp r hs h X m
  obtain ⟨n, j, hres⟩ := isResult_of_digitGen hs h
  obtain ⟨-, -, hk, -⟩ := scale_ok hs
  obtain rfl : m = n := hres.exponent
  have hvalue : decimalValue r.digits = k.leadingAt m := by rw [← hres.value, hres.unrefined rfl, Nat.add_zero]
  have hfloor := k.leadingAt_eq_floor m hk.one_pos
  have hfits := (k.fits_iff m hk.one_pos).mp hres.firstFit.fits
  rw [← hfloor, Int.cast_natCast] at hfits
  rw [hvalue]
  exact ⟨hfloor, hfits, fun i hi => not_le.mp (mt (k.fits_iff i hk.one_pos).mpr (hres.not_fits_of_lt hk hi))⟩

section
variable {k : Working}

/-- R174: `M_minus` lies `delta` below `X`. -/
theorem Working.InRange.mMinus_eq (hk : k.InRange) : (k.mMinus : ℚ) / k.one = k.upper - (k.delta : ℚ) / k.one := by
  rw [Working.upper, ← hk.delta_dist.1, Nat.cast_add]
  ring

/-- R174: the scaled value lies `dist` below `X`. -/
theorem Working.InRange.w_eq (hk : k.InRange) : (k.w : ℚ) / k.one = k.upper - (k.dist : ℚ) / k.one := by
  rw [Working.upper, ← hk.delta_dist.2.1, Nat.cast_add]
  ring

/-- R179: lowered by `i`, the digits stay at or above `M_minus` exactly when the remainder stays within `delta`. -/
theorem Working.InRange.mMinus_le_lowered_iff (hk : k.InRange) (n : Int) (i : Nat) :
    (k.mMinus : ℚ) / k.one ≤ ((k.leadingAt n : ℚ) - i) * 10 ^ n ↔
      k.restAt n + i * k.tenAt n ≤ scaleAt n * k.delta := by
  rw [hk.mMinus_eq, k.lowered_eq n hk.one_pos, sub_le_sub_iff_left, k.rest_le_iff n hk.one_pos]

end

/-- Settles O52: what the digits leave of `X` is within `delta`, and not negative. -/
theorem resultLiesInTheNarrowedInterval : Obligations.ResultLiesInTheNarrowedInterval := by
  intro on v mm mp k cdexp r hs h
  obtain ⟨n, j, hres⟩ := isResult_of_digitGen hs h
  obtain ⟨-, -, hk, -⟩ := scale_ok hs
  rw [hres.exponent, hres.decimalValue_eq]
  refine ⟨(hk.mMinus_le_lowered_iff n j).mpr hres.within, ?_⟩
  rw [k.lowered_eq n hk.one_pos]
  exact sub_le_self _ (by positivity)

/-! ### The closest value (R179) -/

section
variable {k : Working} {cdexp : Int} {on : Bool} {r : Decimal} {n : Int} {j : Nat}

/-- R179: the distance from the scaled value, in the unit of the phases. -/
theorem Working.InRange.abs_lowered_sub (hk : k.InRange) (n : Int) (i : Nat) :
    |((k.leadingAt n : ℚ) - i) * 10 ^ n - k.w / k.one| =
      (missBy (scaleAt n * k.dist) (k.tenAt n) (k.restAt n) i : ℚ) / (scaleAt n * k.one) := by
  have h1 : (0 : ℚ) < k.one := by exact_mod_cast hk.one_pos
  have hs : (0 : ℚ) < scaleAt n := by exact_mod_cast scaleAt_pos n
  have hdist : (k.dist : ℚ) / k.one = ((scaleAt n * k.dist : Nat) : ℚ) / (scaleAt n * k.one) := by
    rw [Nat.cast_mul, mul_div_mul_left _ _ hs.ne']
  rw [k.lowered_eq n hk.one_pos, hk.w_eq, hdist, sub_sub_sub_cancel_left, ← sub_div, abs_div,
    abs_of_pos (mul_pos hs h1), abs_sub_comm, missBy]
  push_cast
  rfl

theorem Working.FirstFit.unique {lo hi m : Int} (hn : k.FirstFit lo hi n) (hm : k.FirstFit lo hi m) : n = m := by
  rcases lt_trichotomy n m with h | h | h
  · exact absurd hm.fits (hn.above m h hm.lt)
  · exact h
  · exact absurd hn.fits (hm.above n h hn.lt)

/-- R179: the refinement changes only the last digit. -/
theorem IsResult.digits_with_without {r₀ : Decimal} {on₀ : Bool} {j₀ : Nat} (h : IsResult k cdexp on r n j)
    (h₀ : IsResult k cdexp on₀ r₀ n j₀) :
    r.dexp = r₀.dexp ∧ r.digits.length = r₀.digits.length ∧ r.digits.dropLast = r₀.digits.dropLast := by
  obtain ⟨d, more, hdigits, -, hr⟩ := h.digits_eq
  obtain ⟨d₀, more₀, hdigits₀, -, hr₀⟩ := h₀.digits_eq
  obtain ⟨-, rfl⟩ := List.cons.inj (hdigits.symm.trans hdigits₀)
  rw [hr, hr₀]
  exact ⟨h.dexp_eq.trans h₀.dexp_eq.symm, by simp, by simp⟩

end

/-- Settles O55: the loop by `Decrements`; of a whole result, the same distances in the unit of the phases. -/
theorem refinementPicksTheClosest : Obligations.RefinementPicksTheClosest := by
  refine ⟨fun delta dist ten d rest d' hle h => ?_, fun v mm mp k cdexp r₀ r hs h₀ h => ?_⟩
  · obtain ⟨j, rfl, hj⟩ := refineDigit_decrements h
    rw [Nat.add_sub_cancel_left]
    exact ⟨Nat.le_add_right .., hj.le_delta hle, fun i => hj.missBy_le, fun i => hj.missBy_lt⟩
  · intro w lowered
    obtain ⟨-, -, hk, -⟩ := scale_ok hs
    obtain ⟨n, j₀, hres₀⟩ := isResult_of_digitGen hs h₀
    obtain ⟨m, j, hres⟩ := isResult_of_digitGen hs h
    obtain rfl := hres₀.firstFit.unique hres.firstFit
    obtain ⟨hdexp, hlength, hdrop⟩ := hres.digits_with_without hres₀
    have hvalue : decimalValue r₀.digits = k.leadingAt n := by rw [← hres₀.value, hres₀.unrefined rfl, Nat.add_zero]
    have hj := hres.refined rfl
    have hunit : (0 : ℚ) < scaleAt n * k.one := by exact_mod_cast Nat.mul_pos (scaleAt_pos n) hk.one_pos
    simp only [w, lowered, hres₀.exponent, hvalue, hk.abs_lowered_sub, hk.mMinus_le_lowered_iff,
      div_le_div_iff_of_pos_right hunit, div_lt_div_iff_of_pos_right hunit, Int.cast_le, Int.cast_lt]
    exact ⟨hdexp, hlength, hdrop, j, hres.value, hres.within, fun i => hj.missBy_le, fun i => hj.missBy_lt⟩

end Sys2Proof.Machine

/-! ## The DIGITS command (R170 to R180, R186)

DIGITS commits the digit generator's result or faults with its cause. With a ROM entry, narrowing decides the
precondition and the phases decide the overflow. -/

namespace Sys2Proof.Machine

/-! ### Commit or fault -/

/-- R33, R180: byte `i` of the digit buffer. -/
theorem digitBytes_get (ds : List Nat) (i : Fin 32) :
    (digitBytes ds)[i] = ds[i.val]?.elim 0x00 fun d => BitVec.ofNat 8 (0x30 + d) := by
  simp only [digitBytes, Fin.getElem_fin, Vector.getElem_mk, List.getElem_toArray, List.getElem_map, List.getElem_range]
  cases ds[i.val]? <;> rfl

section
variable {s : State} {rv rm rp : FReg} {v mm mp : Fp}

theorem exec_digits_of_ok {r : Decimal} (hv : s.Holds rv v) (hm : s.Holds rm mm) (hp : s.Holds rp mp)
    (h : digitGen s.prefine v mm mp = .ok r) : exec (.digits rv rm rp) s = .next { s with
      dbuf := digitBytes r.digits, dlen := BitVec.ofNat 32 r.digits.length, dexp := BitVec.ofInt 32 r.dexp,
      pend := false } := by
  refine (execDigits_of_holds hv hm hp).trans ?_
  rw [h]
  rfl

theorem faults_digits_of_error {c : Cause} (hv : s.Holds rv v) (hm : s.Holds rm mm) (hp : s.Holds rp mp)
    (h : digitGen s.prefine v mm mp = .error c) : Faults (.digits rv rm rp) s c := by
  refine (execDigits_of_holds hv hm hp).trans ?_
  rw [h]
  rfl

end

/-- R171: the exponents are checked first. -/
theorem scale_of_exp_ne {v mm mp : Fp} (h : ¬(v.exp = mm.exp ∧ mm.exp = mp.exp)) :
    scale v mm mp = .error .digitsPrecond := by rw [scale, if_pos h]

/-! ### Narrowing (R173, R175) -/

/-- The operands narrowing refuses with the entry `c`, at the unit `2^e`. -/
def NarrowingFails (v mm mp : Fp) (c : RomEntry) (one : Nat) : Prop :=
  mulHigh mm.sig c.sig = 2 ^ 64 - 1 ∨ mulHigh mp.sig c.sig = 0 ∨ mulHigh v.sig c.sig < mulHigh mm.sig c.sig + 1 ∨
    mulHigh mp.sig c.sig - 1 < mulHigh v.sig c.sig ∨ (mulHigh mp.sig c.sig - 1) / one = 0

/-- With an entry `c`, scaling answers exactly where narrowing does not fail. -/
theorem scale_with_entry {v mm mp : Fp} {c : RomEntry} (hvm : v.exp = mm.exp) (hmp : mm.exp = mp.exp)
    (hc : select mp.exp.toInt = .ok c) {one : Nat} (hone : one = 2 ^ (-(mp.exp.toInt + c.bexp + 64)).toNat) :
    (NarrowingFails v mm mp c one → scale v mm mp = .error .digitsPrecond) ∧
    (¬NarrowingFails v mm mp c one → scale v mm mp =
      .ok (⟨mulHigh mm.sig c.sig + 1, mulHigh mp.sig c.sig - 1, mulHigh v.sig c.sig, one⟩, c.dexp)) := by
  subst hone
  rcases scale_cases v mm mp with ⟨hne, -⟩ | ⟨-, hc', -⟩ | ⟨c', -, hc', ⟨k, hs, rfl, h0, hlo, hhi, h1⟩ | ⟨hfails, hs⟩⟩
  · exact absurd ⟨hvm, hmp⟩ hne
  · cases hc.symm.trans hc'
  · obtain rfl := Except.ok.inj (hc.symm.trans hc')
    refine ⟨fun hfails => ?_, fun _ => hs⟩
    rcases hfails with h | h | h | h | h
    · exact absurd h (mulHigh_lt ..).ne
    · exact absurd h h0
    · exact absurd hlo h.not_ge
    · exact absurd hhi h.not_ge
    · exact absurd h h1
  · obtain rfl := Except.ok.inj (hc.symm.trans hc')
    exact ⟨fun _ => hs, fun h => absurd hfails h⟩

/-! ### Completion or overflow (R178) -/

/-- R176: `X` has `kk` integral digits. -/
theorem Working.InRange.kk_eq {k : Working} (hk : k.InRange) {kk : Int} (hlo : (10 : ℚ) ^ (kk - 1) ≤ k.upper)
    (hhi : k.upper < 10 ^ kk) : kk = k.kk := by
  obtain ⟨h1, -, plo, phi⟩ := hk.p1_bounds
  have hone : (0 : ℚ) < k.one := by exact_mod_cast hk.one_pos
  have klo : (10 : ℚ) ^ ((k.kk : Int) - 1) ≤ k.upper := by
    rw [Working.upper, le_div_iff₀ hone, show (k.kk : Int) - 1 = (k.kk - 1 : Nat) by omega, zpow_natCast]
    exact_mod_cast (Nat.mul_le_mul_right _ plo).trans (Nat.div_mul_le_self ..)
  have khi : k.upper < (10 : ℚ) ^ (k.kk : Int) := by
    rw [Working.upper, div_lt_iff₀ hone, zpow_natCast]
    exact_mod_cast (Nat.div_lt_iff_lt_mul hk.one_pos).mp phi
  have h₁ : kk - 1 < k.kk := (zpow_lt_zpow_iff_right₀ (by norm_num)).mp (hlo.trans_lt khi)
  have h₂ : (k.kk : Int) - 1 < kk := (zpow_lt_zpow_iff_right₀ (by norm_num)).mp (klo.trans_lt hhi)
  omega

/-- R178: DIGITS completes where some weight of the 32 fits, and overflows the buffer where none does. -/
theorem digitGen_ok_or_overflow {v mm mp : Fp} {k : Working} {cdexp : Int} (hs : scale v mm mp = .ok (k, cdexp))
    (on : Bool) :
    ((∃ n : Int, k.kk - 32 ≤ n ∧ n < k.kk ∧ k.Fits n) → ∃ r, digitGen on v mm mp = .ok r) ∧
    (k.NoFit (k.kk - 32) k.kk → digitGen on v mm mp = .error .digitsOverflow) := by
  rcases digitGen_cases hs on with ⟨r, n, j, hr, hres⟩ | ⟨hnone, hr⟩
  · exact ⟨fun _ => ⟨r, hr⟩, fun hnone => absurd hres.firstFit.fits (hnone n hres.firstFit.le hres.firstFit.lt)⟩
  · exact ⟨fun ⟨n, hlo, hlt, hfits⟩ => absurd hfits (hnone n hlo hlt), fun _ => hr⟩

/-- Settles O56: the checks in their order, then narrowing by `scale_with_entry` and the phases by
`digitGen_ok_or_overflow`. -/
theorem digitsWritesItsResultOrFaults : Obligations.DigitsWritesItsResultOrFaults := by
  refine fun s v m p x mm mp => ⟨commandWord_and_rowMask (and_zero_fReg v) (and_zero_fReg m) (and_zero_fReg p),
    fun hv hm hp => ⟨fun r hr => ⟨digitBytes r.digits, fun i => ?_, exec_digits_of_ok hv hm hp hr⟩,
      fun c => faults_digits_of_error hv hm hp,
      fun he => faults_digits_of_scale_error hv hm hp (scale_of_exp_ne he),
      fun h₁ h₂ hr => faults_digits_of_scale_error hv hm hp (scale_of_out_of_range h₁ h₂ hr),
      fun c h₁ h₂ hc => ?_⟩⟩
  · rw [digitBytes_get]
    cases r.digits[i.val]? <;> rfl
  · intro high one mMinus mPlus
    obtain ⟨hfail, hok⟩ := scale_with_entry (one := one) h₁ h₂ hc rfl
    refine ⟨fun hn => faults_digits_of_scale_error hv hm hp (hfail hn), fun hn => ?_⟩
    intro X fits kk hlo hhi
    have hs := hok hn
    obtain ⟨-, -, hk, -⟩ := scale_ok hs
    obtain rfl := hk.kk_eq hlo hhi
    obtain ⟨hcompletes, hoverflows⟩ := digitGen_ok_or_overflow hs s.prefine
    have hfits (n : Int) := Working.fits_iff _ n hk.one_pos
    exact ⟨fun ⟨n, hge, hlt, h⟩ => hcompletes ⟨n, hge, hlt, (hfits n).mpr h⟩, fun hnone =>
      faults_digits_of_error hv hm hp (hoverflows fun n hge hlt h => hnone n hge hlt ((hfits n).mp h))⟩

/-- Settles O59: the digits of 1.0, evaluated. -/
theorem digitsOfOne : Obligations.DigitsOfOne := by
  intro s hv hm hp
  have h (on : Bool) : digitGen on ⟨0x8000000000000000, BitVec.ofInt 32 (-63)⟩
      ⟨0x7FFFFFFFFFFFFE00, BitVec.ofInt 32 (-63)⟩ ⟨0x8000000000000400, BitVec.ofInt 32 (-63)⟩ = .ok ⟨[1], 0⟩ := by
    revert on
    decide +kernel
  exact (exec_digits_of_ok hv hm hp (h s.prefine)).trans rfl

end Sys2Proof.Machine

/-! ## The boundary triple that BOUND writes (R154 to R159)

The value of the pattern and its two boundaries, as rationals. The three significands of a triple stand at one exponent,
so their differences are those of the values: half a unit of the last place either way, or a quarter below a power of
two. -/

namespace Sys2Proof.Machine

/-! ### The three values (R154 to R156) -/

section
variable {v : Fp} (x : FloatFields)

/-- R156: below a power of two. -/
theorem lowerBoundary_of_power (hx : x.f = 0 ∧ x.e > 1) (h0 : 1 ≤ Nat.size v.sig.toNat)
    (hsig : Nat.size v.sig.toNat ≤ 62) (hexp : -2 ^ 31 + 64 ≤ v.exp.toInt) :
    (lowerBoundary x v).sig.toNat + 1 = 4 * v.sig.toNat ∧ (lowerBoundary x v).exp.toInt = v.exp.toInt - 2 := by
  have hpos := Nat.size_pos.mp h0
  have hlt := Nat.size_le.mp hsig
  have hfit := exp_fits v.exp
  rw [lowerBoundary, if_pos hx]
  refine ⟨?_, toInt_ofInt_of_fits (by omega) (by omega)⟩
  rw [Fp.ofExact, toNat_ofNat_sig (by omega)]
  omega

/-- R156: everywhere else. -/
theorem lowerBoundary_of_not_power (hx : ¬(x.f = 0 ∧ x.e > 1)) (h0 : 1 ≤ Nat.size v.sig.toNat)
    (hsig : Nat.size v.sig.toNat ≤ 62) (hexp : -2 ^ 31 + 64 ≤ v.exp.toInt) :
    (lowerBoundary x v).sig.toNat + 1 = 2 * v.sig.toNat ∧ (lowerBoundary x v).exp.toInt = v.exp.toInt - 1 := by
  have hpos := Nat.size_pos.mp h0
  have hlt := Nat.size_le.mp hsig
  have hfit := exp_fits v.exp
  rw [lowerBoundary, if_neg hx]
  refine ⟨?_, toInt_ofInt_of_fits (by omega) (by omega)⟩
  rw [Fp.ofExact, toNat_ofNat_sig (by omega)]
  omega

end

theorem cast_eq_sub_one {a b : Nat} (h : a + 1 = b) : (a : ℚ) = b - 1 := by
  rw [← h, Nat.cast_succ, add_sub_cancel_right]

/-- R154: the significand of a magnitude. -/
def floatSig (p : Prec) (x : FloatFields) : Nat := if x.e = 0 then x.f else x.f + 2 ^ p.desc.fb

/-- R154: the exponent of a magnitude. -/
def floatExp (p : Prec) (x : FloatFields) : Int := if x.e = 0 then 1 - p.desc.bias else x.e - p.desc.bias

section
variable {p : Prec} {x : FloatFields} (hf : x.f < 2 ^ p.desc.fb) (he : x.e < 2 ^ p.desc.eb)
include hf he

theorem floatValue_parts :
    (floatValue p.desc x).sig.toNat = floatSig p x ∧ (floatValue p.desc x).exp.toInt = floatExp p x := by
  unfold floatSig floatExp
  split
  · next h0 => exact floatValue_of_denormal hf h0
  · next h0 => exact floatValue_of_normal hf he h0

/-- The significand of a value is not 0 and leaves room for the boundaries' two more bits. -/
theorem floatValue_room (h0 : ¬(x.e = 0 ∧ x.f = 0)) : 1 ≤ Nat.size (floatValue p.desc x).sig.toNat ∧
    Nat.size (floatValue p.desc x).sig.toNat ≤ 62 ∧ -2 ^ 31 + 64 ≤ (floatValue p.desc x).exp.toInt := by
  have hsize := size_sig_bounds hf he h0
  have hexp := le_floatValue_exp hf he
  omega

theorem floatValue_val : (floatValue p.desc x).val = floatSig p x * (2 : ℚ) ^ floatExp p x := by
  obtain ⟨hs, hx⟩ := floatValue_parts hf he
  rw [Fp.val, hs, hx]

theorem upperBoundary_val (h0 : ¬(x.e = 0 ∧ x.f = 0)) :
    (upperBoundary (floatValue p.desc x)).val = (2 * floatSig p x + 1) * (2 : ℚ) ^ (floatExp p x - 1) := by
  obtain ⟨hs, hx⟩ := floatValue_parts hf he
  obtain ⟨-, hsig, hexp⟩ := floatValue_room hf he h0
  obtain ⟨hus, hux⟩ := upperBoundary_parts hsig hexp
  rw [Fp.val, hus, hux, hs, hx]
  push_cast
  rfl

theorem lowerBoundary_val (h0 : ¬(x.e = 0 ∧ x.f = 0)) : (lowerBoundary x (floatValue p.desc x)).val =
    if x.f = 0 ∧ x.e > 1 then (4 * floatSig p x - 1) * (2 : ℚ) ^ (floatExp p x - 2)
    else (2 * floatSig p x - 1) * 2 ^ (floatExp p x - 1) := by
  obtain ⟨hs, hx⟩ := floatValue_parts hf he
  obtain ⟨hpos, hsig, hexp⟩ := floatValue_room hf he h0
  split
  · next hpow =>
    obtain ⟨hls, hlx⟩ := lowerBoundary_of_power x hpow hpos hsig hexp
    rw [hs] at hls
    rw [Fp.val, cast_eq_sub_one hls, hlx, hx]
    push_cast
    rfl
  · next hpow =>
    obtain ⟨hls, hlx⟩ := lowerBoundary_of_not_power x hpow hpos hsig hexp
    rw [hs] at hls
    rw [Fp.val, cast_eq_sub_one hls, hlx, hx]
    push_cast
    rfl

end

/-! ### BOUND (R158) -/

theorem pairwiseDistinct_iff {v m p : FReg} : pairwiseDistinct v m p = true ↔ v ≠ m ∧ v ≠ p ∧ m ≠ p := by
  simp [pairwiseDistinct, and_assoc]

/-- R154 to R158 at either precision. -/
theorem bound_reports (p : Prec) {i : Instr} {v m q : FReg} (s : State) (he : exec i s = finish s (bound p v m q s)) :
    (v ≠ m → v ≠ q → m ≠ q →
      let E := (s.pargSig.extractLsb' p.desc.fb p.desc.eb).toNat
      let F := (s.pargSig.extractLsb' 0 p.desc.fb).toNat
      let sig : ℚ := if E = 0 then F else F + 2 ^ p.desc.fb
      let ex : Int := if E = 0 then 1 - p.desc.bias else E - p.desc.bias
      (¬(E = 0 ∧ F = 0) → E ≠ p.desc.emax → ∃ wv wm wp : Fp,
        wm.exp = wv.exp ∧ wp.exp = wv.exp ∧ 2 ^ 63 ≤ wp.sig.toNat ∧
        wv.val = sig * 2 ^ ex ∧ wp.val = (2 * sig + 1) * 2 ^ (ex - 1) ∧
        wm.val = (if F = 0 ∧ E > 1 then (4 * sig - 1) * 2 ^ (ex - 2) else (2 * sig - 1) * 2 ^ (ex - 1)) ∧
        exec i s = .next { s with
          f := ((s.f.set v ⟨wv.sig, wv.exp, true⟩).set m ⟨wm.sig, wm.exp, true⟩).set q ⟨wp.sig, wp.exp, true⟩,
          pend := false }) ∧
      ((E = 0 ∧ F = 0) ∨ E = p.desc.emax → Faults i s .boundClass)) ∧
    (v = m ∨ v = q ∨ m = q → Faults i s .illegal) := by
  constructor
  · intro hvm hvq hmq
    rw [bound_of_distinct p (pairwiseDistinct_iff.mpr ⟨hvm, hvq, hmq⟩)] at he
    rw [← fields_e_eq p, ← fields_f_eq p]
    intro E F sig ex
    have hsig : sig = floatSig p (fields p s.pargSig) := by
      simp only [sig, E, F, floatSig]
      split <;> push_cast <;> rfl
    refine ⟨fun h0 hmax => ?_, fun hclass => ?_⟩
    · obtain ⟨t, ht, hb⟩ := boundTriple_of_finite h0 hmax
      have hf := fields_f_lt p s.pargSig
      have hlt := fields_e_lt p s.pargSig
      rw [ht] at he
      rw [hsig]
      exact ⟨t.v, t.minus, t.plus, hb.minus_exp.trans hb.v_exp.symm, hb.v_exp.symm, hb.plus_normalized,
        hb.v_val.trans (floatValue_val hf hlt), hb.plus_val.trans (upperBoundary_val hf hlt h0),
        hb.minus_val.trans (lowerBoundary_val hf hlt h0), he⟩
    · rw [boundTriple_of_class ((boundClass_iff ..).mpr hclass)] at he
      exact he
  · intro heq
    have hnot : pairwiseDistinct v m q = false := by
      rw [← Bool.not_eq_true, pairwiseDistinct_iff]
      tauto
    rw [bound_of_not_distinct p hnot] at he
    exact he

/-- Settles O46: `bound_reports` at binary64. -/
theorem boundDoubleWritesTheTriple : Obligations.BoundDoubleWritesTheTriple := fun s v m p =>
  ⟨commandWord_and_rowMask (and_zero_fReg v) (and_zero_fReg m) (and_zero_fReg p), bound_reports .double s rfl⟩

/-- Settles O47: `bound_reports` at binary32. -/
theorem boundSingleWritesTheTriple : Obligations.BoundSingleWritesTheTriple := fun s _ _ _ =>
  ⟨and_rowMask_eq_iff.mpr ⟨reservedBitsZero_commandWord .., opcField_commandWord .., pBit_commandWord ..,
    and_zero_fReg _, and_zero_fReg _, and_zero_fReg _⟩, bound_reports .single s rfl⟩

end Sys2Proof.Machine

/-! ## DIGITS after BOUND (R186)

The significands of a boundary triple are so far apart that, rounded and narrowed, they stay in order, and that `delta`
is more than the weight of the digit after 17 digits of binary64, or 9 of binary32. -/

namespace Sys2Proof.Machine

/-! ### How far apart the triple's significands are -/

/-- Pairs of one value at two exponents: the significand of the lower is shifted. -/
theorem sig_eq_of_val {r x : Fp} {n : Nat} (hval : r.val = x.val) (he : r.exp.toInt = x.exp.toInt - n) :
    r.sig.toNat = x.sig.toNat * 2 ^ n := by
  have h2 : (2 : ℚ) ^ x.exp.toInt ≠ 0 := zpow_ne_zero _ two_ne_zero
  rw [Fp.val, Fp.val, he, zpow_sub₀ two_ne_zero, zpow_natCast] at hval
  have hq : (r.sig.toNat : ℚ) = x.sig.toNat * 2 ^ n := by
    field_simp at hval
    rw [hval, mul_comm]
  exact_mod_cast hq

/-- The significands of a triple, `g` being a quarter of the last place of the value: half a place from the value to the
upper boundary and to the lower, or a quarter to the lower below a power of two, when the value has its top bit
alone. -/
structure BoundTriple.Spaced (t : BoundTriple) (g : Nat) : Prop where
  normalized : 2 ^ 63 ≤ t.v.sig.toNat
  minus_add_le : t.minus.sig.toNat + g ≤ t.v.sig.toNat
  add_le_plus : t.v.sig.toNat + 2 * g ≤ t.plus.sig.toNat
  width : t.minus.sig.toNat + 4 * g ≤ t.plus.sig.toNat ∨
    (t.minus.sig.toNat + 3 * g ≤ t.plus.sig.toNat ∧ t.plus.sig.toNat ≤ 2 ^ 63 + 2 * g)

theorem size_sig_le {p : Prec} {x : FloatFields} (hf : x.f < 2 ^ p.desc.fb) (he : x.e < 2 ^ p.desc.eb)
    (h0 : ¬(x.e = 0 ∧ x.f = 0)) : Nat.size (floatValue p.desc x).sig.toNat ≤ p.desc.fb + 1 := by
  by_cases hz : x.e = 0
  · exact (size_sig_of_denormal hf hz fun h => h0 ⟨hz, h⟩).2.trans (Nat.le_succ _)
  · exact (size_sig_of_normal hf he hz).le

/-- R159: the spacing of the triple of every finite non-zero pattern. -/
theorem IsBoundTriple.spaced {p : Prec} {x : FloatFields} {t : BoundTriple} (hf : x.f < 2 ^ p.desc.fb)
    (he : x.e < 2 ^ p.desc.eb) (h0 : ¬(x.e = 0 ∧ x.f = 0)) (hb : IsBoundTriple x (floatValue p.desc x) t) :
    t.Spaced (2 ^ (61 - p.desc.fb)) := by
  obtain ⟨hpos, hsig, hexp⟩ := floatValue_room hf he h0
  have hfb := p.fb_le
  have hsize := size_sig_le hf he h0
  obtain ⟨n, hn⟩ : ∃ n, Nat.size (floatValue p.desc x).sig.toNat + n + 2 = 64 :=
    ⟨62 - Nat.size (floatValue p.desc x).sig.toNat, by omega⟩
  have hg : 2 ^ (61 - p.desc.fb) ≤ 2 ^ n := Nat.pow_le_pow_right two_pos (by omega)
  obtain ⟨hus, hux⟩ := upperBoundary_parts hsig hexp
  have hplus_exp := hb.plus_exp
  have hv : t.v.sig.toNat = 4 * ((floatValue p.desc x).sig.toNat * 2 ^ n) := by
    rw [sig_eq_of_val (n := n + 2) hb.v_val (by rw [hb.v_exp]; omega)]
    ring
  have hplus : t.plus.sig.toNat = 4 * ((floatValue p.desc x).sig.toNat * 2 ^ n) + 2 * 2 ^ n := by
    rw [sig_eq_of_val (n := n + 1) hb.plus_val (by omega), hus]
    ring
  have hnorm := hb.v_normalized
  by_cases hpow : x.f = 0 ∧ x.e > 1
  · obtain ⟨hls, hlx⟩ := lowerBoundary_of_power x hpow hpos hsig hexp
    have hminus : t.minus.sig.toNat + 2 ^ n = 4 * ((floatValue p.desc x).sig.toNat * 2 ^ n) := by
      rw [sig_eq_of_val (n := n) hb.minus_val (by rw [hb.minus_exp]; omega), ← Nat.add_one_mul, hls, mul_assoc]
    obtain rfl : n = 61 - p.desc.fb := by
      have := size_sig_of_normal hf he (by omega)
      omega
    have htop : (floatValue p.desc x).sig.toNat * 2 ^ (61 - p.desc.fb) = 2 ^ 61 := by
      rw [(floatValue_of_normal hf he (by omega)).1, hpow.1, Nat.zero_add, ← pow_add, Nat.add_sub_cancel' (by omega)]
    exact ⟨hnorm, by omega, by omega, .inr ⟨by omega, by omega⟩⟩
  · obtain ⟨hls, hlx⟩ := lowerBoundary_of_not_power x hpow hpos hsig hexp
    have hminus : t.minus.sig.toNat + 2 * 2 ^ n = 4 * ((floatValue p.desc x).sig.toNat * 2 ^ n) := by
      rw [sig_eq_of_val (n := n + 1) hb.minus_val (by rw [hb.minus_exp]; omega), pow_succ', ← Nat.add_one_mul, hls]
      ring
    exact ⟨hnorm, by omega, by omega, .inl (by omega)⟩

/-! ### Scaling a spaced triple -/

/-- R104: the rounded high half, between the product's bounds. -/
theorem mulHigh_bounds (a b : DWord) : a.toNat * b.toNat < 2 ^ 64 * mulHigh a b + 2 ^ 63 ∧
    2 ^ 64 * mulHigh a b ≤ a.toNat * b.toNat + 2 ^ 63 := by
  unfold mulHigh
  omega

/-- The rounded products of separated significands with a normalized one stay separated. -/
theorem mulHigh_add_le {a b c : DWord} {d : Nat} (hc : 2 ^ 63 ≤ c.toNat) (h : a.toNat + d ≤ b.toNat) :
    2 * mulHigh a c + d ≤ 2 * mulHigh b c + 1 := by
  have hprod : a.toNat * c.toNat + d * c.toNat ≤ b.toNat * c.toNat := by
    rw [← add_mul]
    exact Nat.mul_le_mul_right _ h
  have hd : d * 2 ^ 63 ≤ d * c.toNat := Nat.mul_le_mul_left _ hc
  have ha := (mulHigh_bounds a c).2
  have hb := (mulHigh_bounds b c).1
  omega

/-- R171 to R175: scaling answers for a spaced triple at an exponent the selector takes. -/
theorem scale_of_spaced {t : BoundTriple} {g : Nat} {e : RomEntry} (hg : 8 ≤ g) (ht : t.Spaced g)
    (hv : t.v.exp = t.plus.exp) (hm : t.minus.exp = t.plus.exp) (he : select t.plus.exp.toInt = .ok e) :
    ∃ k, scale t.v t.minus t.plus = .ok (k, e.dexp) := by
  obtain ⟨hmem, hlo, -⟩ := select_ok he
  obtain ⟨-, -, hnorm, -, -⟩ := rom_nearest e hmem
  have hbelow := mulHigh_add_le hnorm ht.minus_add_le
  have habove := mulHigh_add_le hnorm ht.add_le_plus
  have hv62 := le_mulHigh_of_normalized ht.normalized hnorm
  have hlt := mulHigh_lt t.minus.sig e.sig
  obtain ⟨one, hone⟩ : ∃ one, one = 2 ^ (-(t.plus.exp.toInt + e.bexp + 64)).toNat := ⟨_, rfl⟩
  have hpos : 0 < one := hone ▸ Nat.two_pow_pos _
  have hle : one ≤ 2 ^ 60 := hone ▸ Nat.pow_le_pow_right two_pos (by omega)
  refine ⟨_, (scale_with_entry (hv.trans hm.symm) hm he hone).2 ?_⟩
  rw [NarrowingFails, Nat.div_eq_zero_iff]
  omega

/-! ### The number of digits -/

/-- The most digits DIGITS gives for a pattern of a precision (R186). -/
def Prec.maxDigits : Prec → Nat
  | .double => 17
  | .single => 9

/-- `M_plus` is at most `delta` and as many digits more: `c` is normalized, so the rounding of the products is small. -/
theorem mPlus_le_of_spaced {p : Prec} {t : BoundTriple} {c : DWord} {k : Working} (hk : k.InRange)
    (ht : t.Spaced (2 ^ (61 - p.desc.fb))) (hc : 2 ^ 63 ≤ c.toNat) (hM : k.mMinus = mulHigh t.minus.sig c + 1)
    (hP : k.mPlus + 1 = mulHigh t.plus.sig c) : k.mPlus ≤ 10 ^ (p.maxDigits - 1) * k.delta := by
  have hdelta := hk.delta_dist.1
  have hlow := (mulHigh_bounds t.minus.sig c).2
  have hhigh := mulHigh_bounds t.plus.sig c
  have htop : t.plus.sig.toNat * c.toNat ≤ 2 ^ 64 * c.toNat := Nat.mul_le_mul_right _ t.plus.sig.isLt.le
  rcases ht.width with hw | ⟨hw, hpow⟩
  · have hprod := Nat.mul_le_mul_right c.toNat hw
    rw [add_mul] at hprod
    cases p <;> simp only [Prec.desc, Prec.maxDigits] at * <;> omega
  · have hprod := Nat.mul_le_mul_right c.toNat hw
    have hpow' := Nat.mul_le_mul_right c.toNat hpow
    rw [add_mul] at hprod
    cases p <;> simp only [Prec.desc, Prec.maxDigits] at * <;> omega

/-- R178: when `delta` is at least `M_plus / 10^a`, the digits after `a + 1` are within `delta`. -/
theorem Working.InRange.fits_of_mPlus_le {k : Working} (hk : k.InRange) {a : Nat} (h : k.mPlus ≤ 10 ^ a * k.delta) :
    k.Fits (k.kk - (a + 1 : Nat)) := by
  obtain ⟨h1, -, hlo, -⟩ := hk.p1_bounds
  have hp1 : 10 ^ (k.kk - 1) * k.one ≤ k.mPlus := (Nat.mul_le_mul_right _ hlo).trans (Nat.div_mul_le_self ..)
  have hten := pow_mul_tenAt k (n := k.kk - (a + 1 : Nat)) (a := a) (b := k.kk - 1) (by omega)
  have hle : 10 ^ a * k.tenAt (k.kk - (a + 1 : Nat)) ≤ 10 ^ a * (scaleAt (k.kk - (a + 1 : Nat)) * k.delta) := by
    rw [hten, Nat.mul_left_comm (10 ^ a)]
    exact Nat.mul_le_mul_left _ (hp1.trans h)
  have hlt := Nat.mod_lt (scaleAt (k.kk - (a + 1 : Nat)) * k.mPlus) (k.tenAt_pos hk.one_pos (k.kk - (a + 1 : Nat)))
  exact hlt.le.trans (Nat.le_of_mul_le_mul_left hle (by positivity))

/-- R186: DIGITS has a result on every boundary triple, of at most 17 digits or 9. -/
theorem digitGen_of_boundTriple {p : Prec} {arg : DWord} {t : BoundTriple} (on : Bool)
    (h : boundTriple p.desc (fields p arg) = .ok t) :
    ∃ r, digitGen on t.v t.minus t.plus = .ok r ∧ r.digits.length ≤ p.maxDigits := by
  have hclass : ¬((fields p arg).isZero ∨ (fields p arg).isNan p.desc ∨ (fields p arg).isInf p.desc) := fun hc => by
    cases h.symm.trans (boundTriple_of_class hc)
  rw [boundClass_iff, not_or] at hclass
  have hf := fields_f_lt p arg
  have he := fields_e_lt p arg
  obtain ⟨t', ht', hb⟩ := boundTriple_of_finite hclass.1 hclass.2
  obtain rfl := Except.ok.inj (h.symm.trans ht')
  have hrange := hb.plus_exp ▸ inBoundRange_of_finite hf he hclass.1 hclass.2
  obtain ⟨c, hc⟩ := select_of_inBoundRange hrange
  have hspaced := hb.spaced hf he hclass.1
  have hg : 8 ≤ 2 ^ (61 - p.desc.fb) := by cases p <;> decide
  obtain ⟨k, hs⟩ := scale_of_spaced hg hspaced hb.v_exp hb.minus_exp hc
  obtain ⟨-, -, hk, c', hc', -, hM, hP, -, -⟩ := scale_ok hs
  obtain rfl := Except.ok.inj (hc.symm.trans hc')
  obtain ⟨-, -, hnorm, -, -⟩ := rom_nearest c (select_ok hc).1
  have hfits := hk.fits_of_mPlus_le (mPlus_le_of_spaced hk hspaced hnorm hM hP)
  have hmax : p.maxDigits - 1 + 1 = p.maxDigits ∧ p.maxDigits ≤ 32 := by cases p <;> decide
  rw [hmax.1] at hfits
  rcases digitGen_cases hs on with ⟨r, n, j, hr, hres⟩ | ⟨hnone, -⟩
  · refine ⟨r, hr, ?_⟩
    have hlen := hres.length hk
    by_contra hgt
    exact hres.not_fits_of_lt hk (by omega) hfits
  · exact absurd hfits (hnone _ (by omega) (by omega))

/-- Settles O58: `digitGen_of_boundTriple`, and the commit of DIGITS. -/
theorem boundThenDigitsNeverFaults : Obligations.BoundThenDigitsNeverFaults := by
  intro p arg t ht s rv rm rp hv hm hp
  obtain ⟨r, hr, hlen⟩ := digitGen_of_boundTriple s.prefine ht
  refine ⟨r, hr, (digitGen_inRange hr).1, ?_, exec_digits_of_ok hv hm hp hr⟩
  cases p <;> exact hlen

end Sys2Proof.Machine

/-! ## What a step does to the unit

Besides completing the command in flight, a step resets the unit, issues or overruns, or changes only what is not the
unit's: the host's operand registers and the model's own fields. Each invariant is then a matter of these cases. -/

namespace Sys2Proof.Machine

/-! ### An agent's turn, case by case (R54, R88, R200) -/

section
variable {s : State} {off : Offset} {bytes : Nat} {v : Word} {more : List HostOp}

theorem unitTurn_of_pend (h : s.pend = true) : unitTurn s = complete s := by rw [unitTurn, if_pos h]

theorem unitTurn_of_idle (h : s.pend = false) : unitTurn s = .next s := by
  rw [unitTurn, if_neg (Bool.eq_false_iff.mp h)]

theorem hostTurn_of_nil (h : s.prog = []) : hostTurn s = .next s := by rw [hostTurn, h]

theorem hostTurn_of_read (h : s.prog = .read off bytes :: more) : hostTurn s =
    if accessTaken off bytes then .next ((s.withProg more).hostRead off) else .fault .hostAccessNotTaken := by
  rw [hostTurn, h]

theorem hostTurn_of_write (h : s.prog = .write off bytes v :: more) : hostTurn s =
    if accessTaken off bytes then .next ((s.withProg more).hostWrite off v) else .fault .hostAccessNotTaken := by
  rw [hostTurn, h]

/-- R88: a `WAIT` goes on once `BUSY` is 0. -/
theorem hostTurn_of_wait (h : s.prog = .wait :: more) :
    hostTurn s = .next { s with prog := if s.pend then s.prog else more } := by
  rw [hostTurn, h]
  simp only [statusWord_busy]
  by_cases hp : s.pend = true
  · rw [if_pos hp, if_pos hp, ← h]
  · rw [if_neg hp, if_neg hp]
    rfl

theorem accessTaken_iff : accessTaken off bytes = true ↔ bytes = 4 ∧ off.toNat % 4 = 0 := by
  simp [accessTaken]

end

/-! ### The effects of a step -/

/-- What of a state is not the unit's: the host's operand registers (R23, R25) and the model's own fields. -/
structure HostSide where
  argSig : DWord
  argExp : Word
  refine : Bool
  prog : List HostOp
  sched : List Turn
  reads : List Word
  draws : Nat

/-- The state with another host side. -/
def State.withHost (s : State) (x : HostSide) : State :=
  { s with argSig := x.argSig, argExp := x.argExp, refine := x.refine, prog := x.prog, sched := x.sched,
           reads := x.reads, draws := x.draws }

/-- The host's next operation is a software reset (R230). -/
def State.AtSoftwareReset (s : State) : Prop :=
  s.turn = .host ∧ ∃ v more, s.prog = .write 0x000 4 v :: more ∧ v.getLsbD 31 = true

/-- Everything a step from `s` to `t` can do to the unit. -/
inductive StepEffect (s t : State) : Prop
  | complete (hp : s.pend = true) (h : complete s.nextTurn = .next t)
  | host (x : HostSide) (h : t = s.withHost x)
  | reset (u : State) (h : t = u.resetUnit) (hr : s.turn = .platformReset ∨ s.AtSoftwareReset)
  | overrun (x : HostSide) (v : Word) (hf : s.fault = false) (hp : s.pend = true)
    (h : t = (s.withHost x).takeFault .overrun v)
  | issue (x : HostSide) (v : Word) (hf : s.fault = false) (hp : s.pend = false) (h : t = (s.withHost x).latch v)

/-- R58: the effects of a host write. -/
theorem stepEffect_of_hostWrite {s : State} {off : Offset} {bytes : Nat} {v : Word} {more : List HostOp}
    (ht : s.turn = .host) (hprog : s.prog = .write off bytes v :: more) (ha : accessTaken off bytes = true) :
    StepEffect s ((s.nextTurn.withProg more).hostWrite off v) := by
  obtain ⟨rfl, -⟩ := accessTaken_iff.mp ha
  rcases hostWrite_cases (s.nextTurn.withProg more) off v with ⟨hm, hv, h⟩ | ⟨-, -, h⟩ | ⟨-, h⟩ | ⟨a, h⟩ | ⟨e, h⟩ | h
  · obtain rfl : (0x000 : Offset) = off := offset_of_windowMap hm
    exact .reset _ h (.inr ⟨ht, v, more, hprog, hv⟩)
  · exact .host ⟨_, _, _, _, _, _, _⟩ h
  · rw [h]
    rcases issue_cases (s.nextTurn.withProg more) v with ⟨-, h⟩ | ⟨hf, hp, h⟩ | ⟨hf, hp, h⟩
    · exact .host ⟨_, _, _, _, _, _, _⟩ h
    · exact .overrun ⟨_, _, _, _, _, _, _⟩ v hf hp h
    · exact .issue ⟨_, _, _, _, _, _, _⟩ v hf hp h
  · exact .host ⟨_, _, _, _, _, _, _⟩ h
  · exact .host ⟨_, _, _, _, _, _, _⟩ h
  · exact .host ⟨_, _, _, _, _, _, _⟩ h

/-- The effects of the host's turn. -/
theorem stepEffect_of_hostTurn {s t : State} (ht : s.turn = .host) (h : hostTurn s.nextTurn = .next t) :
    StepEffect s t := by
  rcases hostTurn_cases s.nextTurn with ⟨-, h'⟩ | ⟨off, bytes, more, -, -, h'⟩ | ⟨off, bytes, v, more, hprog, ha, h'⟩ |
    ⟨more, -, -, h'⟩ | ⟨more, -, -, h'⟩ | ⟨-, h'⟩
  case inr.inr.inr.inr.inr => cases h.symm.trans h'
  all_goals obtain rfl := Host.Outcome.next.inj (h.symm.trans h')
  · exact .host ⟨_, _, _, _, _, _, _⟩ rfl
  · obtain ⟨w, n, hread⟩ := hostRead_cases (s.nextTurn.withProg more) off
    exact .host ⟨_, _, _, _, _, _, _⟩ hread
  · exact stepEffect_of_hostWrite ht hprog ha
  · exact .host ⟨_, _, _, _, _, _, _⟩ rfl
  · exact .host ⟨_, _, _, _, _, _, _⟩ rfl

/-- Every step has one of the effects. -/
theorem stepEffect_of_step {s t : State} (h : step s = .next t) : StepEffect s t := by
  rcases step_cases s with ⟨-, hp, h'⟩ | ⟨-, -, h'⟩ | ⟨ht, h'⟩ | ⟨ht, h'⟩
  · exact .complete hp (h'.symm.trans h)
  · obtain rfl := Host.Outcome.next.inj (h.symm.trans h')
    exact .host ⟨_, _, _, _, _, _, _⟩ rfl
  · exact stepEffect_of_hostTurn ht (h'.symm.trans h)
  · obtain rfl := Host.Outcome.next.inj (h.symm.trans h')
    exact .reset _ rfl (.inl ht)

/-! ### The status invariant (R27, R29, R201) -/

/-- R201: the causes of a command are causes of a fault, and `ROUND_UNDERFLOW` is none of them. -/
theorem raisable_is_cause (i : Instr) : ∀ c ∈ raisable i, c ≠ .none ∧ c ≠ .roundUnderflow := by
  cases i with
  | nop | ldf | fsub | fmul | fnorm | fnormto | cpow | fclassD | fclassS | digits => simp [raisable]
  | boundD v m p | boundS v m p =>
    rw [raisable]
    split <;> simp

theorem statusOk_of_fault {s : State} (hf : s.fault = true) (hp : s.pend = false) (hc : s.cause ≠ .none)
    (hr : s.cause ≠ .roundUnderflow) : s.StatusOk := by
  simp [State.StatusOk, hf, hp, hc, hr]

theorem statusOk_resetUnit (u : State) : u.resetUnit.StatusOk := ⟨nofun, fun _ => ⟨rfl, rfl⟩, nofun, nofun⟩

/-- R202, R203: a command that commits keeps the status, and one that faults has a cause. -/
theorem statusOk_of_exec {i : Instr} {s t : State} (hs : s.StatusOk) (h : exec i s = .next t) : t.StatusOk := by
  rcases commitsOrFaults i s with ⟨t', ht, hp, hf, hc, hw⟩ | ⟨c, hc, ht⟩
  · obtain rfl := Host.Outcome.next.inj (h.symm.trans ht)
    obtain ⟨-, hidle, hhalt, hround⟩ := hs
    rw [State.StatusOk, hp, hf, hc, hw]
    exact ⟨by simp, hidle, hhalt, hround⟩
  · obtain rfl := Host.Outcome.next.inj (h.symm.trans ht)
    obtain ⟨hnone, hround⟩ := raisable_is_cause i c hc
    exact statusOk_of_fault rfl rfl hnone hround

theorem statusOk_of_complete {s t : State} (hs : s.StatusOk) (h : complete s = .next t) : t.StatusOk := by
  rcases complete_cases s with ⟨i, -, h'⟩ | ⟨-, h'⟩
  · exact statusOk_of_exec hs (h'.symm.trans h)
  · obtain rfl := Host.Outcome.next.inj (h.symm.trans h')
    exact statusOk_of_fault rfl rfl nofun nofun

/-- Settles O23: each effect of a step, in turn. -/
theorem stepKeepsStatusInvariant : Obligations.StepKeepsStatusInvariant := by
  intro s t hs h
  cases stepEffect_of_step h with
  | complete hp h => exact statusOk_of_complete (s := s.nextTurn) hs h
  | host x h => exact h ▸ hs
  | reset u h hr => exact h ▸ statusOk_resetUnit u
  | overrun x v hf hp h => exact h ▸ statusOk_of_fault rfl rfl nofun nofun
  | issue x v hf hp h =>
    obtain ⟨-, hidle, hhalt, hround⟩ := hs
    exact h ▸ ⟨fun hboth => Bool.false_ne_true (hf.symm.trans hboth.2), hidle, hhalt, hround⟩

end Sys2Proof.Machine

/-! ## The invariants of the result registers (R30 to R35) -/

namespace Sys2Proof.Machine

/-! ### What the sources hold, one by one (R206) -/

theorem holds_two {s : State} {a b : FReg} (h : ∀ j ∈ [a, b], ∃ x, s.Holds j x) :
    (∃ x, s.Holds a x) ∧ ∃ y, s.Holds b y := by
  simpa using h

theorem holds_three {s : State} {a b c : FReg} (h : ∀ j ∈ [a, b, c], ∃ x, s.Holds j x) :
    (∃ x, s.Holds a x) ∧ (∃ y, s.Holds b y) ∧ ∃ z, s.Holds c z := by
  simpa using h

/-! ### What DIGITS and CPOW can write -/

/-- Everything DIGITS can do: write a result of the digit generator, or take the fault entry. -/
theorem exec_digits_cases {s t : State} {v m p : FReg} (h : exec (.digits v m p) s = .next t) :
    (∃ on x mm mp r, digitGen on x mm mp = .ok r ∧ t = (s.writeDigits r).commit) ∨ ∃ c, t = s.faulted c := by
  by_cases hinv : ∃ j ∈ sources (.digits v m p), s.f[j].valid = false
  · exact .inr ⟨.uninit, Host.Outcome.next.inj (h.symm.trans (faults_uninit_of_invalid_source hinv))⟩
  obtain ⟨⟨x, hv⟩, ⟨mm, hm⟩, mp, hp⟩ := holds_three (holds_of_no_invalid_source hinv)
  cases hg : digitGen s.prefine x mm mp with
  | ok r => exact .inl ⟨_, x, mm, mp, r, hg, Host.Outcome.next.inj (h.symm.trans (exec_digits_of_ok hv hm hp hg))⟩
  | error c => exact .inr ⟨c, Host.Outcome.next.inj (h.symm.trans (faults_digits_of_error hv hm hp hg))⟩

/-- Everything CPOW can do: write an entry of the ROM, or take the fault entry. -/
theorem exec_cpow_cases {s t : State} {d a : FReg} (h : exec (.cpow d a) s = .next t) :
    (∃ r ∈ rom, t.cpk = BitVec.ofInt 32 r.dexp) ∨ t.cpk = s.cpk := by
  rcases readF_cases s a with ⟨x, ha, -⟩ | ⟨hv, -⟩
  · cases hsel : select x.exp.toInt with
    | ok r =>
      obtain rfl := Host.Outcome.next.inj (h.symm.trans (exec_cpow_of_select ha hsel))
      exact .inl ⟨r, (select_ok hsel).1, rfl⟩
    | error c =>
      have hexec : exec (.cpow d a) s = _ := execCpow_of_holds ha
      rw [hsel] at hexec
      obtain rfl := Host.Outcome.next.inj (h.symm.trans hexec)
      exact .inr rfl
  · obtain rfl := Host.Outcome.next.inj (h.symm.trans (execCpow_of_invalid hv))
    exact .inr rfl

/-! #### The digit buffer -/

section
variable {r : Decimal}

theorem writeDigits_dlen (s : State) (h : r.digits.length ≤ 32) : (s.writeDigits r).dlen.toNat = r.digits.length := by
  rw [State.writeDigits_dlen, BitVec.toNat_ofNat]
  omega

/-- R33: the byte of a digit. -/
theorem writeDigits_dbuf_toNat (s : State) {i : Fin 32} {d : Nat} (hd : r.digits[i.val]? = some d) (h9 : d ≤ 9) :
    (s.writeDigits r).dbuf[i].toNat = 0x30 + d := by
  rw [State.writeDigits_dbuf, digitBytes_get, hd, Option.elim_some, BitVec.toNat_ofNat]
  omega

theorem writeDigits_dbuf_past (s : State) {i : Fin 32} (h : r.digits.length ≤ i.val) :
    (s.writeDigits r).dbuf[i] = 0 := by
  rw [State.writeDigits_dbuf, digitBytes_get, List.getElem?_eq_none h]
  rfl

/-- R182, R183, R185: a result of the digit generator, written, meets the invariant. -/
theorem digitsOk_writeDigits (s : State) {on : Bool} {v mm mp : Fp} (h : digitGen on v mm mp = .ok r) :
    (s.writeDigits r).DigitsOk := by
  obtain ⟨h1, h32, h9, ⟨first, hfirst, hf1⟩, ⟨last, hlast, hl1⟩, hlo, hhi⟩ := digitGen_inRange h
  have hexp : (s.writeDigits r).dexp.toInt = r.dexp := toInt_ofInt_of_fits (by omega) (by omega)
  have hdigit {i : Fin 32} (hi : i.val < r.digits.length) :
      ∃ d, r.digits[i.val]? = some d ∧ (s.writeDigits r).dbuf[i].toNat = 0x30 + d ∧ d ≤ 9 := by
    have hd := h9 _ (List.getElem_mem hi)
    exact ⟨_, List.getElem?_eq_getElem hi, writeDigits_dbuf_toNat s (List.getElem?_eq_getElem hi) hd, hd⟩
  rw [State.DigitsOk, writeDigits_dlen s h32, hexp]
  refine ⟨h32, fun i hi => ?_, fun i hi => writeDigits_dbuf_past s hi, fun i hi hends => ?_, hlo, hhi⟩
  · obtain ⟨d, -, hd, hd9⟩ := hdigit hi
    omega
  · obtain ⟨d, hget, hd, -⟩ := hdigit hi
    have hpos : 1 ≤ d := by
      rcases hends with h0 | hend
      · rw [h0, ← List.head?_eq_getElem?, hfirst] at hget
        exact Option.some.inj hget ▸ hf1
      · rw [show i.val = r.digits.length - 1 by omega, ← List.getLast?_eq_getElem?, hlast] at hget
        exact Option.some.inj hget ▸ hl1
    rintro h0
    rw [h0] at hd
    change 0x30 = _ at hd
    omega

end

theorem digitsOk_of_exec {i : Instr} {s t : State} (hs : s.DigitsOk) (h : exec i s = .next t) : t.DigitsOk := by
  cases hw : writesDigits i with
  | true =>
    obtain ⟨v, m, p, rfl⟩ : ∃ v m p, i = .digits v m p := by cases i <;> simp_all [writesDigits]
    rcases exec_digits_cases h with ⟨on, x, mm, mp, r, hr, rfl⟩ | ⟨c, rfl⟩
    · exact digitsOk_writeDigits s hr
    · exact hs
  | false =>
    rcases exec_cases i s with ⟨s', hw', h'⟩ | ⟨c, h'⟩
    · obtain rfl := Host.Outcome.next.inj (h.symm.trans h')
      obtain ⟨hb, hl, he⟩ := hw'.digits hw
      rw [State.DigitsOk] at hs ⊢
      rwa [State.commit_dbuf, State.commit_dlen, State.commit_dexp, hb, hl, he]
    · obtain rfl := Host.Outcome.next.inj (h.symm.trans h')
      exact hs

/-! #### `CLASS`, `CSIG` and `CPK` -/

/-- R30: the mask of the reserved bits of `CLASS` covers three fields. -/
theorem and_classReserved_eq_zero {w : Word} (h27 : w.extractLsb' 27 5 = 0) (h9 : w.extractLsb' 9 7 = 0)
    (h5 : w.extractLsb' 5 3 = 0) : w &&& 0xF800FEE0 = 0 := by
  have hmask : ∀ i < 32, (0xF800FEE0 : Word).getLsbD i = decide (27 ≤ i ∨ (9 ≤ i ∧ i < 16) ∨ (5 ≤ i ∧ i < 8)) := by
    decide
  have hzero {i a n : Nat} (h : w.extractLsb' a n = 0) (ha : a ≤ i) (hn : i < a + n) : w.getLsbD i = false :=
    (getLsbD_eq_of_extractLsb'_eq (v := 0) (by rw [h]; simp) ha hn).trans (by simp)
  refine BitVec.eq_of_getLsbD_eq fun i hi => ?_
  rw [BitVec.getLsbD_and, hmask i hi]
  by_cases hi' : 27 ≤ i ∨ (9 ≤ i ∧ i < 16) ∨ (5 ≤ i ∧ i < 8)
  · have hw : w.getLsbD i = false := by
      rcases hi' with h | ⟨h, h'⟩ | ⟨h, h'⟩
      exacts [hzero h27 h hi, hzero h9 h h', hzero h5 h h']
    simp [hw]
  · simp [decide_eq_false hi']

/-- R30, R31, R153: what FCLASS writes meets the invariant. -/
theorem fclass_ok (p : Prec) (s : State) : (fclass p s).cls &&& 0xF800FEE0 = 0 ∧ (fclass p s).csig.toNat < 2 ^ 52 := by
  obtain ⟨h27, h9, h5⟩ := classWord_reserved p (fields p s.pargSig)
  have hf := fields_f_lt p s.pargSig
  have hfb : 2 ^ p.desc.fb ≤ 2 ^ 52 := Nat.pow_le_pow_right two_pos p.fb_le
  refine ⟨and_classReserved_eq_zero h27 h9 h5, ?_⟩
  rw [fclass, State.writeClass_csig, BitVec.toNat_ofNat]
  omega

theorem exec_keeps_class {i : Instr} {s t : State} (h : exec i s = .next t)
    (hs : s.cls &&& 0xF800FEE0 = 0 ∧ s.csig.toNat < 2 ^ 52) : t.cls &&& 0xF800FEE0 = 0 ∧ t.csig.toNat < 2 ^ 52 := by
  cases hw : writesClass i with
  | true =>
    obtain ⟨p, hexec⟩ : ∃ p, exec i s = .next (fclass p s).commit := by
      cases i with
      | fclassD => exact ⟨.double, rfl⟩
      | fclassS => exact ⟨.single, rfl⟩
      | nop | ldf | fsub | fmul | fnorm | fnormto | cpow | boundD | boundS | digits => cases hw
    obtain rfl := Host.Outcome.next.inj (h.symm.trans hexec)
    exact fclass_ok p s
  | false =>
    rcases exec_cases i s with ⟨s', hw', h'⟩ | ⟨c, h'⟩
    · obtain rfl := Host.Outcome.next.inj (h.symm.trans h')
      obtain ⟨hc, hg⟩ := hw'.cls hw
      rwa [State.commit_cls, State.commit_csig, hc, hg]
    · obtain rfl := Host.Outcome.next.inj (h.symm.trans h')
      exact hs

theorem exec_keeps_cpk {i : Instr} {s t : State} (h : exec i s = .next t)
    (hs : s.cpk = 0 ∨ ∃ r ∈ rom, s.cpk = BitVec.ofInt 32 r.dexp) :
    t.cpk = 0 ∨ ∃ r ∈ rom, t.cpk = BitVec.ofInt 32 r.dexp := by
  cases hw : writesCpk i with
  | true =>
    obtain ⟨d, a, rfl⟩ : ∃ d a, i = .cpow d a := by cases i <;> simp_all [writesCpk]
    rcases exec_cpow_cases h with hr | ht
    · exact .inr hr
    · rwa [ht]
  | false =>
    rcases exec_cases i s with ⟨s', hw', h'⟩ | ⟨c, h'⟩
    · obtain rfl := Host.Outcome.next.inj (h.symm.trans h')
      rwa [State.commit_cpk, hw'.cpk hw]
    · obtain rfl := Host.Outcome.next.inj (h.symm.trans h')
      exact hs

theorem classOk_of_exec {i : Instr} {s t : State} (hs : s.ClassOk) (h : exec i s = .next t) : t.ClassOk := by
  obtain ⟨hcls, hcsig, hcpk⟩ := hs
  obtain ⟨hcls', hcsig'⟩ := exec_keeps_class h ⟨hcls, hcsig⟩
  exact ⟨hcls', hcsig', exec_keeps_cpk h hcpk⟩

/-! #### Every step -/

theorem resultsOk_of_complete {s t : State} (hd : s.DigitsOk) (hc : s.ClassOk) (h : complete s = .next t) :
    t.DigitsOk ∧ t.ClassOk := by
  rcases complete_cases s with ⟨i, -, h'⟩ | ⟨-, h'⟩
  · exact ⟨digitsOk_of_exec hd (h'.symm.trans h), classOk_of_exec hc (h'.symm.trans h)⟩
  · obtain rfl := Host.Outcome.next.inj (h.symm.trans h')
    exact ⟨hd, hc⟩

theorem digitsOk_resetUnit (u : State) : u.resetUnit.DigitsOk :=
  ⟨Nat.zero_le _, fun i hi => absurd hi (Nat.not_lt_zero _), fun i _ => resetUnit_dbuf_get u i,
    fun i hi => absurd hi (Nat.not_lt_zero _), (by decide : -355 ≤ (0 : Word).toInt),
    (by decide : (0 : Word).toInt ≤ 309)⟩

theorem classOk_resetUnit (u : State) : u.resetUnit.ClassOk := 
  ⟨(by decide : (0 : Word) &&& 0xF800FEE0 = 0), (by decide : (0 : DWord).toNat < 2 ^ 52), .inl rfl⟩

/-- Settles O24: each effect of a step, in turn. -/
theorem stepKeepsResultInvariants : Obligations.StepKeepsResultInvariants := by
  intro s t hd hc h
  cases stepEffect_of_step h with
  | complete hp h => exact resultsOk_of_complete (s := s.nextTurn) hd hc h
  | reset u h hr => exact h ▸ ⟨digitsOk_resetUnit u, classOk_resetUnit u⟩
  | host x h => exact h ▸ ⟨hd, hc⟩
  | overrun x v hf hp h => exact h ▸ ⟨hd, hc⟩
  | issue x v hf hp h => exact h ▸ ⟨hd, hc⟩

/-- Settles O25: the first reset is a reset of the unit. -/
theorem resetMeetsInvariants : Obligations.ResetMeetsInvariants :=
  ⟨statusOk_resetUnit State.reset, digitsOk_resetUnit State.reset, classOk_resetUnit State.reset⟩

end Sys2Proof.Machine

/-! ## Invalid contents are unobservable (R21, R37)

While a command is in flight, blanking touches only the contents of invalid registers, which no source read answers
from; on an idle unit it also touches the latch, which only the next issue writes. -/

namespace Sys2Proof.Machine

/-! ### Blanking -/

/-- A register as blanking leaves it. -/
def FpReg.blank (r : FpReg) : FpReg := if r.valid then r else ⟨0, 0, false⟩

theorem FpReg.blank_of_valid {r : FpReg} (h : r.valid = true) : r.blank = r := if_pos h

@[simp] theorem FpReg.blank_valid (r : FpReg) : r.blank.valid = r.valid := by
  unfold FpReg.blank
  split
  · rfl
  · next h => exact (Bool.eq_false_iff.mpr h).symm

@[simp] theorem FpReg.blank_blank (r : FpReg) : r.blank.blank = r.blank := by
  cases h : r.valid with
  | true => rw [FpReg.blank_of_valid h, FpReg.blank_of_valid h]
  | false => simp [FpReg.blank, h]

theorem map_blank_blank (f : Vector FpReg 8) : (f.map FpReg.blank).map FpReg.blank = f.map FpReg.blank := by
  rw [Vector.map_map]
  exact Vector.map_congr_left fun r _ => r.blank_blank

/-- The state with other registers. -/
def State.withF (s : State) (f : Vector FpReg 8) : State := { s with f := f }

/-- The state with its registers blanked. -/
def State.blankedF (s : State) : State := s.withF (s.f.map FpReg.blank)

section
variable {s : State}

/-- While a command is in flight only the registers are blanked. -/
theorem blanked_of_pend (h : s.pend = true) : s.blanked = s.blankedF := by
  unfold State.blanked State.blankedF State.withF
  simp only [h, if_true, Bool.true_and]
  rfl

/-- Of the registers only what blanking leaves of them counts. -/
theorem blanked_withF_congr (s : State) {f g : Vector FpReg 8} (h : f.map FpReg.blank = g.map FpReg.blank) :
    (s.withF f).blanked = (s.withF g).blanked :=
  congrArg (fun f' => ({ s.blanked with f := f' } : State)) h

/-- On an idle unit the latch is blanked too. -/
theorem blanked_of_idle (h : s.pend = false) : s.blanked = { s.blankedF with
    pcmd := 0, pargSig := 0, pargExp := 0, prefine := false } := by
  unfold State.blanked State.blankedF State.withF
  simp only [h, Bool.false_eq_true, if_false, Bool.false_and]
  rfl

theorem State.blankedF_blanked (s : State) : s.blankedF.blanked = s.blanked :=
  blanked_withF_congr s (map_blank_blank s.f)

theorem blanked_blanked (s : State) : s.blanked.blanked = s.blanked := by
  cases h : s.pend with
  | true =>
    rw [blanked_of_pend h, s.blankedF_blanked, blanked_of_pend h]
  | false => rw [blanked_of_idle (s := s.blanked) h, blanked_of_idle h, State.blankedF, State.withF, State.blankedF,
      State.withF, map_blank_blank]

end

/-! ### Completion -/

section
variable {s : State} {f : Vector FpReg 8}

/-- Writes to registers, after blanking. -/
theorem map_blank_set (f : Vector FpReg 8) (d : FReg) (r : FpReg) :
    ((f.map FpReg.blank).set d r).map FpReg.blank = (f.set d r).map FpReg.blank := by
  rw [Vector.map_set, Vector.map_set, map_blank_blank]

/-- A source of a state, blanked, holds what it held. -/
theorem holds_blankedF {j : FReg} {x : Fp} (h : s.Holds j x) : s.blankedF.Holds j x := by
  have hj : s.f[j] = ⟨x.sig, x.exp, true⟩ := h
  change (s.f.map FpReg.blank)[j] = _
  rw [Fin.getElem_fin, Vector.getElem_map, ← Fin.getElem_fin, hj]
  rfl

theorem valid_blankedF (s : State) (j : FReg) : s.blankedF.f[j].valid = s.f[j].valid := by
  change (s.f.map FpReg.blank)[j].valid = _
  rw [Fin.getElem_fin, Vector.getElem_map, FpReg.blank_valid]
  rfl

/-- A command that writes the answer `q` of a function ends the same, blanked, when its writes do. -/
theorem exec_blanked_of_finish {i : Instr} {α : Type} {q : Except Cause α} {w w' : α → State}
    (he : exec i s = finish s (q.map w))
    (he' : exec i s.blankedF = finish s.blankedF (q.map w'))
    (hw : ∀ x, (w' x).commit.blanked = (w x).commit.blanked) :
    mapNext State.blanked (exec i s.blankedF) = mapNext State.blanked (exec i s) := by
  rw [he, he']
  cases q with
  | ok x => exact congrArg Host.Outcome.next (hw x)
  | error c => exact congrArg Host.Outcome.next (s.faulted c).blankedF_blanked

/-- A write of one register. -/
theorem commit_writeF_blanked (s : State) (d : FReg) (x : Fp) :
    (s.blankedF.writeF d x).commit.blanked = (s.writeF d x).commit.blanked :=
  blanked_withF_congr (s.commit) (map_blank_set s.f d _)

theorem commit_writeTriple_blanked (s : State) (v m q : FReg) (t : BoundTriple) :
    (s.blankedF.writeTriple v m q t).commit.blanked = (s.writeTriple v m q t).commit.blanked := by
  refine blanked_withF_congr s.commit ?_
  change ((((s.f.map FpReg.blank).set v _).set m _).set q _).map FpReg.blank = (((s.f.set v _).set m _).set q _).map _
  simp only [Vector.map_set, map_blank_blank]

/-- BOUND of either precision uses no `Fp` register. -/
theorem exec_blanked_of_bound {i : Instr} {p : Prec} {v m q : FReg} (s : State)
    (he : ∀ s, exec i s = finish s (bound p v m q s)) :
    mapNext State.blanked (exec i s.blankedF) = mapNext State.blanked (exec i s) := by
  cases hd : pairwiseDistinct v m q with
  | true =>
    simp only [bound_of_distinct p hd] at he
    exact exec_blanked_of_finish (he s) (he _) (commit_writeTriple_blanked s v m q)
  | false =>
    simp only [bound_of_not_distinct p hd] at he
    rw [he, he]
    exact congrArg Host.Outcome.next (s.faulted .illegal).blankedF_blanked

/-- Every command ends the same, blanked, on the blanked registers. -/
theorem exec_blanked (i : Instr) (s : State) :
    mapNext State.blanked (exec i s.blankedF) = mapNext State.blanked (exec i s) := by
  by_cases hinv : ∃ j ∈ sources i, s.f[j].valid = false
  · have hs : Faults i s .uninit := faults_uninit_of_invalid_source hinv
    have hb : Faults i s.blankedF .uninit :=
      faults_uninit_of_invalid_source (by simpa only [valid_blankedF] using hinv)
    rw [hs, hb]
    exact congrArg Host.Outcome.next (s.faulted .uninit).blankedF_blanked
  have hold := holds_of_no_invalid_source hinv
  cases i with
  | nop => exact congrArg Host.Outcome.next s.commit.blankedF_blanked
  | ldf d => exact congrArg Host.Outcome.next (commit_writeF_blanked s d s.latchedArg)
  | fclassD => exact congrArg Host.Outcome.next (fclass .double s).commit.blankedF_blanked
  | fclassS => exact congrArg Host.Outcome.next (fclass .single s).commit.blankedF_blanked
  | boundD | boundS => exact exec_blanked_of_bound s fun _ => rfl
  | fsub d j k =>
    obtain ⟨⟨x, hj⟩, y, hk⟩ := holds_two hold
    exact exec_blanked_of_finish (execFsub_of_holds hj hk)
      (execFsub_of_holds (holds_blankedF hj) (holds_blankedF hk)) (commit_writeF_blanked s d)
  | fmul d j k =>
    obtain ⟨⟨x, hj⟩, y, hk⟩ := holds_two hold
    exact exec_blanked_of_finish (execFmul_of_holds hj hk)
      (execFmul_of_holds (holds_blankedF hj) (holds_blankedF hk)) (commit_writeF_blanked s d)
  | fnorm d j =>
    obtain ⟨x, hj⟩ := hold j List.mem_cons_self
    exact exec_blanked_of_finish (execFnorm_of_holds hj) (execFnorm_of_holds (holds_blankedF hj))
      (commit_writeF_blanked s d)
  | fnormto d j k =>
    obtain ⟨⟨x, hj⟩, y, hk⟩ := holds_two hold
    exact exec_blanked_of_finish (execFnormto_of_holds hj hk)
      (execFnormto_of_holds (holds_blankedF hj) (holds_blankedF hk)) (commit_writeF_blanked s d)
  | cpow d j =>
    obtain ⟨x, hj⟩ := hold j List.mem_cons_self
    exact exec_blanked_of_finish (execCpow_of_holds hj) (execCpow_of_holds (holds_blankedF hj))
      fun r => blanked_withF_congr (s.writeCpk r.dexp).commit (map_blank_set s.f d _)
  | digits v m p =>
    obtain ⟨⟨x, hv⟩, ⟨y, hm⟩, z, hp⟩ := holds_three hold
    exact exec_blanked_of_finish (execDigits_of_holds hv hm hp) (execDigits_of_holds (holds_blankedF hv)
      (holds_blankedF hm) (holds_blankedF hp)) fun r => (s.writeDigits r).commit.blankedF_blanked

theorem complete_blanked (hp : s.pend = true) :
    mapNext State.blanked (complete s.blanked) = mapNext State.blanked (complete s) := by
  rw [blanked_of_pend hp]
  cases hd : decode s.pcmd with
  | ok i => rw [complete_of_ok hd, complete_of_ok (s := s.blankedF) hd, exec_blanked]
  | error e =>
    rw [complete_of_error hd, complete_of_error (s := s.blankedF) hd]
    exact congrArg Host.Outcome.next (s.faulted .illegal).blankedF_blanked

end

theorem unitTurn_blanked (s : State) :
    mapNext State.blanked (unitTurn s.blanked) = mapNext State.blanked (unitTurn s) := by
  cases hp : s.pend with
  | true => rw [unitTurn_of_pend hp, unitTurn_of_pend (s := s.blanked) hp, complete_blanked hp]
  | false =>
    rw [unitTurn_of_idle hp, unitTurn_of_idle (s := s.blanked) hp]
    exact congrArg Host.Outcome.next (blanked_blanked s)

/-! ### The host's turn -/

section
variable (s : State) (off : Offset) (v : Word)

/-- R56: an invalid register is shown as zeros, blanked or not. -/
theorem shownF_blanked (j : FReg) : s.blanked.shownF j = s.shownF j := by
  have hj : s.blanked.f[j] = s.f[j].blank := by
    change (s.f.map FpReg.blank)[j] = _
    rw [Fin.getElem_fin, Vector.getElem_map]
    rfl
  cases h : s.f[j].valid with
  | true => rw [State.shownF, State.shownF, hj, FpReg.blank_of_valid h]
  | false => rw [shownF_of_invalid h, shownF_of_invalid (by rw [hj, FpReg.blank_valid, h])]

/-- R56: the window shows nothing of what is blanked. -/
theorem readReg_blanked (r : WinReg) : s.blanked.readReg r = s.readReg r := by
  cases r with
  | fSigLo j | fSigHi j | fExp j => rw [State.readReg, State.readReg, shownF_blanked]
  | fValid j =>
    have hj : s.blanked.f[j].valid = s.f[j].valid := valid_blankedF s j
    rw [State.readReg, State.readReg, hj]
  | ctrl | status | fcmd | cmd | argSigLo | argSigHi | argExp | cls | csigLo | csigHi | cpk | dlen | dexp | dbuf |
    romSigLo | romSigHi | romBexp | romDexp => rfl

theorem readWord_blanked : s.blanked.readWord off = s.readWord off := by
  unfold State.readWord
  split
  · exact readReg_blanked s _
  · rfl

/-- R241: what races is what the command in flight may write, and its word is not blanked. -/
theorem racingAt_blanked : s.blanked.racingAt off = s.racingAt off := by
  cases h : s.pend with
  | true => rw [blanked_of_pend h]; rfl
  | false => rw [racingAt_of_idle off h, racingAt_of_idle (s := s.blanked) off h]

theorem hostRead_blanked : (s.blanked.hostRead off).blanked = (s.hostRead off).blanked := by
  cases h : s.racingAt off with
  | true =>
    rw [hostRead_of_racing h, hostRead_of_racing (by rw [racingAt_blanked, h])]
    exact blanked_blanked { s with reads := Config.freeRead s.draws :: s.reads, draws := s.draws + 1 }
  | false =>
    rw [hostRead_of_not_racing h, hostRead_of_not_racing (by rw [racingAt_blanked, h]), readWord_blanked]
    exact blanked_blanked { s with reads := s.readWord off :: s.reads }

/-- R59: an issue fills the latch, and a fault empties it. -/
theorem issue_blanked : (s.blanked.issue v).blanked = (s.issue v).blanked := by
  rcases issue_cases s v with ⟨hf, h⟩ | ⟨hf, hp, h⟩ | ⟨hf, hp, h⟩
  · rw [h, issue_of_halted (s := s.blanked) v hf, blanked_blanked]
  · rw [h, issue_of_busy (s := s.blanked) v hf hp, blanked_of_pend hp]
    exact (s.takeFault .overrun v).blankedF_blanked
  · rw [h, issue_of_idle (s := s.blanked) v hf hp]
    exact (s.latch v).blankedF_blanked

theorem hostWrite_blanked : (s.blanked.hostWrite off v).blanked = (s.hostWrite off v).blanked := by
  unfold State.hostWrite
  split
  · cases hv : v.getLsbD 31 with
    | true => rw [writeCtrl_of_srst _ hv, writeCtrl_of_srst _ hv]; rfl
    | false =>
      rw [writeCtrl_of_not_srst _ hv, writeCtrl_of_not_srst _ hv]
      exact blanked_blanked { s with refine := v.getLsbD 0 }
  · exact issue_blanked s v
  · exact blanked_blanked { s with argSig := setLo s.argSig v }
  · exact blanked_blanked { s with argSig := setHi s.argSig v }
  · exact blanked_blanked { s with argExp := v }
  · exact blanked_blanked s

end

theorem hostTurn_blanked (s : State) :
    mapNext State.blanked (hostTurn s.blanked) = mapNext State.blanked (hostTurn s) := by
  rcases hp : s.prog with _ | ⟨⟨off, bytes⟩ | ⟨off, bytes, v⟩ | _, more⟩
  · rw [hostTurn_of_nil hp, hostTurn_of_nil (s := s.blanked) hp]
    exact congrArg Host.Outcome.next (blanked_blanked s)
  · rw [hostTurn_of_read hp, hostTurn_of_read (s := s.blanked) hp]
    split
    · exact congrArg Host.Outcome.next (hostRead_blanked (s.withProg more) off)
    · rfl
  · rw [hostTurn_of_write hp, hostTurn_of_write (s := s.blanked) hp]
    split
    · exact congrArg Host.Outcome.next (hostWrite_blanked (s.withProg more) off v)
    · rfl
  · rw [hostTurn_of_wait hp, hostTurn_of_wait (s := s.blanked) hp]
    exact congrArg Host.Outcome.next (blanked_blanked { s with prog := if s.pend then s.prog else more })

/-- Settles O26: the turn is the same, and each agent's move is. -/
theorem invalidContentsAreUnobservable : Obligations.InvalidContentsAreUnobservable := by
  intro s
  change mapNext State.blanked (agentTurn s.turn s.nextTurn.blanked) =
    mapNext State.blanked (agentTurn s.turn s.nextTurn)
  cases s.turn with
  | unit => exact unitTurn_blanked s.nextTurn
  | host => exact hostTurn_blanked s.nextTurn
  | platformReset => rfl

end Sys2Proof.Machine

/-! ## The window (R52 to R58, R64, R241)

Each listed word is found at its own offset, so a host access at that offset reads the word's contents, or races on
it. -/

namespace Sys2Proof.Machine

/-! ### The map (R52) -/

theorem windowMap_offset (r : WinReg) : windowMap r.offset = some r := by
  cases r with
  | ctrl | status | fcmd | cmd | argSigLo | argSigHi | argExp | cls | csigLo | csigHi | cpk | dlen | dexp => decide
  | fSigLo i | fSigHi i | fExp i | fValid i => revert i; decide
  | dbuf j => revert j; decide
  | romSigLo n | romSigHi n | romBexp n | romDexp n => revert n; decide +kernel

theorem offset_aligned (r : WinReg) : r.offset.toNat % 4 = 0 := by
  cases r with
  | ctrl | status | fcmd | cmd | argSigLo | argSigHi | argExp | cls | csigLo | csigHi | cpk | dlen | dexp => decide
  | fSigLo i | fSigHi i | fExp i | fValid i | dbuf i | romSigLo i | romSigHi i | romBexp i | romDexp i =>
    simp only [WinReg.offset, BitVec.toNat_ofNat]
    omega

/-- Settles O27: the map forward and backward. -/
theorem windowMapIsOneToOne : Obligations.WindowMapIsOneToOne :=
  ⟨fun r => ⟨windowMap_offset r, offset_aligned r⟩, fun _ _ => offset_of_windowMap⟩

theorem readWord_offset (s : State) (r : WinReg) : s.readWord r.offset = s.readReg r := by
  rw [State.readWord, windowMap_offset]

theorem racingAt_offset (s : State) (r : WinReg) : s.racingAt r.offset = s.racing r := by
  rw [State.racingAt, windowMap_offset]

/-! ### `CTRL` and `STATUS` (R25, R27) -/

theorem ctrlWord_fields (s : State) : s.ctrlWord.getLsbD 0 = s.refine ∧ s.ctrlWord.extractLsb' 1 31 = 0 := by
  unfold State.ctrlWord
  refine ⟨?_, BitVec.extractLsb'_append_eq_left⟩
  simp only [BitVec.getLsbD_append, flag, BitVec.getLsbD_ofBool]
  simp

theorem statusWord_fields (s : State) : s.statusWord.getLsbD 1 = s.fault ∧ s.statusWord.extractLsb' 2 6 = 0 ∧
    s.statusWord.extractLsb' 8 4 = s.cause.code ∧ s.statusWord.extractLsb' 12 20 = 0 := by
  unfold State.statusWord
  refine ⟨?_, ?_, ?_, ?_⟩
  · simp only [BitVec.getLsbD_append, flag, BitVec.getLsbD_ofBool]
    simp
  · iterate 2 rw [BitVec.extractLsb'_append_eq_of_le (by decide)]
    exact BitVec.extractLsb'_append_eq_right
  · iterate 3 rw [BitVec.extractLsb'_append_eq_of_le (by decide)]
    exact BitVec.extractLsb'_append_eq_right
  · iterate 3 rw [BitVec.extractLsb'_append_eq_of_le (by decide)]
    exact BitVec.extractLsb'_append_eq_left

/-- Settles O28: the fields of the two words, and the codes in R201's order. -/
theorem statusAndControlWords : Obligations.StatusAndControlWords := by
  refine ⟨fun s => ?_, rfl⟩
  obtain ⟨hrefine, hctrl⟩ := ctrlWord_fields s
  exact ⟨readWord_offset s .ctrl, hrefine, hctrl, readWord_offset s .status, statusWord_busy s, statusWord_fields s⟩

/-! ### What the window shows (R55 to R57) -/

theorem hiWord_append_loWord (x : DWord) : hiWord x ++ loWord x = x := by
  apply BitVec.eq_of_getLsbD_eq
  intro i hi
  rw [BitVec.getLsbD_append, hiWord, loWord, BitVec.getLsbD_extractLsb', BitVec.getLsbD_extractLsb']
  by_cases h : i < 32
  · simp [h]
  · simp [h, show i - 32 < 32 by omega, show 32 + (i - 32) = i by omega]

/-- R56: an `Fp` register as the window shows it. -/
theorem shownF_eq (s : State) (i : FReg) : (s.shownF i).sig = (if s.f[i].valid then s.f[i].sig else 0) ∧
    (s.shownF i).exp = (if s.f[i].valid then s.f[i].exp else 0) := by
  unfold State.shownF
  split
  · exact ⟨rfl, rfl⟩
  · exact ⟨rfl, rfl⟩

/-- R33, R55: byte `b` of a digit-buffer word. -/
theorem dbufWord_byte (s : State) (j : Fin 8) (b : Fin 4) {n : Fin 32} (h : n.val = 4 * j.val + b.val) :
    (s.dbufWord j).extractLsb' (8 * b.val) 8 = s.dbuf[n] := by
  obtain ⟨c, hc⟩ := b
  rw [Fin.getElem_fin]
  simp only [h, State.dbufWord]
  interval_cases c
  · exact BitVec.extractLsb'_append_eq_right
  · rw [BitVec.extractLsb'_append_eq_of_le (by decide)]
    exact BitVec.extractLsb'_append_eq_right
  · iterate 2 rw [BitVec.extractLsb'_append_eq_of_le (by decide)]
    exact BitVec.extractLsb'_append_eq_right
  · iterate 3 rw [BitVec.extractLsb'_append_eq_of_le (by decide)]
    exact BitVec.extractLsb'_eq_self

theorem rom_getElem?_eq (n : Fin 79) : rom[n.val]? = some (romEntry n) := by
  have hn : n.val < rom.length := n.isLt
  rw [romEntry, List.getElem?_eq_getElem hn]
  rfl

/-- R132: the exponents of an entry fit the words of the ROM mirror. -/
theorem romEntry_exponents (n : Fin 79) : (BitVec.ofInt 32 (romEntry n).bexp).toInt = (romEntry n).bexp ∧
    (BitVec.ofInt 32 (romEntry n).dexp).toInt = (romEntry n).dexp := by
  have hmem := List.mem_of_getElem? (rom_getElem?_eq n)
  have hb := rom_bexp_bounds _ hmem
  have hd := rom_dexp_bounds _ hmem
  exact ⟨toInt_ofInt_of_fits (by omega) (by omega), toInt_ofInt_of_fits (by omega) (by omega)⟩

theorem flagWord_eq (b : Bool) : 0#31 ++ flag b = if b then (1 : Word) else 0 := by
  cases b <;> rfl

/-- Settles O29: each offset is a listed word's own, and reads its contents. -/
theorem windowShowsTheRegisters : Obligations.WindowShowsTheRegisters := by
  intro s
  have hread (r : WinReg) : s.readWord r.offset = s.readReg r := readWord_offset s r
  have hjoin {hi lo : WinReg} {x : DWord} (hh : s.readReg hi = hiWord x) (hl : s.readReg lo = loWord x) :
      s.readWord hi.offset ++ s.readWord lo.offset = x := by
    rw [hread, hread, hh, hl, hiWord_append_loWord]
  refine ⟨hread .fcmd, hread .cmd, hjoin (hi := .argSigHi) (lo := .argSigLo) rfl rfl, hread .argExp, hread .cls,
    hjoin (hi := .csigHi) (lo := .csigLo) rfl rfl, hread .cpk, hread .dlen, hread .dexp, fun i => ?_,
    fun j b n hn => ?_, fun n => ?_⟩
  · obtain ⟨hsig, hexp⟩ := shownF_eq s i
    exact ⟨hsig ▸ hjoin (hi := .fSigHi i) (lo := .fSigLo i) rfl rfl, (hread (.fExp i)).trans hexp,
      (hread (.fValid i)).trans (flagWord_eq _)⟩
  · exact (congrArg _ (hread (.dbuf j))).trans (dbufWord_byte s j b hn)
  · obtain ⟨hb, hd⟩ := romEntry_exponents n
    exact ⟨romEntry n, rom_getElem?_eq n, hjoin (hi := .romSigHi n) (lo := .romSigLo n) rfl rfl,
      (congrArg _ (hread (.romBexp n))).trans hb, (congrArg _ (hread (.romDexp n))).trans hd⟩

/-! ### Reads and argument writes (R60, R63, R64, R241) -/

theorem readWord_argSigLo (s : State) : s.readWord 0x010 = loWord s.argSig := readWord_offset s .argSigLo

theorem readWord_argSigHi (s : State) : s.readWord 0x014 = hiWord s.argSig := readWord_offset s .argSigHi

theorem readWord_argExp (s : State) : s.readWord 0x018 = s.argExp := readWord_offset s .argExp

theorem setLo_setLo (x : DWord) (v : Word) : setLo (setLo x v) v = setLo x v := by
  rw [setLo, hiWord_setLo, setLo]

theorem setHi_setHi (x : DWord) (v : Word) : setHi (setHi x v) v = setHi x v := by
  rw [setHi, loWord_setHi, setHi]

/-- Settles O32: each of the writes, by the word it writes. -/
theorem readsAndArgumentWrites : Obligations.ReadsAndArgumentWrites := by
  refine fun s off v => ⟨hostRead_cases s off, ?_, ?_⟩
  · rintro (rfl | rfl | rfl)
    · rw [hostWrite_argSigLo, readWord_argSigLo, loWord_setLo]
    · rw [hostWrite_argSigHi, readWord_argSigHi, hiWord_setHi]
    · rw [hostWrite_argExp, readWord_argExp]
  · rintro (rfl | rfl | rfl | ⟨rfl, hv⟩)
    · rw [hostWrite_argSigLo, hostWrite_argSigLo, setLo_setLo]
    · rw [hostWrite_argSigHi, hostWrite_argSigHi, setHi_setHi]
    · rw [hostWrite_argExp, hostWrite_argExp]
    · rw [hostWrite_ctrl, hostWrite_ctrl, writeCtrl_of_not_srst _ hv, writeCtrl_of_not_srst _ hv]

section
variable {s : State} {r : WinReg}

theorem racing_of_mayWrite {i : Instr} (hp : s.pend = true) (hd : decode s.pcmd = .ok i) (hm : mayWrite i r = true) :
    s.racing r = true := by
  rw [State.racing, hp, hd, Bool.true_and]
  exact hm

theorem not_racing_of_not_mayWrite (h : s.pend = false ∨ ∀ i, decode s.pcmd = .ok i → mayWrite i r = false) :
    s.racing r = false := by
  unfold State.racing
  rcases h with hp | hm
  · rw [hp, Bool.false_and]
  · cases hd : decode s.pcmd with
    | ok i => exact (congrArg (s.pend && ·) (hm i hd)).trans (Bool.and_false _)
    | error e => exact Bool.and_false _

end

/-- R64: no command writes the control words, the argument words or the ROM mirror. -/
theorem not_mayWrite_of_always_exact (i : Instr) {r : WinReg}
    (h : r ∈ [WinReg.ctrl, .status, .fcmd, .cmd, .argSigLo, .argSigHi, .argExp] ∨
      ∃ n, r ∈ [WinReg.romSigLo n, .romSigHi n, .romBexp n, .romDexp n]) : mayWrite i r = false := by
  cases r with
  | ctrl | status | fcmd | cmd | argSigLo | argSigHi | argExp | romSigLo | romSigHi | romBexp | romDexp => rfl
  | cls | csigLo | csigHi | cpk | dlen | dexp | fSigLo | fSigHi | fExp | fValid | dbuf => simp at h

/-- Settles O33: the read races or is exact as `State.racing` says. -/
theorem readsAreExactUnlessRacing : Obligations.ReadsAreExactUnlessRacing := by
  intro s r
  have hexact (h : s.racing r = false) : s.hostRead r.offset = { s with reads := s.readReg r :: s.reads } := by
    rw [hostRead_of_not_racing (by rwa [racingAt_offset]), readWord_offset]
  refine ⟨fun i hp hd hm => ?_, fun h => hexact (not_racing_of_not_mayWrite h),
    fun h => hexact (not_racing_of_not_mayWrite (.inr fun i _ => not_mayWrite_of_always_exact i h))⟩
  rw [hostRead_of_racing (by rw [racingAt_offset, racing_of_mayWrite hp hd hm])]

/-! ### What a command may write (R22, R64) -/

/-- The four window words of a register are written by the commands whose destination it is. -/
theorem mayWrite_fWord_iff (i : Instr) (j : FReg) :
    ∀ r ∈ [WinReg.fSigLo j, .fSigHi j, .fExp j, .fValid j], (mayWrite i r = true ↔ j ∈ fDests i) := by
  simp [mayWrite]

/-- Settles O34: the destinations of each command, and the result words of the three that write one. -/
theorem wordsACommandMayWrite : Obligations.WordsACommandMayWrite := by
  refine ⟨fun d a b j i hi r hr => ?_, fun v m p j i hi r hr => ?_, fun v m p j i hi r hr => ?_, fun i => ⟨?_, ?_, ?_⟩⟩
  · rw [mayWrite_fWord_iff i j r hr]
    simp only [List.mem_cons, List.not_mem_nil, or_false] at hi
    rcases hi with rfl | rfl | rfl | rfl | rfl | rfl <;> simp [fDests]
  · rw [mayWrite_fWord_iff i j r hr]
    simp only [List.mem_cons, List.not_mem_nil, or_false] at hi
    rcases hi with rfl | rfl <;> simp [fDests]
  · rw [← Bool.not_eq_true, mayWrite_fWord_iff i j r hr]
    simp only [List.mem_cons, List.not_mem_nil, or_false] at hi
    rcases hi with rfl | rfl | rfl | rfl <;> simp [fDests]
  · cases i <;> simp [mayWrite, writesClass]
  · cases i <;> simp [mayWrite, writesCpk]
  · cases i <;> simp [mayWrite, writesDigits]

/-! ### The frame of every command (R202, R203) -/

/-- What a command writes shows only in the words it may write. -/
theorem readReg_of_writesOnly {i : Instr} {s t : State} (h : WritesOnly i s t) {r : WinReg} (hm : mayWrite i r = false)
    (hstatus : r ≠ .status) : t.readReg r = s.readReg r := by
  have hreg (j : FReg) (hj : decide (j ∈ fDests i) = false) : t.f[j] = s.f[j] := h.regs j (of_decide_eq_false hj)
  cases r with
  | ctrl => rw [State.readReg, State.readReg, State.ctrlWord, State.ctrlWord, h.refine]
  | status => exact absurd rfl hstatus
  | fcmd => exact h.fcmd
  | argSigLo | argSigHi => rw [State.readReg, State.readReg, h.argSig]
  | argExp => exact h.argExp
  | cls => exact (h.cls hm).1
  | csigLo | csigHi => rw [State.readReg, State.readReg, (h.cls hm).2]
  | cpk => exact h.cpk hm
  | dlen => exact (h.digits hm).2.1
  | dexp => exact (h.digits hm).2.2
  | dbuf j => rw [State.readReg, State.readReg, State.dbufWord, State.dbufWord, (h.digits hm).1]
  | fSigLo j | fSigHi j | fExp j => rw [State.readReg, State.readReg, State.shownF, State.shownF, hreg j hm]
  | fValid j => rw [State.readReg, State.readReg, hreg j hm]
  | cmd | romSigLo | romSigHi | romBexp | romDexp => rfl

/-- Commit and fault entry show only in `STATUS`, and in `FCMD`. -/
theorem readReg_commit (s : State) {r : WinReg} (hstatus : r ≠ .status) : s.commit.readReg r = s.readReg r := by
  cases r with
  | status => exact absurd rfl hstatus
  | ctrl | fcmd | cmd | argSigLo | argSigHi | argExp | cls | csigLo | csigHi | cpk | dlen | dexp | fSigLo | fSigHi |
    fExp | fValid | dbuf | romSigLo | romSigHi | romBexp | romDexp => rfl

@[inherit_doc readReg_commit]
theorem readReg_faulted (s : State) (c : Cause) {r : WinReg} (hstatus : r ≠ .status) (hfcmd : r ≠ .fcmd) :
    (s.faulted c).readReg r = s.readReg r := by
  cases r with
  | status => exact absurd rfl hstatus
  | fcmd => exact absurd rfl hfcmd
  | ctrl | cmd | argSigLo | argSigHi | argExp | cls | csigLo | csigHi | cpk | dlen | dexp | fSigLo | fSigHi |
    fExp | fValid | dbuf | romSigLo | romSigHi | romBexp | romDexp => rfl

/-- Settles O10: a command writes only its destinations, or takes the fault entry. -/
theorem commandFrame : Obligations.CommandFrame := by
  intro i s t h
  rcases exec_cases i s with ⟨s', hw, h'⟩ | ⟨c, h'⟩
  · obtain rfl := Host.Outcome.next.inj (h.symm.trans h')
    exact ⟨fun r hm hs _ => (readReg_commit s' hs).trans (readReg_of_writesOnly hw hm hs), hw.regs, hw.pcmd, hw.pargSig,
      hw.pargExp, hw.prefine, hw.argSig, hw.argExp, hw.refine, hw.prog, hw.sched, hw.reads, hw.draws⟩
  · obtain rfl := Host.Outcome.next.inj (h.symm.trans h')
    exact ⟨fun r _ hs hf => readReg_faulted s c hs hf, fun _ _ => rfl, rfl, rfl, rfl, rfl, rfl, rfl, rfl, rfl, rfl, rfl,
      rfl⟩

end Sys2Proof.Machine

/-! ## The agents (R54, R88, R200 to R208, R230 to R246)

A step is the turn of the agent that `sched` names. Its turn is used up, and at most one operation of the host; so what
a run must come to is an induction on the schedule. -/

namespace Sys2Proof.Machine

/-! ### A step by whose turn it is -/

section
variable {s : State}

theorem step_of_unit (h : s.turn = .unit) : step s = unitTurn s.nextTurn := by
  rw [step, machineStep, h, agentTurn]

theorem step_of_host (h : s.turn = .host) : step s = hostTurn s.nextTurn := by
  rw [step, machineStep, h, agentTurn]

theorem step_of_platformReset (h : s.turn = .platformReset) : step s = .next s.nextTurn.resetUnit := by
  rw [step, machineStep, h, agentTurn]

theorem nextTurn_of_cons {t : Turn} {more : List Turn} (h : s.sched = t :: more) :
    s.nextTurn = { s with sched := more } := by
  rw [State.nextTurn, h]
  rfl

theorem nextTurn_of_nil (h : s.sched = []) : s.nextTurn = s := by
  rw [State.nextTurn, h, List.tail_nil, ← h]

end

/-- R88, R58: an access the window takes. -/
theorem step_host_write {s : State} {off : Offset} {v : Word} {more : List HostOp} (ht : s.turn = .host)
    (ha : off.toNat % 4 = 0) (hprog : s.prog = .write off 4 v :: more) :
    step s = .next (State.hostWrite { s with prog := more, sched := s.sched.tail } off v) := by
  rw [step_of_host ht, hostTurn_of_write (s := s.nextTurn) hprog, if_pos (accessTaken_iff.mpr ⟨rfl, ha⟩)]
  rfl

theorem step_host_read {s : State} {off : Offset} {more : List HostOp} (ht : s.turn = .host)
    (ha : off.toNat % 4 = 0) (hprog : s.prog = .read off 4 :: more) :
    step s = .next (State.hostRead { s with prog := more, sched := s.sched.tail } off) := by
  rw [step_of_host ht, hostTurn_of_read (s := s.nextTurn) hprog, if_pos (accessTaken_iff.mpr ⟨rfl, ha⟩)]
  rfl

theorem step_host_wait {s : State} {more : List HostOp} (ht : s.turn = .host) (hprog : s.prog = .wait :: more) :
    step s = .next { s with prog := if s.pend then s.prog else more, sched := s.sched.tail } := by
  rw [step_of_host ht, hostTurn_of_wait (s := s.nextTurn) hprog]
  rfl

/-- Settles O60: each operation, by its lemma. -/
theorem hostTurnMakesTheNextOperation : Obligations.HostTurnMakesTheNextOperation := fun s ht =>
  ⟨fun _ _ ha hprog => step_host_read ht ha hprog, fun _ _ _ ha hprog => step_host_write ht ha hprog,
    fun _ hprog => step_host_wait ht hprog,
    fun hprog => (step_of_host ht).trans (hostTurn_of_nil (s := s.nextTurn) hprog)⟩

/-! ### The unit's turn (R200) -/

/-- R200: the unit's turn with a command in flight whose word decodes. -/
theorem step_of_decode {s : State} {i : Instr} (ht : s.turn = .unit) (hp : s.pend = true)
    (hd : decode s.pcmd = .ok i) : step s = exec i s.nextTurn := by
  rw [step_of_unit ht, unitTurn_of_pend (s := s.nextTurn) hp, complete_of_ok (s := s.nextTurn) hd]

/-- Settles O7: the step by `step_of_decode`; a placed word is the word of a well-formed command, so it decodes. -/
theorem stepRunsTheDecodedCommand : Obligations.StepRunsTheDecodedCommand := by
  refine ⟨fun s i hp hd => ⟨fun more hs => ?_, fun hs => ?_⟩, fun s i hwf => ?_⟩
  · rw [step_of_decode (turn_of_cons hs) hp hd, nextTurn_of_cons hs]
  · rw [step_of_decode (turn_of_nil_of_pend hs hp) hp hd, nextTurn_of_nil hs]
  · have hword : BitVec.ofNat 32 ((encode i).toNat % 2 ^ 32) = encode i := by
      rw [Nat.mod_eq_of_lt (encode i).isLt, BitVec.ofNat_toNat, BitVec.setWidth_eq]
    have hd : decode (encode i) = .ok i := by rw [decodeInvertsEncode i, if_pos hwf]
    rw [State.withFetchWord, hword, step_of_decode (s := s.inFlight (encode i)) rfl rfl hd]
    rfl

/-- Settles O9: `faults_uninit_of_invalid_source`. -/
theorem invalidSourceFaultsUninit : Obligations.InvalidSourceFaultsUninit := fun _ _ => faults_uninit_of_invalid_source

/-- R200: a completion clears `PEND` and leaves the model's own fields. -/
theorem complete_frame {s t : State} (h : complete s = .next t) :
    t.pend = false ∧ t.prog = s.prog ∧ t.sched = s.sched := by
  rcases complete_cases s with ⟨i, -, h'⟩ | ⟨-, h'⟩
  · rcases exec_cases i s with ⟨s', hw, hx⟩ | ⟨c, hx⟩
    · obtain rfl := Host.Outcome.next.inj (h.symm.trans (h'.trans hx))
      exact ⟨rfl, hw.prog, hw.sched⟩
    · obtain rfl := Host.Outcome.next.inj (h.symm.trans (h'.trans hx))
      exact ⟨rfl, rfl, rfl⟩
  · obtain rfl := Host.Outcome.next.inj (h.symm.trans h')
    exact ⟨rfl, rfl, rfl⟩

/-! ### Halted, overrun and reset (R204, R207, R208, R230) -/

/-- Settles O11: of the effects of a step only a reset leaves the halted state. -/
theorem haltedUntilReset : Obligations.HaltedUntilReset := by
  refine ⟨fun s t hf hp h => ?_, fun s v more hf ht hprog => ?_⟩
  · cases stepEffect_of_step h with
    | complete hp' h => exact absurd (hp.symm.trans hp') Bool.false_ne_true
    | host x h => exact .inl (h ▸ ⟨hf, rfl, rfl, hp, rfl, rfl, rfl, rfl, rfl, rfl, rfl⟩)
    | reset u h hr => exact .inr hr
    | overrun x v hf' hp' h => exact absurd (hf'.symm.trans hf) Bool.false_ne_true
    | issue x v hf' hp' h => exact absurd (hf'.symm.trans hf) Bool.false_ne_true
  · rw [step_host_write ht rfl hprog, hostWrite_cmd, issue_of_halted v (by exact hf)]

theorem step_cmd_write_of_busy {s : State} {v : Word} {more : List HostOp} (hp : s.pend = true) (hf : s.fault = false)
    (ht : s.turn = .host) (hprog : s.prog = .write 0x00C 4 v :: more) : step s = .next { s with
      prog := more, sched := s.sched.tail, fault := true, cause := .overrun, fcmd := v, pend := false } := by
  rw [step_host_write ht rfl hprog, hostWrite_cmd, issue_of_busy v (by exact hf) (by exact hp)]
  rfl

theorem step_cmd_write_of_idle {s : State} {v : Word} {more : List HostOp} (hp : s.pend = false) (hf : s.fault = false)
    (ht : s.turn = .host) (hprog : s.prog = .write 0x00C 4 v :: more) : step s = .next { s with
      prog := more, sched := s.sched.tail, pcmd := v, pargSig := s.argSig, pargExp := s.argExp, prefine := s.refine,
      pend := true } := by
  rw [step_host_write ht rfl hprog, hostWrite_cmd, issue_of_idle v (by exact hf) (by exact hp)]
  rfl

/-- Settles O12: the write is an `OVERRUN`. -/
theorem overrunDiscardsTheCommandInFlight : Obligations.OverrunDiscardsTheCommandInFlight :=
  fun _ _ _ => step_cmd_write_of_busy

theorem run_succ {s t : State} (k : Nat) (h : step s = .next t) : core.run (k + 1) s = core.run k t := by
  have hstep : core.step s = .next t := h
  simp only [Host.Core.run]
  rw [hstep]

/-- Settles O13: the unit's turn and then the host's, or the host's alone. -/
theorem bothOrdersOfWriteAndCompletion : Obligations.BothOrdersOfWriteAndCompletion := by
  intro s t v more hp hf hprog hc ht
  obtain ⟨htp, htprog, htsched⟩ := complete_frame hc
  have hunit : step { s with sched := [.unit, .host] } = .next t :=
    (step_of_unit rfl).trans ((unitTurn_of_pend (by exact hp)).trans hc)
  have hissue := step_cmd_write_of_idle htp ht (turn_of_cons htsched) (htprog.trans hprog)
  have hover := step_cmd_write_of_busy (s := { s with sched := [.host] }) hp hf rfl hprog
  rw [htsched] at hissue
  exact ⟨(run_succ 1 hunit).trans (run_succ 0 hissue), run_succ 0 hover⟩

/-- Settles O18: both sources are `resetUnit`. -/
theorem resetSourcesAgree : Obligations.ResetSourcesAgree := fun s =>
  ⟨step_of_platformReset, fun v more ht hprog hv => by
    rw [step_host_write ht rfl hprog, hostWrite_ctrl, writeCtrl_of_srst _ hv]
    rfl⟩

/-- Settles O19: the unit after reset is idle, and so is the host. -/
theorem idleAfterReset : Obligations.IdleAfterReset :=
  ⟨rfl, fun s v => (hostWrite_cmd _ v).trans (issue_of_idle (s := s.resetUnit) v rfl rfl)⟩

/-! ### REFINE (R26) -/

/-- The state with the refinement latched on or off. -/
def State.withPrefine (s : State) (b : Bool) : State := { s with prefine := b }

section
variable {i : Instr} {s : State} {b : Bool}

/-- A command that writes the answer `q` of a function, whatever `PREFINE`, ends the same with `PREFINE` changed. -/
theorem exec_withPrefine_of_finish {α : Type} {q : Except Cause α} {w w' : α → State}
    (he : exec i s = finish s (q.map w)) (he' : exec i (s.withPrefine b) = finish (s.withPrefine b) (q.map w'))
    (hw : ∀ x, w' x = (w x).withPrefine b) :
    exec i (s.withPrefine b) = mapNext (·.withPrefine b) (exec i s) := by
  rw [he, he']
  cases q with
  | ok x => exact congrArg (Host.Outcome.next ∘ State.commit) (hw x)
  | error c => rfl

theorem exec_withPrefine_of_bound {p : Prec} {v m q : FReg} (he : ∀ s, exec i s = finish s (bound p v m q s)) :
    exec i (s.withPrefine b) = mapNext (·.withPrefine b) (exec i s) := by
  cases hd : pairwiseDistinct v m q with
  | true =>
    simp only [bound_of_distinct p hd] at he
    exact exec_withPrefine_of_finish (he s) (he _) fun _ => rfl
  | false =>
    simp only [bound_of_not_distinct p hd] at he
    rw [he, he]
    rfl

end

/-- R26: no rule but that of DIGITS reads `PREFINE`. -/
theorem exec_withPrefine (i : Instr) (s : State) (b : Bool) (hi : ∀ v m p, i ≠ .digits v m p) :
    exec i (s.withPrefine b) = mapNext (·.withPrefine b) (exec i s) := by
  by_cases hinv : ∃ j ∈ sources i, s.f[j].valid = false
  · have hs : Faults i s .uninit := faults_uninit_of_invalid_source hinv
    have hl : Faults i (s.withPrefine b) .uninit := faults_uninit_of_invalid_source hinv
    rw [hs, hl]
    rfl
  have hold := holds_of_no_invalid_source hinv
  cases i with
  | digits v m p => exact absurd rfl (hi v m p)
  | nop | ldf | fclassD | fclassS => rfl
  | boundD | boundS => exact exec_withPrefine_of_bound fun _ => rfl
  | fsub d j k =>
    obtain ⟨⟨x, hj⟩, y, hk⟩ := holds_two hold
    exact exec_withPrefine_of_finish (execFsub_of_holds hj hk) (execFsub_of_holds hj hk) fun _ => rfl
  | fmul d j k =>
    obtain ⟨⟨x, hj⟩, y, hk⟩ := holds_two hold
    exact exec_withPrefine_of_finish (execFmul_of_holds hj hk) (execFmul_of_holds hj hk) fun _ => rfl
  | fnorm d j =>
    obtain ⟨x, hj⟩ := hold j List.mem_cons_self
    exact exec_withPrefine_of_finish (execFnorm_of_holds hj) (execFnorm_of_holds hj) fun _ => rfl
  | fnormto d j k =>
    obtain ⟨⟨x, hj⟩, y, hk⟩ := holds_two hold
    exact exec_withPrefine_of_finish (execFnormto_of_holds hj hk) (execFnormto_of_holds hj hk) fun _ => rfl
  | cpow d j =>
    obtain ⟨x, hj⟩ := hold j List.mem_cons_self
    exact exec_withPrefine_of_finish (execCpow_of_holds hj) (execCpow_of_holds hj) fun _ => rfl

/-- Settles O16: `exec_withPrefine`, and the refinement that is off. -/
theorem refineAffectsDigitsAlone : Obligations.RefineAffectsDigitsAlone := by
  refine ⟨fun i s b hi => exec_withPrefine i s b hi, fun v mm mp k cdexp r hs he => ?_⟩
  rw [digitGen_of_scale hs, he]
  rfl

/-! ### Stops (R54) -/

/-- R54: the host's turn stops exactly at an access the window does not take. -/
theorem hostTurn_fault_iff (s : State) : hostTurn s = .fault .hostAccessNotTaken ↔
    ∃ off bytes more, (bytes ≠ 4 ∨ off.toNat % 4 ≠ 0) ∧
      (s.prog = .read off bytes :: more ∨ ∃ v, s.prog = .write off bytes v :: more) := by
  have hnot (off : Offset) (bytes : Nat) : ¬accessTaken off bytes = true ↔ bytes ≠ 4 ∨ off.toNat % 4 ≠ 0 := by
    rw [accessTaken_iff, not_and_or]
  rcases hp : s.prog with _ | ⟨⟨off, bytes⟩ | ⟨off, bytes, v⟩ | _, more⟩
  · simp [hostTurn_of_nil hp]
  · rw [hostTurn_of_read hp]
    simp [← hnot]
  · rw [hostTurn_of_write hp]
    simp [← hnot]
  · simp [hostTurn_of_wait hp]

/-- R54: and it is never refused. -/
theorem step_next_or_fault (s : State) : (∃ t, step s = .next t) ∨
    (s.turn = .host ∧ step s = .fault .hostAccessNotTaken) := by
  rcases step_cases s with ⟨-, -, h⟩ | ⟨-, -, h⟩ | ⟨ht, h⟩ | ⟨-, h⟩
  · obtain ⟨t, hc⟩ := complete_next s.nextTurn
    exact .inl ⟨t, h.trans hc⟩
  · exact .inl ⟨_, h⟩
  · rcases hostTurn_cases s.nextTurn with ⟨-, h'⟩ | ⟨_, _, _, -, -, h'⟩ | ⟨_, _, _, _, -, -, h'⟩ | ⟨_, -, -, h'⟩ |
      ⟨_, -, -, h'⟩ | ⟨-, h'⟩
    case inr.inr.inr.inr.inr => exact .inr ⟨ht, h.trans h'⟩
    all_goals exact .inl ⟨_, h.trans h'⟩
  · exact .inl ⟨_, h⟩

/-- Settles O22: only the host's turn can stop, and `hostTurn_fault_iff` says when. -/
theorem onlyAccessesNotTakenStop : Obligations.OnlyAccessesNotTakenStop := by
  intro s
  refine ⟨(step_next_or_fault s).imp_right fun h => h.2, fun h => ?_, fun ⟨ht, hacc⟩ => ?_⟩
  · rcases step_next_or_fault s with ⟨t, h'⟩ | ⟨ht, -⟩
    · cases h.symm.trans h'
    · exact ⟨ht, (hostTurn_fault_iff s.nextTurn).mp ((step_of_host ht).symm.trans h)⟩
  · exact (step_of_host ht).trans ((hostTurn_fault_iff s.nextTurn).mpr hacc)

/-! ### Liveness (R243, R246) -/

theorem hostWrite_model_fields (s : State) (off : Offset) (v : Word) :
    (s.hostWrite off v).prog = s.prog ∧ (s.hostWrite off v).sched = s.sched := by
  rcases hostWrite_cases s off v with ⟨-, -, h⟩ | ⟨-, -, h⟩ | ⟨-, h⟩ | ⟨a, h⟩ | ⟨e, h⟩ | h
  case inr.inr.inl =>
    rw [h]
    rcases issue_cases s v with ⟨-, h⟩ | ⟨-, -, h⟩ | ⟨-, -, h⟩ <;> rw [h] <;> exact ⟨rfl, rfl⟩
  all_goals
    rw [h]
    exact ⟨rfl, rfl⟩

/-- R63, log entry 1: a step uses up its turn, and makes at most the host's next operation. -/
theorem step_model_fields {s t : State} (h : step s = .next t) :
    t.sched = s.sched.tail ∧ (t.prog = s.prog ∨ ∃ op, s.prog = op :: t.prog) := by
  rcases step_cases s with ⟨-, -, h'⟩ | ⟨-, -, h'⟩ | ⟨-, h'⟩ | ⟨-, h'⟩
  · obtain ⟨-, hprog, hsched⟩ := complete_frame (h'.symm.trans h)
    exact ⟨hsched, .inl hprog⟩
  · obtain rfl := Host.Outcome.next.inj (h.symm.trans h')
    exact ⟨rfl, .inl rfl⟩
  · have hh := h'.symm.trans h
    rcases hostTurn_cases s.nextTurn with ⟨hp, hx⟩ | ⟨off, bytes, more, hp, -, hx⟩ | ⟨off, bytes, v, more, hp, -, hx⟩ |
      ⟨more, hp, -, hx⟩ | ⟨more, hp, -, hx⟩ | ⟨-, hx⟩
    case inr.inr.inr.inr.inr => cases hh.symm.trans hx
    all_goals obtain rfl := Host.Outcome.next.inj (hh.symm.trans hx)
    · exact ⟨rfl, .inl rfl⟩
    · obtain ⟨w, n, hr⟩ := hostRead_cases (s.nextTurn.withProg more) off
      rw [hr]
      exact ⟨rfl, .inr ⟨_, hp⟩⟩
    · obtain ⟨hprog, hsched⟩ := hostWrite_model_fields (s.nextTurn.withProg more) off v
      rw [hprog, hsched]
      exact ⟨rfl, .inr ⟨_, hp⟩⟩
    · exact ⟨rfl, .inl rfl⟩
    · exact ⟨rfl, .inr ⟨_, hp⟩⟩
  · obtain rfl := Host.Outcome.next.inj (h.symm.trans h')
    exact ⟨rfl, .inl rfl⟩

/-- The window takes every access the host still makes (R54). -/
def State.AccessesTaken (s : State) : Prop := ∀ op ∈ s.prog, match op with
  | .read off bytes => accessTaken off bytes = true
  | .write off bytes _ => accessTaken off bytes = true
  | .wait => True

theorem step_next_of_accessesTaken {s : State} (h : s.AccessesTaken) : ∃ t, step s = .next t := by
  rcases step_next_or_fault s with ht | ⟨ht, hf⟩
  · exact ht
  · obtain ⟨off, bytes, more, hacc, hp⟩ := (hostTurn_fault_iff s.nextTurn).mp ((step_of_host ht).symm.trans hf)
    have htaken : accessTaken off bytes = true := by
      rcases hp with hp | ⟨v, hp⟩ <;> exact h _ (hp ▸ List.mem_cons_self)
    obtain ⟨hb, ho⟩ := accessTaken_iff.mp htaken
    exact absurd hacc (not_or.mpr ⟨not_not_intro hb, not_not_intro ho⟩)

theorem accessesTaken_of_step {s t : State} (h : s.AccessesTaken) (hs : step s = .next t) : t.AccessesTaken := by
  rcases (step_model_fields hs).2 with hp | ⟨op, hp⟩
  · exact fun o ho => h o (hp ▸ ho)
  · exact fun o ho => h o (hp ▸ List.mem_cons_of_mem _ ho)

/-- With the schedule used up, a command in flight completes (R246). -/
theorem pend_of_step_unscheduled {s t : State} (hn : s.sched = []) (hp : s.pend = true) (h : step s = .next t) :
    t.pend = false := by
  rw [step_of_unit (turn_of_nil_of_pend hn hp), unitTurn_of_pend (s := s.nextTurn) hp] at h
  exact (complete_frame h).1

/-- Settles O20: by induction on the schedule; each turn ends the command, or leaves a shorter schedule. -/
theorem completionIsFair : Obligations.CompletionIsFair := by
  intro s hp htaken
  replace htaken : s.AccessesTaken := htaken
  induction hs : s.sched generalizing s with
  | nil =>
    obtain ⟨t, ht⟩ := step_next_of_accessesTaken htaken
    exact ⟨1, le_rfl, t, run_succ 0 ht, pend_of_step_unscheduled hs hp ht⟩
  | cons u more ih =>
    obtain ⟨t, ht⟩ := step_next_of_accessesTaken htaken
    cases htp : t.pend with
    | false => exact ⟨1, Nat.le_add_left .., t, run_succ 0 ht, htp⟩
    | true =>
      have hsched : t.sched = more := by rw [(step_model_fields ht).1, hs, List.tail_cons]
      obtain ⟨k, hk, t', hrun, hend⟩ := ih t htp (accessesTaken_of_step htaken ht) hsched
      exact ⟨k + 1, Nat.succ_le_succ hk, t', (run_succ k ht).trans hrun, hend⟩

/-- With the schedule used up and nothing in flight, a `WAIT` passes (R243). -/
theorem step_wait_of_idle {s : State} {more : List HostOp} (hn : s.sched = []) (hp : s.pend = false)
    (hprog : s.prog = .wait :: more) : ∃ t, step s = .next t ∧ t.prog = more ∧ t.pend = false :=
  ⟨_, step_host_wait (turn_of_nil_of_idle hn hp) hprog, by rw [hp]; rfl, hp⟩

/-- R88: a step with a `WAIT` next leaves the `WAIT` there, or passes it in a state with `BUSY` 0. -/
theorem step_of_wait {s : State} {more : List HostOp} (hprog : s.prog = .wait :: more) :
    ∃ t, step s = .next t ∧ ((t.prog = more ∧ t.pend = false) ∨ t.prog = .wait :: more) := by
  rcases step_cases s with ⟨-, -, h⟩ | ⟨-, -, h⟩ | ⟨ht, -⟩ | ⟨-, h⟩
  · obtain ⟨t, hc⟩ := complete_next s.nextTurn
    obtain ⟨-, htprog, -⟩ := complete_frame hc
    exact ⟨t, h.trans hc, .inr (htprog.trans hprog)⟩
  · exact ⟨_, h, .inr hprog⟩
  · refine ⟨_, step_host_wait ht hprog, ?_⟩
    cases hp : s.pend with
    | true => exact .inr hprog
    | false => exact .inl ⟨rfl, rfl⟩
  · exact ⟨_, h, .inr hprog⟩

/-- Settles O21: by induction on the schedule; past it the command in flight completes, and the `WAIT` passes. -/
theorem waitAlwaysEnds : Obligations.WaitAlwaysEnds := by
  intro s more hprog
  simp only [statusWord_busy]
  induction hs : s.sched generalizing s with
  | nil =>
    cases hp : s.pend with
    | false =>
      obtain ⟨t, ht, hend⟩ := step_wait_of_idle hs hp hprog
      exact ⟨1, by decide, t, run_succ 0 ht, hend⟩
    | true =>
      obtain ⟨t, hc⟩ := complete_next s
      obtain ⟨htp, htprog, hts⟩ := complete_frame hc
      have ht : step s = .next t := by
        rw [step_of_unit (turn_of_nil_of_pend hs hp), nextTurn_of_nil hs, unitTurn_of_pend hp, hc]
      obtain ⟨t', ht', hend⟩ := step_wait_of_idle (hts.trans hs) htp (htprog.trans hprog)
      exact ⟨2, le_rfl, t', (run_succ 1 ht).trans (run_succ 0 ht'), hend⟩
  | cons u rest ih =>
    obtain ⟨t, ht, hend | hwait⟩ := step_of_wait hprog
    · exact ⟨1, Nat.le_add_left .., t, run_succ 0 ht, hend⟩
    · have hsched : t.sched = rest := by rw [(step_model_fields ht).1, hs, List.tail_cons]
      obtain ⟨k, hk, t', hrun, hend⟩ := ih t hwait hsched
      exact ⟨k + 1, Nat.succ_le_succ hk, t', (run_succ k ht).trans hrun, hend⟩

end Sys2Proof.Machine

/-! ## The assembler text (R87) and the selector's range (R135) -/

namespace Sys2Proof.Machine

/-! ### Where a text is cut -/

theorem cutAt_of_not_mem {sep : Char} {text : List Char} (h : sep ∉ text) : cutAt sep text = (text, none) := by
  induction text with
  | nil => rfl
  | cons c more ih =>
    obtain ⟨hc, hmore⟩ := not_or.mp (mt List.mem_cons.mpr h)
    rw [cutAt, if_neg (Ne.symm hc), ih hmore]

theorem cutAt_append {sep : Char} {front : List Char} (back : List Char) (h : sep ∉ front) :
    cutAt sep (front ++ sep :: back) = (front, some back) := by
  induction front with
  | nil => rw [List.nil_append, cutAt, if_pos rfl]
  | cons c more ih =>
    obtain ⟨hc, hmore⟩ := not_or.mp (mt List.mem_cons.mpr h)
    rw [List.cons_append, cutAt, if_neg (Ne.symm hc), ih hmore]

/-! ### Operands -/

/-- The letter as the text in capitals or in small letters has it. -/
def inCase (small : Bool) : Char → Char := if small then Char.toLower else id

/-- A register name, after a space or not, has no comma, and reads as the register. -/
theorem regText_reads (small space : Bool) (r : FReg) :
    let text := (if space then [' '] else []) ++ (regText r).map (inCase small)
    ',' ∉ text ∧ parseReg (text.filter (· ≠ ' ')) = some r := by
  revert small space r
  decide

theorem operandText_cons_cons (r r' : FReg) (rs : List FReg) :
    operandText (r :: r' :: rs) = regText r ++ ',' :: ' ' :: operandText (r' :: rs) := by
  simp [operandText]

/-- By induction on the operands: each is cut off at its comma, and the space after the comma is ignored. -/
theorem parseOperands_operandText (small space : Bool) (r : FReg) (rs : List FReg) {fuel : Nat} (h : rs.length < fuel) :
    parseOperands fuel ((if space then [' '] else []) ++ (operandText (r :: rs)).map (inCase small)) =
      some (r :: rs) := by
  induction rs generalizing fuel space r with
  | nil =>
    obtain ⟨fuel, rfl⟩ := Nat.exists_eq_succ_of_ne_zero (Nat.ne_zero_of_lt h)
    obtain ⟨hcomma, hreg⟩ := regText_reads small space r
    rw [parseOperands, operandText, cutAt_of_not_mem hcomma]
    exact congrArg (Option.map ([·])) hreg
  | cons r' rs ih =>
    obtain ⟨fuel, rfl⟩ := Nat.exists_eq_succ_of_ne_zero (Nat.ne_zero_of_lt h)
    obtain ⟨hcomma, hreg⟩ := regText_reads small space r
    have hrest := ih true r' (Nat.lt_of_succ_lt_succ h)
    have hsep : (',' :: ' ' :: operandText (r' :: rs)).map (inCase small) =
        ',' :: ([' '] ++ (operandText (r' :: rs)).map (inCase small)) := by
      cases small <;> rfl
    rw [if_pos rfl] at hrest
    rw [parseOperands, operandText_cons_cons, List.map_append, hsep, ← List.append_assoc, cutAt_append _ hcomma]
    simp only [hreg, hrest]
    rfl

theorem operandText_not_all_space (small : Bool) (r : FReg) (rs : List FReg) :
    ((operandText (r :: rs)).map (inCase small)).all (· = ' ') = false := by
  cases rs <;> cases small <;> rfl

/-! ### The mnemonic, and the command -/

/-- A mnemonic is not empty, has no space, and reads the same in either case. -/
theorem mnemonic_reads (small : Bool) (i : Instr) :
    let m := (mnemonic i).map (inCase small)
    m ≠ [] ∧ ' ' ∉ m ∧ m.map Char.toUpper = mnemonic i := by
  cases i <;> simp only [mnemonic] <;> revert small <;> decide

theorem assemble_mnemonic_operands (i : Instr) : assemble (mnemonic i) (operands i) = some i := by
  cases i <;> rfl

theorem operands_length_le (i : Instr) : (operands i).length ≤ 3 := by
  cases i <;> simp [operands]

theorem dropWhile_space_append {m : List Char} (rest : List Char) (hm : m ≠ []) (hs : ' ' ∉ m) :
    (m ++ rest).dropWhile (· = ' ') = m ++ rest := by
  obtain ⟨c, m, rfl⟩ := List.exists_cons_of_ne_nil hm
  have hc : ¬c = ' ' := fun h => hs (h ▸ List.mem_cons_self)
  simp [hc]

theorem parseAsm_of_no_operands {m : List Char} (hm : m ≠ []) (hs : ' ' ∉ m) :
    parseAsm m = assemble (m.map Char.toUpper) [] := by
  have hdrop := dropWhile_space_append [] hm hs
  rw [List.append_nil] at hdrop
  rw [parseAsm, hdrop, cutAt_of_not_mem hs]

theorem parseAsm_of_operands {m text : List Char} {rs : List FReg} (hm : m ≠ []) (hs : ' ' ∉ m)
    (hspace : text.all (· = ' ') = false) (h : parseOperands 3 text = some rs) :
    parseAsm (m ++ ' ' :: text) = assemble (m.map Char.toUpper) rs := by
  rw [parseAsm, dropWhile_space_append _ hm hs, cutAt_append _ hs]
  simp only [hspace, h]
  rfl

/-- R87: the mnemonic is cut off at the space before the operands, where there are any. -/
theorem parseAsm_asmText (small : Bool) (i : Instr) : parseAsm ((asmText i).map (inCase small)) = some i := by
  obtain ⟨hm, hs, hupper⟩ := mnemonic_reads small i
  rw [← assemble_mnemonic_operands i, ← hupper]
  rcases hops : operands i with _ | ⟨r, rs⟩
  · rw [asmText, hops]
    exact parseAsm_of_no_operands hm hs
  · have hlen := operands_length_le i
    rw [hops] at hlen
    have htext : (asmText i).map (inCase small) =
        (mnemonic i).map (inCase small) ++ ' ' :: (operandText (r :: rs)).map (inCase small) := by
      rw [asmText, hops]
      cases small <;> simp [inCase]
    rw [htext]
    exact parseAsm_of_operands hm hs (operandText_not_all_space small r rs)
      (parseOperands_operandText small false r rs hlen)

/-- Settles O6: both cases of `parseAsm_asmText`. -/
theorem assemblerTextRoundTrip : Obligations.AssemblerTextRoundTrip := fun i =>
  ⟨by simpa [inCase] using parseAsm_asmText false i, parseAsm_asmText true i⟩

/-! ### The selector's range -/

/-- Settles O43: the range by the index into the ROM, the entry by `select_ok`. -/
theorem selectorRange : Obligations.SelectorRange := by
  refine fun e => ⟨⟨fun ⟨r, hr⟩ => ?_, fun ⟨lo, hi⟩ => ?_⟩, fun r => select_ok, fun r hr he => ?_, fun r hr he => ?_,
    fun c => select_error⟩
  · by_contra hout
    have h := select_of_out_of_range (e := e) (by omega)
    cases h.symm.trans hr
  · obtain ⟨-, r, -, -, hr⟩ := select_of_in_range lo hi
    exact ⟨r, hr⟩
  · subst he
    have hval : (select (-1137)).map (fun r => r.bexp + -1137 + 64) = .ok (-60) := by decide +kernel
    rw [hr] at hval
    exact Except.ok.inj hval
  · subst he
    have hval : (select 960).map (fun r => r.bexp + 960 + 64) = .ok (-36) := by decide +kernel
    rw [hr] at hval
    exact Except.ok.inj hval

end Sys2Proof.Machine
